-- ==== Sys2Proof/Syntax.lean ====
section
/-! DEFINITION. The command set of FZ-HC: one constructor per row of the opcode table (spec 00_scope R3, 30_encoding R103). No command carries an operand (R102). -/

namespace Sys2Proof

/-- The eight commands, in the order of their OP values (R103). -/
inductive Instr where
  | nop         -- NOP, OP 0x00
  | clear       -- CLEAR, OP 0x01
  | analyze     -- ANALYZE, OP 0x02
  | buildTree   -- BUILD_TREE, OP 0x03
  | genCodes    -- GEN_CODES, OP 0x04
  | pack        -- PACK, OP 0x05
  | unpack      -- UNPACK, OP 0x06
  | compress    -- COMPRESS, OP 0x07
  deriving DecidableEq, Repr

end Sys2Proof
end

