-- ==== Sys2Proof/Word.lean ====
section
/-! DEFINITION. The widths of FZ-HC: words, bytes, symbols, arena indices, bit-strings (spec 00_scope R7, R9, R10). -/

namespace Sys2Proof

/-- A register or command word: 32 bits, unsigned (R7 `REG_W`, R9). -/
abbrev Word := BitVec 32

/-- One DMEM byte. -/
abbrev Byte := BitVec 8

/-- A symbol, "an integer in [0,255] representing one input byte" (R14). -/
abbrev Symbol := BitVec 8

/-- An arena index (R7 `NODE_IDX_W`). -/
abbrev NodeIdx := BitVec 9

/-- A bit-string; its head is the first bit, for a code the one chosen at the root (R10). -/
abbrev Bits := List Bool

end Sys2Proof
end

