-- ==== Sys2Proof/Machine/Records.lean ====
section
/-! DEFINITION. The records FZ-HC and its HOST work with: tree nodes, code entries, error codes, register names, host accesses, turns, and the fixed-size tables built of them. -/

namespace Sys2Proof.Machine

/-- The two node kinds of the prefix tree (R14, R45). -/
inductive NodeKind where
  | leaf
  | internal
  deriving DecidableEq, Repr, Inhabited

/-- A record of the node arena (R45). -/
structure Node where
  kind   : NodeKind
  sym    : Symbol
  weight : Word
  left   : NodeIdx
  right  : NodeIdx
  deriving DecidableEq, Repr, Inhabited

/-- A record of the code table (R50): `len = 0` means "no code"; bit j of the code is the bit of
`bits` counted j from its most significant end (R51). -/
structure CodeEntry where
  len  : BitVec 8
  bits : BitVec 256
  deriving DecidableEq, Repr, Inhabited

/-- FREQ[0..255] (R40). -/
abbrev FreqTable := Vector Word 256

/-- NODE[0..510] (R45). -/
abbrev Arena := Vector Node 511

/-- CT[0..255] (R50). -/
abbrev CodeTable := Vector CodeEntry 256

/-- The error codes of STATUS.ERR (R220). Codes 0x0C to 0xFF are never raised, so they are no value
of this type. -/
inductive ErrCode where
  | noError          -- 0x00 NONE
  | illegalCmd       -- 0x01 ILLEGAL_CMD
  | addrRange        -- 0x02 ADDR_RANGE
  | overlap          -- 0x03 OVERLAP
  | emptyTable       -- 0x04 EMPTY_TABLE
  | weightOvf        -- 0x05 WEIGHT_OVF
  | noTree           -- 0x06 NO_TREE
  | missingCode      -- 0x07 MISSING_CODE
  | dstOverflow      -- 0x08 DST_OVERFLOW
  | incompleteCode   -- 0x09 INCOMPLETE_CODE
  | badPadding       -- 0x0A BAD_PADDING
  | tableConflict    -- 0x0B TABLE_CONFLICT
  deriving DecidableEq, Repr

/-- What a command raises: `raise E(info)` (R12). -/
structure CmdError where
  code : ErrCode
  info : Word
  deriving DecidableEq, Repr

/-- What the tree builder makes: the node records from index 0 on, and the index of the root (R150). -/
structure Tree where
  nodes : List Node
  root  : Nat
  deriving DecidableEq, Repr

/-- The registers of the window (R23). `ctBits k` is CT_BITSk; `reserved k` is offset 0x80 + 4k. -/
inductive RegName where
  | id | version | ctrl | status | cmd
  | srcAddr | srcLen | dstAddr | dstCap
  | outLen | pad | errInfo | nsym | ncode | root | nodeCount
  | fqSel | fqData
  | nodeSel | nodeInfo | nodeWeight | nodeChild
  | ctSel | ctLen
  | ctBits (k : BitVec 3)
  | reserved (k : BitVec 5)
  deriving DecidableEq, Repr

/-- One bus access of the HOST (R126). `width` is the access width in bits and `offset` the offset in
the 256-byte window; only 32-bit accesses at multiples of 4 are admitted (R85). `var` is the host
variable a read goes to (R107). A DMEM address is a natural number: one at or past DMEM_SIZE names
no byte (R81). -/
inductive HostAccess where
  | regRead (width : Nat) (offset : BitVec 8) (var : Nat)
  | regWrite (width : Nat) (offset : BitVec 8) (value : Word)
  | memRead (addr : Nat) (var : Nat)
  | memWrite (addr : Nat) (value : Byte)
  deriving DecidableEq, Repr

/-- What the HOST does next: one access, or the polling loop WAIT (R107). -/
inductive HostOp where
  | access (a : HostAccess)
  | wait
  deriving DecidableEq, Repr

/-- Who moves in a step: the HOST, the ENGINE (R126), or the hardware reset input (R250). -/
inductive Turn where
  | host
  | engine
  | reset
  deriving DecidableEq, Repr

/-- The statements and pseudo-statements of the host syntax (R107, R108). `t`, `tL`, `tw` are host
variables. SETCODE takes one word and at most seven more. -/
inductive Stmt where
  | wr (r : RegName) (v : Word)
  | rd (r : RegName) (t : Nat)
  | cmd (i : Instr)
  | wait
  | memw (a : Nat) (bytes : List Byte)
  | memr (a n t : Nat)
  | run (i : Instr)
  | setbuf (src srcLen dst dstCap : Word)
  | setcode (sym : Symbol) (len w0 : Word) (more : List Word)
  | getcode (sym : Symbol) (tL tw : Nat)
  | setfreq (sym : Symbol) (n : Word)
  deriving DecidableEq, Repr

end Sys2Proof.Machine
end

