-- ==== Sys2Proof/Decode.lean ====
section
/-! DEFINITION. The command decoder, total on every 32-bit word, and the encoder (spec 30_encoding R100 to R106). -/

namespace Sys2Proof

/-- What the decoder answers: `Command | Illegal(w)` (R106). -/
inductive Decoded where
  | command (i : Instr)
  | illegal (w : Word)
  deriving DecidableEq, Repr

/-- The OP field, bits 7:0 (R100). -/
def opField (w : Word) : BitVec 8 := w.extractLsb' 0 8

/-- The RSV field, bits 31:8 (R100). -/
def rsvField (w : Word) : BitVec 24 := w.extractLsb' 8 24

/-- The opcode map (R103): OP values 0x08 to 0xFF are reserved (R105). -/
def commandOfOp (op : BitVec 8) : Option Instr :=
  match op.toNat with
  | 0x00 => some .nop
  | 0x01 => some .clear
  | 0x02 => some .analyze
  | 0x03 => some .buildTree
  | 0x04 => some .genCodes
  | 0x05 => some .pack
  | 0x06 => some .unpack
  | 0x07 => some .compress
  | _ => none

/-- The decode function (R106). -/
def decode (w : Word) : Decoded :=
  if rsvField w = 0 then
    match commandOfOp (opField w) with
    | some i => .command i
    | none => .illegal w
  else .illegal w

/-- The OP value of a command (R103). -/
def opOf : Instr → BitVec 8
  | .nop => 0x00
  | .clear => 0x01
  | .analyze => 0x02
  | .buildTree => 0x03
  | .genCodes => 0x04
  | .pack => 0x05
  | .unpack => 0x06
  | .compress => 0x07

/-- The word of a command: its OP below 24 zero RSV bits (R100, R103). -/
def encode (i : Instr) : Word := (0#24) ++ opOf i

/-- The command a decoded word stands for, if it is one. -/
def Decoded.command? : Decoded → Option Instr
  | .command i => some i
  | .illegal _ => none

/-- The 32-bit command word whose low `nbits` bits are `w`, the bits above them 0. A command is one
32-bit word presented whole to CMD (R100, R101), so there is no byte order to lay out. -/
def tableWord (nbits w : Nat) : Word := (BitVec.ofNat nbits w).setWidth 32

/-- The command the decoder reads from the opcode table's bits. -/
def decodeTableWord (nbits w : Nat) : Option Instr := (decode (tableWord nbits w)).command?

end Sys2Proof
end

