-- ==== Sys2Proof/Config.lean ====
section
/-! DEFINITION. What a launch or an implementation fixes, and the free values: the values the spec leaves unspecified. -/

namespace Sys2Proof

/-- DESIGN CHOICE (notes/assumptions/2.md), unsafe: the DMEM size of `State.reset`. The spec leaves
DMEM_SIZE open, 1 to 2^32 (R7, R8); 4096 is what its test vectors take. A claim about every state is
a claim about every size. -/
def Config.launchDmemSize : Nat := 4096

/-- The free word of the `n`-th draw: a register read the spec leaves unspecified while BUSY = 1 (R57).
It has no body: nothing can be proved of its value (notes/assumptions/1.md), safe. -/
opaque Config.freeWord : Nat → Word

/-- The free byte of the `n`-th draw: a DMEM byte the spec leaves unspecified (R99, R251). It has no
body (notes/assumptions/1.md), safe. -/
opaque Config.freeByte : Nat → Byte

/-- The free arena of the `n`-th draw: the NODE records the spec leaves unspecified (R45, R131, R250).
It has no body (notes/assumptions/1.md), safe. -/
opaque Config.freeArena : Nat → Machine.Arena

end Sys2Proof
end

