-- ==== Sys2Proof/Machine/Memory.lean ====
section
/-! DEFINITION. DMEM as a canonical list of (address, byte) pairs: reading and writing a byte, and byte ranges (spec 20_memory R80 to R84). -/

namespace Sys2Proof.Machine

/-- DMEM: the bytes that differ from `unlistedByte`, by rising address. -/
abbrev Memory := List Host.Cell

/-- DESIGN CHOICE (notes/assumptions/3.md), unsafe: what an unlisted address reads as. The contents of
DMEM at launch are a launch argument (R8), so every contents is some list. -/
def unlistedByte : Byte := 0

/-- The canonical form: addresses strictly rising, no entry equal to `unlistedByte`. -/
def Memory.wf : Memory → Bool
  | [] => true
  | [(_, v)] => v != unlistedByte
  | (k, v) :: (k', v') :: m => v != unlistedByte && decide (k < k') && Memory.wf ((k', v') :: m)

/-- `MemRead(a, 1)` (R12, R84). -/
def Memory.read : Memory → Nat → Byte
  | [], _ => unlistedByte
  | (k, v) :: m, a => if a = k then v else Memory.read m a

/-- `MemWrite(a, 1, v)` (R12, R84), keeping the canonical form. -/
def Memory.write : Memory → Nat → Byte → Memory
  | [], a, v => if v = unlistedByte then [] else [(a, v)]
  | (k, x) :: m, a, v =>
    if a < k then (if v = unlistedByte then (k, x) :: m else (a, v) :: (k, x) :: m)
    else if a = k then (if v = unlistedByte then m else (a, v) :: m)
    else (k, x) :: Memory.write m a v

/-- The `n` bytes from `a` on, in ascending address order. -/
def Memory.readRange (m : Memory) (a n : Nat) : List Byte :=
  (List.range n).map fun i => Memory.read m (a + i)

/-- Writes the bytes at `a`, `a + 1`, and so on. -/
def Memory.writeRange : Memory → Nat → List Byte → Memory
  | m, _, [] => m
  | m, a, b :: bs => Memory.writeRange (Memory.write m a b) (a + 1) bs

end Sys2Proof.Machine
end

