-- ==== Sys2Proof/Machine/Tables.lean ====
section
/-! DEFINITION. Tables indexed by a symbol or by a number: building one, reading an entry, writing an entry, and the symbols in order. -/

namespace Sys2Proof.Machine

/-- The table of `n` entries whose entry `i` is `g i`. -/
def tabulate {α : Type} (n : Nat) (g : Nat → α) : Vector α n :=
  ⟨⟨(List.range n).map g⟩, by simp⟩

/-- The table whose entry for symbol `s` is `f s`. -/
def symTable {α : Type} (f : Symbol → α) : Vector α 256 :=
  tabulate 256 fun i => f (BitVec.ofNat 8 i)

/-- The entry of symbol `s`: FREQ[s], CT[s]. -/
def lookup {α : Type} (t : Vector α 256) (s : Symbol) : α := t[s.toNat]'s.isLt

/-- The table with the entry of `s` replaced: `T[s] <- v`. -/
def assign {α : Type} (t : Vector α 256) (s : Symbol) (v : α) : Vector α 256 :=
  t.set s.toNat v s.isLt

/-- NODE[i]; an index past the arena, which no built tree holds, reads as the default record. -/
def nodeAt (a : Arena) (i : Nat) : Node := (a[i]?).getD default

/-- The 256 symbols in ascending order: `for s in [0, 256)` (R12). -/
def allSymbols : List Symbol := (List.range 256).map (BitVec.ofNat 8)

/-- The symbols with their entries, in ascending order: one pass over the table (`entries_eq_map_lookup`
in Laws/Tables.lean says that the entry of `s` is `lookup t s`). -/
def entries {α : Type} (t : Vector α 256) : List (Symbol × α) := allSymbols.zip t.toList

/-- The alphabet `{ s : FREQ[s] != 0 }` with its counts, in ascending order (R14). -/
def alphabet (f : FreqTable) : List (Symbol × Word) := (entries f).filter fun p => p.2 != 0

/-- The symbols that have a code, with their entries, in ascending order (R50). -/
def codedSymbols (ct : CodeTable) : List (Symbol × CodeEntry) :=
  (entries ct).filter fun p => p.2.len != 0

/-- Every count 0 (R131, R250). -/
def zeroFreq : FreqTable := Vector.replicate 256 0

/-- The entry "no code". -/
def noCode : CodeEntry := { len := 0, bits := 0 }

/-- No symbol has a code (R131, R250). -/
def emptyCodes : CodeTable := Vector.replicate 256 noCode

end Sys2Proof.Machine
end

