-- ==== Sys2Proof/Machine/State.lean ====
section
/-! DEFINITION. The state of FZ-HC, its HOST and the schedule, as plain data; the reasons a step can stop; and the state after reset (spec 10_state, 70_reset_and_hazards R250). -/

namespace Sys2Proof.Machine

/-- Why a step stops with a fault of the run (R127). A command error is no fault: it is a next state. -/
inductive Fault where
  /-- `BadRegAccess` (R85): raised by a host register access that is not 32 bits wide at a multiple of 4. Safe. -/
  | badRegAccess
  /-- `HostRangeConflict` (R99): raised by a host DMEM write into an active range of the running command. Safe. -/
  | hostRangeConflict
  /-- DEDUCED from R81 (notes/assumptions/8.md): raised by a host DMEM access at or past DMEM_SIZE, which names no byte. Safe. -/
  | hostNoSuchByte
  deriving DecidableEq, Repr

/-- Why a step is refused. -/
inductive Refusal where
  /-- An instruction without a meaning; raised only by an arm of `exec`, and no arm raises it now. Safe. -/
  | notModelled (mnemonic : String)
  deriving DecidableEq, Repr

/-- Everything the spec gives the machine, and its HOST. STATUS.BUSY is `pending` seen as a bit (R58),
STATUS.ERRF is `err` seen as a bit (R30); NSYM, NCODE, IRQ, ID and VERSION have no storage. -/
structure State where
  /-- PENDING, the accepted command word while BUSY = 1 (R58). -/
  pending   : Option Word
  /-- CTRL.IRQ_EN (R26). -/
  irqEn     : Bool
  /-- STATUS.DONE (R29). -/
  done      : Bool
  /-- STATUS.CMD_OVR (R31). -/
  cmdOvr    : Bool
  /-- STATUS.WR_IGN (R32). -/
  wrIgn     : Bool
  /-- STATUS.TREE_VALID (R33). -/
  treeValid : Bool
  /-- STATUS.ERR (R34). -/
  err       : ErrCode
  /-- ERR_INFO (R39). -/
  errInfo   : Word
  /-- SRC_ADDR (R36). -/
  srcAddr   : Word
  /-- SRC_LEN (R36). -/
  srcLen    : Word
  /-- DST_ADDR (R36). -/
  dstAddr   : Word
  /-- DST_CAP (R36). -/
  dstCap    : Word
  /-- OUT_LEN (R37). -/
  outLen    : Word
  /-- PAD[2:0] (R38). -/
  pad       : BitVec 3
  /-- FREQ (R40). -/
  freq      : FreqTable
  /-- FQ_SEL[7:0] (R42). -/
  fqSel     : Symbol
  /-- NODE (R45). -/
  arena     : Arena
  /-- ROOT[8:0] (R44). -/
  root      : NodeIdx
  /-- NODE_COUNT[8:0] (R44). -/
  nodeCount : BitVec 9
  /-- NODE_SEL[8:0] (R46). -/
  nodeSel   : NodeIdx
  /-- CT (R50). -/
  codes     : CodeTable
  /-- CT_SEL[7:0] (R53). -/
  ctSel     : Symbol
  /-- DMEM (R80). -/
  dmem      : Memory
  /-- DMEM_SIZE, a launch argument that no step changes (R8). -/
  dmemSize  : Nat
  /-- What the HOST still does, in its program order (R94, R107). -/
  hostProg  : List HostOp
  /-- What the HOST has read, as (host variable, value), newest first (R107). -/
  hostLog   : List (Nat × Word)
  /-- Who moves in the steps to come; the interleaving (R126). -/
  sched     : List Turn
  /-- The model's own counter of free values drawn; DESIGN CHOICE (notes/assumptions/1.md), safe. -/
  draws     : Nat
  deriving DecidableEq, Repr

/-- The outcome of a step of this machine. -/
abbrev Result := Host.Outcome State Fault Refusal

/-- The block after reset, with the launch arguments DMEM_SIZE and the contents of DMEM (R8, R250). The
NODE records, which no read can see, are a named value: DESIGN CHOICE
(notes/assumptions/4.md), unsafe. -/
def State.launch (size : Nat) (contents : Memory) : State where
  pending := none
  irqEn := false
  done := false
  cmdOvr := false
  wrIgn := false
  treeValid := false
  err := .noError
  errInfo := 0
  srcAddr := 0
  srcLen := 0
  dstAddr := 0
  dstCap := 0
  outLen := 0
  pad := 0
  freq := zeroFreq
  fqSel := 0
  arena := Vector.replicate 511 { kind := .leaf, sym := 0, weight := 0, left := 0, right := 0 }
  root := 0
  nodeCount := 0
  nodeSel := 0
  codes := emptyCodes
  ctSel := 0
  dmem := contents
  dmemSize := size
  hostProg := []
  hostLog := []
  sched := []
  draws := 0

/-- The machine right after reset (R250), launched with the size of `Config.launchDmemSize` and no
listed byte. -/
def State.reset : State := State.launch Config.launchDmemSize []

end Sys2Proof.Machine
end

