-- ==== Sys2Proof/Machine/Flags.lean ====
section
/-! DEFINITION. The STATUS fields, the STATUS word and its write-one-to-clear rule, and the interrupt output (spec 10_state R26 to R34, R59; 60_exceptions R220, R225). -/

namespace Sys2Proof.Machine

/-- STATUS.BUSY: a command is accepted and not completed (R28, R58, R120); a view of
`pending` (DEDUCED, notes/assumptions/17.md), safe. -/
def State.busy (s : State) : Bool := s.pending.isSome

/-- The 8-bit value of an error code (R220). -/
def ErrCode.value : ErrCode → BitVec 8
  | .noError => 0x00
  | .illegalCmd => 0x01
  | .addrRange => 0x02
  | .overlap => 0x03
  | .emptyTable => 0x04
  | .weightOvf => 0x05
  | .noTree => 0x06
  | .missingCode => 0x07
  | .dstOverflow => 0x08
  | .incompleteCode => 0x09
  | .badPadding => 0x0A
  | .tableConflict => 0x0B

/-- STATUS.ERRF: `ERR != 0` (R30). -/
def State.errf (s : State) : Bool := s.err.value != 0

/-- One bit as a word of width 1. -/
def bit (b : Bool) : BitVec 1 := BitVec.ofBool b

/-- The STATUS register as it reads (R27), from bit 31 down: reserved, ERR, reserved, TREE_VALID,
WR_IGN, CMD_OVR, ERRF, DONE, BUSY. -/
def State.statusWord (s : State) : Word :=
  0#16 ++ s.err.value ++ 0#2 ++ bit s.treeValid ++ bit s.wrIgn ++ bit s.cmdOvr ++ bit s.errf
    ++ bit s.done ++ bit s.busy

/-- A STATUS write: a 1 in bit 1, 3 or 4 clears DONE, CMD_OVR or WR_IGN; nothing else has an effect (R27). -/
def State.clearStatus (s : State) (v : Word) : State :=
  { s with
    done := s.done && !v.getLsbD 1
    cmdOvr := s.cmdOvr && !v.getLsbD 3
    wrIgn := s.wrIgn && !v.getLsbD 4 }

/-- The interrupt output: `IRQ_EN AND DONE` (R59, R225). -/
def State.irq (s : State) : Bool := s.irqEn && s.done

end Sys2Proof.Machine
end

