-- ==== Sys2Proof/Machine/Ops.lean ====
section
/-! DEFINITION. The named operations on the state: accepting and completing a command, raising an error, storing results, drawing free values, and hardware reset (spec 40_command_model R121 to R124; 60_exceptions R221, R224; 70_reset_and_hazards R250, R251). -/

namespace Sys2Proof.Machine

/-- Acceptance of the command word `w` (R121): the counterpart of the return from an exception too,
since it is what clears ERR and ERR_INFO (R224; FZ-HC has no return instruction). -/
def State.accept (s : State) (w : Word) : State :=
  { s with pending := some w, done := false, err := .noError, errInfo := 0 }

/-- The end of a command (R124): PENDING, BUSY, DONE, and the code and detail word it ends with. -/
def State.finish (s : State) (code : ErrCode) (info : Word) : State :=
  { s with pending := none, done := true, err := code, errInfo := info }

/-- `complete()` (R12, R124): the command ends successfully in the state that holds its writes. -/
def complete (s : State) : Result := .next (s.finish .noError 0)

/-- `raise E(info)` (R12, R124, R221): taking a command error. Nothing but ERR, ERR_INFO, BUSY and DONE
changes. -/
def raise (e : CmdError) (s : State) : Result := .next (s.finish e.code e.info)

/-- `FREQ[s] <- f[s]` for every symbol. -/
def State.setFreq (s : State) (f : FreqTable) : State := { s with freq := f }

/-- `CT[s] <- t[s]` for every symbol. -/
def State.setCodes (s : State) (t : CodeTable) : State := { s with codes := t }

/-- The writes of a built tree (R150): the records, NODE_COUNT, ROOT and TREE_VALID. The records past
NODE_COUNT are unspecified and unobservable (R45, R47): free values. DESIGN CHOICE
(notes/assumptions/14.md), safe. -/
def State.storeTree (s : State) (t : Tree) : State :=
  { s with
    arena := tabulate 511 fun i => (t.nodes[i]?).getD (nodeAt (Config.freeArena s.draws) i)
    nodeCount := BitVec.ofNat 9 t.nodes.length
    root := BitVec.ofNat 9 t.root
    treeValid := true
    draws := s.draws + 1 }

/-- Discarding the tree (R131, R210): TREE_VALID, NODE_COUNT and ROOT become 0, and the records are
"not specified": free values. DESIGN CHOICE (notes/assumptions/14.md), safe. -/
def State.dropTree (s : State) : State :=
  { s with
    arena := Config.freeArena s.draws
    nodeCount := 0
    root := 0
    treeValid := false
    draws := s.draws + 1 }

/-- The empty tables that CLEAR and an empty COMPRESS leave (R131, R210). -/
def State.clearTables (s : State) : State := ((s.setFreq zeroFreq).setCodes emptyCodes).dropTree

/-- The output of PACK, UNPACK and COMPRESS (R89): the bytes at DST_ADDR on, OUT_LEN and PAD. -/
def State.deliver (s : State) (out : List Byte) (p : BitVec 3) : State :=
  { s with
    dmem := Memory.writeRange s.dmem s.dstAddr.toNat out
    outLen := BitVec.ofNat 32 out.length
    pad := p }

/-- One value read into the host variable `t` (R107). -/
def State.record (s : State) (t : Nat) (v : Word) : State := { s with hostLog := (t, v) :: s.hostLog }

/-- A host read of an unspecified register (R57): a free word goes into the host variable. -/
def State.recordFreeWord (s : State) (t : Nat) : State :=
  { s with hostLog := (t, Config.freeWord s.draws) :: s.hostLog, draws := s.draws + 1 }

/-- A host read of an unspecified DMEM byte (R99): a free byte goes into the host variable. -/
def State.recordFreeByte (s : State) (t : Nat) : State :=
  { s with
    hostLog := (t, (Config.freeByte s.draws).setWidth 32) :: s.hostLog, draws := s.draws + 1 }

/-- The value a host variable holds: the newest one read into it, so after a MEMR of several bytes (R107)
its last byte alone; `hostLog` keeps them all. DESIGN CHOICE (notes/assumptions/6.md), safe. -/
def State.hostVar (s : State) (t : Nat) : Option Word := s.hostLog.lookup t

/-- `n` bytes from `a` on, each set to a free byte, the draws numbered from `d` on (R251). -/
def scramble (m : Memory) (a n d : Nat) : Memory :=
  Memory.writeRange m a ((List.range n).map fun i => Config.freeByte (d + i))

/-- The reset values of the block (R250), with nothing said of DMEM: the HOST, the schedule and
DMEM_SIZE are not the block's and stay; the NODE records are unspecified (notes/assumptions/4.md).
That the HOST stays is DEDUCED (notes/assumptions/18.md), safe. -/
def State.resetBlock (s : State) : State :=
  { State.launch s.dmemSize s.dmem with
    arena := Config.freeArena s.draws
    hostProg := s.hostProg
    hostLog := s.hostLog
    sched := s.sched
    draws := s.draws + 1 }

/-- The word `w` in PENDING and the next turn the ENGINE's, so that the next step runs it
(DESIGN CHOICE, notes/assumptions/7.md), safe. -/
def State.placeCommand (s : State) (w : Word) : State :=
  { s with pending := some w, sched := .engine :: s.sched }

end Sys2Proof.Machine
end

