-- ==== Sys2Proof/Machine/Operands.lean ====
section
/-! DEFINITION. The operands of a command: the source and destination ranges, their checks in the order of R222, and the active ranges of the pending command (spec 20_memory R86 to R88, R99). -/

namespace Sys2Proof.Machine

/-- `valid(a, n)` (R86): no wrap, and a zero-length range is valid whatever `a` holds. -/
def rangeValid (size : Nat) (a n : Word) : Bool :=
  n == 0 || decide (a.toNat + n.toNat ≤ size)

/-- `overlap(SRC_ADDR, SRC_LEN, DST_ADDR, DST_CAP)` (R87), over unbounded integers. -/
def rangesOverlap (src srcLen dst dstCap : Word) : Bool :=
  srcLen != 0 && dstCap != 0 && decide (src.toNat < dst.toNat + dstCap.toNat)
    && decide (dst.toNat < src.toNat + srcLen.toNat)

/-- Address `x` lies in the range `[a, a + n)`. -/
def inRange (a n : Word) (x : Nat) : Bool := decide (a.toNat ≤ x) && decide (x < a.toNat + n.toNat)

/-- The DMEM bytes of the source range, in ascending address order (R140, R180, R190). -/
def State.sourceBytes (s : State) : List Byte :=
  Memory.readRange s.dmem s.srcAddr.toNat s.srcLen.toNat

/-- The range check of ANALYZE (R140): ADDR_RANGE(0) for the source range. -/
def State.sourceError (s : State) : Option CmdError :=
  if rangeValid s.dmemSize s.srcAddr s.srcLen then none else some { code := .addrRange, info := 0 }

/-- The range checks of PACK, UNPACK and COMPRESS, in order (R222): ADDR_RANGE(0), ADDR_RANGE(1), OVERLAP. -/
def State.bufferError (s : State) : Option CmdError :=
  if rangeValid s.dmemSize s.srcAddr s.srcLen then
    if rangeValid s.dmemSize s.dstAddr s.dstCap then
      if rangesOverlap s.srcAddr s.srcLen s.dstAddr s.dstCap then
        some { code := .overlap, info := 0 }
      else none
    else some { code := .addrRange, info := 1 }
  else some { code := .addrRange, info := 0 }

/-- The command that is running, if the accepted word is a legal one (R104, R123). -/
def State.running (s : State) : Option Instr := s.pending.bind fun w => (decode w).command?

/-- The command has the source range among its active ranges (R88). -/
def usesSource : Instr → Bool
  | .nop => false
  | .clear => false
  | .analyze => true
  | .buildTree => false
  | .genCodes => false
  | .pack => true
  | .unpack => true
  | .compress => true

/-- The command has the destination range among its active ranges (R88). -/
def usesDestination : Instr → Bool
  | .nop => false
  | .clear => false
  | .analyze => false
  | .buildTree => false
  | .genCodes => false
  | .pack => true
  | .unpack => true
  | .compress => true

/-- `x` lies in the source range of the running command (R99). -/
def State.inActiveSource (s : State) (x : Nat) : Bool :=
  s.running.any usesSource && inRange s.srcAddr s.srcLen x

/-- `x` lies in the destination range of the running command (R99, R251). -/
def State.inActiveDestination (s : State) (x : Nat) : Bool :=
  s.running.any usesDestination && inRange s.dstAddr s.dstCap x

/-- `x` lies in an active range of the running command (R88, R99). -/
def State.inActiveRange (s : State) (x : Nat) : Bool :=
  s.inActiveSource x || s.inActiveDestination x

/-- How many bytes of the running command's destination range exist: the bytes that a reset while busy
leaves unspecified (R251; DEDUCED, notes/assumptions/11.md), safe. -/
def State.activeDestinationBytes (s : State) : Nat :=
  if s.running.any usesDestination then min s.dstCap.toNat (s.dmemSize - s.dstAddr.toNat) else 0

/-- Hardware reset (R250, R251): the reset values; DMEM is unchanged but for the destination range of a
command that was running, whose bytes become free values. -/
def State.hardReset (s : State) : State :=
  let n := s.activeDestinationBytes
  let s' := s.resetBlock
  { s' with dmem := scramble s.dmem s.dstAddr.toNat n s.draws, draws := s.draws + n + 1 }

end Sys2Proof.Machine
end

