-- ==== Sys2Proof/Machine/Analyzer.lean ====
section
/-! DEFINITION. The frequency analyzer, ANALYZE (spec 41_frequency_analyzer R140 to R142). -/

namespace Sys2Proof.Machine

/-- The array `f` of R140: how often each symbol occurs in `bytes`. No count is truncated (R141). -/
def frequencies (bytes : List Byte) : FreqTable :=
  symTable fun s => BitVec.ofNat 32 (bytes.count s)

/-- ANALYZE (R140). -/
def execAnalyze (s : State) : Result :=
  match s.sourceError with
  | some e => raise e s
  | none => complete (s.setFreq (frequencies s.sourceBytes))

end Sys2Proof.Machine
end

