-- ==== Sys2Proof/Machine/Bits.lean ====
section
/-! DEFINITION. Bit-strings: their reading as numbers, bytes and left-aligned code storage (spec 00_scope R10, R11; 10_state R51; 20_memory R82), and saturation (92 D43). -/

namespace Sys2Proof.Machine

/-- The number a bit-string spells, first bit most significant. -/
def natOfBits (c : Bits) : Nat := c.foldl (fun n b => 2 * n + b.toNat) 0

/-- `bits8(x)`: the 8-bit string of a byte, most significant bit first (R11). -/
def bits8 (x : Byte) : Bits := (List.range 8).map fun j => x.getMsbD j

/-- `byte8(c)`: the byte of an 8-bit string, its first bit bit 7 (R11). -/
def byte8 (c : Bits) : Byte := BitVec.ofNat 8 (natOfBits c)

/-- The groups of 8 bits as bytes, in order (R82); a rest of fewer than 8 bits, which a padded
bit-string does not leave, gives no byte. -/
def bytesOfBits : Bits → List Byte
  | b0 :: b1 :: b2 :: b3 :: b4 :: b5 :: b6 :: b7 :: rest =>
    byte8 [b0, b1, b2, b3, b4, b5, b6, b7] :: bytesOfBits rest
  | _ => []

/-- The bits of a byte sequence, each byte most significant bit first (R82). -/
def bitsOfBytes (bytes : List Byte) : Bits := bytes.flatMap bits8

/-- `c ++ zeros(256 - len(c))` as the 256 stored bits (R51, R170). -/
def leftAlign (c : Bits) : BitVec 256 := BitVec.ofNat 256 (natOfBits c * 2 ^ (256 - c.length))

/-- The code entry that stores the code `c` (R51, R170). -/
def CodeEntry.ofBits (c : Bits) : CodeEntry :=
  { len := BitVec.ofNat 8 c.length, bits := leftAlign c }

/-- `CT[s].bits[0 .. CT[s].len)` (R51): the code an entry holds. -/
def CodeEntry.code (e : CodeEntry) : Bits := (List.range e.len.toNat).map fun j => e.bits.getMsbD j

/-- Word k of an entry's stored bits: CT_BITSk (R51). -/
def CodeEntry.word (e : CodeEntry) (k : BitVec 3) : Word :=
  e.bits.extractLsb' (224 - 32 * k.toNat) 32

/-- The entry with word k replaced; the length is not changed (R55). -/
def CodeEntry.setWord (e : CodeEntry) (k : BitVec 3) (v : Word) : CodeEntry :=
  let sh := 224 - 32 * k.toNat
  { e with bits := (e.bits &&& ~~~((BitVec.allOnes 32).setWidth 256 <<< sh)) ||| (v.setWidth 256 <<< sh) }

/-- The padding count for `total` bits: `(8 - (total mod 8)) mod 8` (R180, R183). -/
def padCount (total : Nat) : Nat := (8 - total % 8) % 8

/-- `min(n, 2^32 - 1)` as a word (R180, R190, D43). -/
def saturate (n : Nat) : Word := BitVec.ofNat 32 (min n (2 ^ 32 - 1))

end Sys2Proof.Machine
end

