-- ==== Sys2Proof/Machine/CodeGenerator.lean ====
section
/-! DEFINITION. The code-table generator, GEN_CODES: the left-first walk of the tree (spec 43_code_table_generator R170, R171). -/

namespace Sys2Proof.Machine

/-- The (symbol, code) pairs in the order the walk reaches the leaves below node `i`, `c` being the path
to it: a left child appends "0", a right child "1" (R171). `fuel` bounds the depth; no path of a tree
is longer than its 511 nodes (DEDUCED, notes/assumptions/12.md), safe. -/
def walk (node : Nat → Node) : (fuel : Nat) → (i : Nat) → (c : Bits) → List (Symbol × Bits)
  | 0, _, _ => []
  | fuel + 1, i, c =>
    match (node i).kind with
    | .leaf => [((node i).sym, c)]
    | .internal =>
      walk node fuel (node i).left.toNat (c ++ [false])
        ++ walk node fuel (node i).right.toNat (c ++ [true])

/-- The assignments of R170: a root that is itself a leaf gets the code "0" without a walk (R171). -/
def codeAssignments (node : Nat → Node) (root : Nat) : List (Symbol × Bits) :=
  match (node root).kind with
  | .leaf => [((node root).sym, [false])]
  | .internal => walk node 511 root []

/-- The table `t` of R170: every entry "no code" but those assigned. -/
def codeTable (node : Nat → Node) (root : Nat) : CodeTable :=
  (codeAssignments node root).foldl (fun t p => assign t p.1 (CodeEntry.ofBits p.2)) emptyCodes

/-- GEN_CODES (R170). -/
def execGenCodes (s : State) : Result :=
  if s.treeValid then complete (s.setCodes (codeTable (nodeAt s.arena) s.root.toNat))
  else raise { code := .noTree, info := 0 } s

end Sys2Proof.Machine
end

