-- ==== Sys2Proof/Machine/Packer.lean ====
section
/-! DEFINITION. The bit packer, PACK (spec 44_bit_packer R180 to R183). -/

namespace Sys2Proof.Machine

/-- `code(s)` (R51). -/
def codeOf (ct : CodeTable) (s : Symbol) : Bits := (lookup ct s).code

/-- The codes of the bytes, concatenated in sequence order: step (b) of R180. -/
def payload (ct : CodeTable) (bytes : List Byte) : Bits := bytes.flatMap (codeOf ct)

/-- The padding count of a payload: step (c) of R180. -/
def padOf (bs : Bits) : BitVec 3 := BitVec.ofNat 3 (padCount bs.length)

/-- The packed representation (R180): the padding byte, then the padded payload as bytes. -/
def packedBytes (bs : Bits) : List Byte :=
  (padOf bs).setWidth 8 :: bytesOfBits (bs ++ List.replicate (padCount bs.length) false)

/-- The offset of the first byte with no code (R182). -/
def firstMissing (ct : CodeTable) (bytes : List Byte) : Option Nat :=
  bytes.findIdx? fun b => (lookup ct b).len == 0

/-- Packing `bytes` with the table `ct` into at most `cap` bytes: the packed bytes and the padding
count, or MISSING_CODE, then DST_OVERFLOW (R180). -/
def packWith (ct : CodeTable) (bytes : List Byte) (cap : Word) :
    Except CmdError (List Byte × BitVec 3) :=
  match firstMissing ct bytes with
  | some i => .error { code := .missingCode, info := BitVec.ofNat 32 i }
  | none =>
    let bs := payload ct bytes
    let out := packedBytes bs
    if out.length > cap.toNat then .error { code := .dstOverflow, info := saturate out.length }
    else .ok (out, padOf bs)

/-- PACK (R180); an empty source packs to no byte at all (R181). -/
def execPack (s : State) : Result :=
  match s.bufferError with
  | some e => raise e s
  | none =>
    if s.srcLen = 0 then complete (s.deliver [] 0)
    else
      match packWith s.codes s.sourceBytes s.dstCap with
      | .error e => raise e s
      | .ok (out, p) => complete (s.deliver out p)

end Sys2Proof.Machine
end

