-- ==== Sys2Proof/Machine/TreeBuilder.lean ====
section
/-! DEFINITION. The tree builder, BUILD_TREE: least-weight pair merging with a priority queue (spec 42_tree_builder R150 to R153). -/

namespace Sys2Proof.Machine

/-- An element of the priority queue: (weight, arena index) (R150). -/
abbrev QEntry := Nat × Nat

/-- The lexicographic order on (weight, index): `a` is extracted before `b` (R150, R152). -/
def QEntry.before (a b : QEntry) : Bool := a.1 < b.1 || (a.1 == b.1 && a.2 < b.2)

/-- Adds an element to the queue. The queue is kept in ascending order, so `min_lex` is its head
(DEDUCED, notes/assumptions/13.md), safe. -/
def enqueue (e : QEntry) : List QEntry → List QEntry
  | [] => [e]
  | x :: q => if QEntry.before x e then x :: enqueue e q else e :: x :: q

/-- The leaves, in ascending symbol order (R150, R153). -/
def leaves (f : FreqTable) : List Node :=
  (alphabet f).map fun p => { kind := .leaf, sym := p.1, weight := p.2, left := 0, right := 0 }

/-- `sum over s of FREQ[s]`, unbounded (R151). -/
def weightSum (f : FreqTable) : Nat := (f.toList.map BitVec.toNat).sum

/-- The queue of the leaves: `{ (nd[i].weight, i) : i in [0, n) }` (R150). -/
def leafQueue (ls : List Node) : List QEntry :=
  (ls.zipIdx.map fun p => (p.1.weight.toNat, p.2)).foldr enqueue []

/-- The internal node that merges two extracted elements: the first becomes the left child, the second
the right child (R152). -/
def mergeNode (a b : QEntry) : Node :=
  { kind := .internal
    sym := 0
    weight := BitVec.ofNat 32 (a.1 + b.1)
    left := BitVec.ofNat 9 a.2
    right := BitVec.ofNat 9 b.2 }

/-- The loop `while |Q| >= 2` (R150): the internal nodes it creates, in order, and the index of the
last element of the queue. Each turn makes the queue one shorter, so `fuel = |Q|` is enough. -/
def merge : (fuel : Nat) → (q : List QEntry) → (next : Nat) → List Node × Nat
  | fuel + 1, a :: b :: q, next =>
    let r := merge fuel (enqueue (a.1 + b.1, next) q) (next + 1)
    (mergeNode a b :: r.1, r.2)
  | _, [e], _ => ([], e.2)
  | _, _, _ => ([], 0)

/-- The tree of a frequency table, or the error of R151: EMPTY_TABLE, then WEIGHT_OVF. -/
def buildTree (f : FreqTable) : Except CmdError Tree :=
  let ls := leaves f
  if ls.length = 0 then .error { code := .emptyTable, info := 0 }
  else if weightSum f > 2 ^ 32 - 1 then .error { code := .weightOvf, info := 0 }
  else
    let r := merge ls.length (leafQueue ls) ls.length
    .ok { nodes := ls ++ r.1, root := r.2 }

/-- BUILD_TREE (R150). -/
def execBuildTree (s : State) : Result :=
  match buildTree s.freq with
  | .error e => raise e s
  | .ok t => complete (s.storeTree t)

end Sys2Proof.Machine
end

