-- ==== Sys2Proof/Machine/Composite.lean ====
section
/-! DEFINITION. The composite command COMPRESS: ANALYZE, BUILD_TREE, GEN_CODES and PACK as one (spec 46_compress R210 to R212). -/

namespace Sys2Proof.Machine

/-- What a COMPRESS of a non-empty source computes (R210). -/
structure Compressed where
  freq  : FreqTable
  tree  : Tree
  codes : CodeTable
  out   : List Byte
  pad   : BitVec 3
  deriving DecidableEq, Repr

/-- NODE[i] of a built tree. -/
def Tree.node (t : Tree) (i : Nat) : Node := (t.nodes[i]?).getD default

/-- The composition 1 → 2 → 3 → 4 on the source bytes (R210). The prior tables are not read. The errors
of the tree builder and MISSING_CODE cannot occur (R212). -/
def compressWith (bytes : List Byte) (cap : Word) : Except CmdError Compressed :=
  let f := frequencies bytes
  match buildTree f with
  | .error e => .error e
  | .ok t =>
    let ct := codeTable t.node t.root
    match packWith ct bytes cap with
    | .error e => .error e
    | .ok (out, p) => .ok { freq := f, tree := t, codes := ct, out := out, pad := p }

/-- COMPRESS (R210); an empty source empties the tables (R211). -/
def execCompress (s : State) : Result :=
  match s.bufferError with
  | some e => raise e s
  | none =>
    if s.srcLen = 0 then complete ((s.clearTables).deliver [] 0)
    else
      match compressWith s.sourceBytes s.dstCap with
      | .error e => raise e s
      | .ok r => complete ((((s.setFreq r.freq).storeTree r.tree).setCodes r.codes).deliver r.out r.pad)

end Sys2Proof.Machine
end

