-- ==== Sys2Proof/Machine/Control.lean ====
section
/-! DEFINITION. The commands NOP and CLEAR (spec 40_command_model R130, R131). -/

namespace Sys2Proof.Machine

/-- NOP (R130): `complete()`. -/
def execNop (s : State) : Result := complete s

/-- CLEAR (R131): the tables empty, the tree discarded, OUT_LEN and PAD 0. -/
def execClear (s : State) : Result := complete ((s.clearTables).deliver [] 0)

end Sys2Proof.Machine
end

