-- ==== Sys2Proof/Machine/Unpacker.lean ====
section
/-! DEFINITION. The bit unpacker, UNPACK: greedy decoding by the inverse lookup in CT (spec 45_bit_unpacker R190 to R197). -/

namespace Sys2Proof.Machine

/-- The symbols that have a code, with their codes, in ascending symbol order: what the inverse lookup
of R192 ranges over. -/
def codeBook (ct : CodeTable) : List (Symbol × Bits) :=
  (codedSymbols ct).map fun p => (p.1, p.2.code)

/-- `conflict(CT)` (R193): the least pair of distinct symbols that share a code. -/
def conflictIn : List (Symbol × Bits) → Option (Symbol × Symbol)
  | [] => none
  | p :: rest =>
    match rest.find? fun q => q.2 == p.2 with
    | some q => some (p.1, q.1)
    | none => conflictIn rest

/-- `match(c)` (R192): the symbol whose code is `c`. -/
def matchCode (book : List (Symbol × Bits)) (c : Bits) : Option Symbol :=
  (book.find? fun p => p.2 == c).map Prod.fst

/-- The walk of step (d) of R190 (R194): the symbols emitted and the candidate left over, from the
candidate `cand` on. -/
def greedy (book : List (Symbol × Bits)) : (cand : Bits) → Bits → List Byte × Bits
  | cand, [] => ([], cand)
  | cand, b :: bs =>
    match matchCode book (cand ++ [b]) with
    | some s =>
      let r := greedy book [] bs
      (s :: r.1, r.2)
    | none => greedy book (cand ++ [b]) bs

/-- Unpacking a non-empty packed sequence `p :: body` (R190): the bytes and the padding count, or the
first error of R222: BAD_PADDING, TABLE_CONFLICT, INCOMPLETE_CODE, DST_OVERFLOW. -/
def unpackWith (ct : CodeTable) (p : Byte) (body : List Byte) (cap : Word) :
    Except CmdError (List Byte × BitVec 3) :=
  let nb := 8 * body.length
  if p.toNat > 7 ∨ p.toNat > nb then .error { code := .badPadding, info := p.setWidth 32 }
  else
    match conflictIn (codeBook ct) with
    | some (s, t) =>
      .error { code := .tableConflict, info := BitVec.ofNat 32 (s.toNat + 256 * t.toNat) }
    | none =>
      let r := greedy (codeBook ct) [] ((bitsOfBytes body).take (nb - p.toNat))
      if r.2 ≠ [] then .error { code := .incompleteCode, info := saturate r.2.length }
      else if r.1.length > cap.toNat then
        .error { code := .dstOverflow, info := saturate r.1.length }
      else .ok (r.1, p.setWidth 3)

/-- UNPACK (R190); an empty source unpacks to no byte, whatever CT holds. -/
def execUnpack (s : State) : Result :=
  match s.bufferError with
  | some e => raise e s
  | none =>
    match s.sourceBytes with
    | [] => complete (s.deliver [] 0)
    | p :: body =>
      match unpackWith s.codes p body s.dstCap with
      | .error e => raise e s
      | .ok (out, pad) => complete (s.deliver out pad)

end Sys2Proof.Machine
end

