-- ==== Sys2Proof/Machine/Registers.lean ====
section
/-! DEFINITION. The register window: the register map, what a register reads as, and what a host write does (spec 10_state R23 to R57). -/

namespace Sys2Proof.Machine

/-- The offset of a register (R23). -/
def RegName.offset : RegName → BitVec 8
  | .id => 0x00
  | .version => 0x04
  | .ctrl => 0x08
  | .status => 0x0C
  | .cmd => 0x10
  | .srcAddr => 0x14
  | .srcLen => 0x18
  | .dstAddr => 0x1C
  | .dstCap => 0x20
  | .outLen => 0x24
  | .pad => 0x28
  | .errInfo => 0x2C
  | .nsym => 0x30
  | .ncode => 0x34
  | .root => 0x38
  | .nodeCount => 0x3C
  | .fqSel => 0x40
  | .fqData => 0x44
  | .nodeSel => 0x48
  | .nodeInfo => 0x4C
  | .nodeWeight => 0x50
  | .nodeChild => 0x54
  | .ctSel => 0x58
  | .ctLen => 0x5C
  | .ctBits k => 0x60 + 4 * k.setWidth 8
  | .reserved k => 0x80 + 4 * k.setWidth 8

/-- The register at a multiple of 4 (R23): the 64 words of the window in order. -/
def RegName.ofOffset (off : BitVec 8) : RegName :=
  match off.toNat / 4 with
  | 0 => .id
  | 1 => .version
  | 2 => .ctrl
  | 3 => .status
  | 4 => .cmd
  | 5 => .srcAddr
  | 6 => .srcLen
  | 7 => .dstAddr
  | 8 => .dstCap
  | 9 => .outLen
  | 10 => .pad
  | 11 => .errInfo
  | 12 => .nsym
  | 13 => .ncode
  | 14 => .root
  | 15 => .nodeCount
  | 16 => .fqSel
  | 17 => .fqData
  | 18 => .nodeSel
  | 19 => .nodeInfo
  | 20 => .nodeWeight
  | 21 => .nodeChild
  | 22 => .ctSel
  | 23 => .ctLen
  | w => if w < 32 then .ctBits (BitVec.ofNat 3 (w - 24)) else .reserved (BitVec.ofNat 5 (w - 32))

/-- ID reads this constant (R24). -/
def idValue : Word := 0x48554646

/-- VERSION reads this constant (R25). -/
def versionValue : Word := 0x00000001

/-- ROOT[8:0] as it reads: 0 while TREE_VALID = 0 (R44). -/
def State.rootReg (s : State) : NodeIdx := if s.treeValid then s.root else 0

/-- NODE_COUNT[8:0] as it reads: 0 while TREE_VALID = 0 (R44). -/
def State.nodeCountReg (s : State) : BitVec 9 := if s.treeValid then s.nodeCount else 0

/-- NSYM: the number of symbols with a nonzero count, a live view of FREQ (R41). -/
def State.nsym (s : State) : Nat := (alphabet s.freq).length

/-- NCODE: the number of symbols with a code, a live view of CT (R52). -/
def State.ncode (s : State) : Nat := (codedSymbols s.codes).length

/-- The record the node windows reach, if NODE_SEL is below NODE_COUNT (R47 to R49). -/
def State.selectedNode (s : State) : Option Node :=
  if s.nodeSel.toNat < s.nodeCountReg.toNat then some (nodeAt s.arena s.nodeSel.toNat) else none

/-- NODE_INFO of a record: SYMBOL in 15:8, INTERNAL in 1, VALID in 0 (R47). -/
def nodeInfoWord (n : Node) : Word :=
  0#16 ++ n.sym ++ 0#6 ++ bit (decide (n.kind = .internal)) ++ 1#1

/-- NODE_CHILD of a record: right child in 24:16, left child in 8:0 (R49). -/
def nodeChildWord (n : Node) : Word := 0#7 ++ n.right ++ 0#7 ++ n.left

/-- The entry the CT windows reach (R53). -/
def State.selectedCode (s : State) : CodeEntry := lookup s.codes s.ctSel

/-- The defined value of a register (R23 to R55). -/
def readReg (r : RegName) (s : State) : Word :=
  match r with
  | .id => idValue
  | .version => versionValue
  | .ctrl => 0#31 ++ bit s.irqEn
  | .status => s.statusWord
  | .cmd => 0
  | .srcAddr => s.srcAddr
  | .srcLen => s.srcLen
  | .dstAddr => s.dstAddr
  | .dstCap => s.dstCap
  | .outLen => s.outLen
  | .pad => s.pad.setWidth 32
  | .errInfo => s.errInfo
  | .nsym => BitVec.ofNat 32 s.nsym
  | .ncode => BitVec.ofNat 32 s.ncode
  | .root => s.rootReg.setWidth 32
  | .nodeCount => s.nodeCountReg.setWidth 32
  | .fqSel => s.fqSel.setWidth 32
  | .fqData => lookup s.freq s.fqSel
  | .nodeSel => s.nodeSel.setWidth 32
  | .nodeInfo => (s.selectedNode.map nodeInfoWord).getD 0
  | .nodeWeight => (s.selectedNode.map Node.weight).getD 0
  | .nodeChild => (s.selectedNode.map nodeChildWord).getD 0
  | .ctSel => s.ctSel.setWidth 32
  | .ctLen => s.selectedCode.len.setWidth 32
  | .ctBits k => s.selectedCode.word k
  | .reserved _ => 0

/-- The registers whose reads are unspecified while BUSY = 1 (R57). CMD is not among them and reads 0
(R35): DEDUCED (notes/assumptions/19.md), safe. -/
def freeWhileBusy : RegName → Bool
  | .outLen | .pad | .errInfo | .nsym | .ncode | .root | .nodeCount => true
  | .fqData | .nodeInfo | .nodeWeight | .nodeChild | .ctLen | .ctBits _ => true
  | .id | .version | .ctrl | .status | .cmd => false
  | .srcAddr | .srcLen | .dstAddr | .dstCap => false
  | .fqSel | .nodeSel | .ctSel | .reserved _ => false

/-- The busy-locked registers (R23, R56). -/
def busyLocked : RegName → Bool
  | .srcAddr | .srcLen | .dstAddr | .dstCap | .fqData | .ctLen | .ctBits _ => true
  | .id | .version | .ctrl | .status | .cmd => false
  | .outLen | .pad | .errInfo | .nsym | .ncode | .root | .nodeCount => false
  | .fqSel | .nodeSel | .nodeInfo | .nodeWeight | .nodeChild | .ctSel | .reserved _ => false

/-- A host write of the entry the CT windows reach (R54, R55). -/
def State.setSelectedCode (s : State) (e : CodeEntry) : State :=
  { s with codes := assign s.codes s.ctSel e }

/-- What a host write of `v` stores when no busy lock stops it; writes of read-only and reserved
registers are ignored (R23, R26 to R56). CMD has a rule of its own (R121, R122). -/
def storeReg (r : RegName) (v : Word) (s : State) : State :=
  match r with
  | .id => s
  | .version => s
  | .ctrl => { s with irqEn := v.getLsbD 0 }
  | .status => s.clearStatus v
  | .cmd => if s.busy then { s with cmdOvr := true } else s.accept v
  | .srcAddr => { s with srcAddr := v }
  | .srcLen => { s with srcLen := v }
  | .dstAddr => { s with dstAddr := v }
  | .dstCap => { s with dstCap := v }
  | .outLen => s
  | .pad => s
  | .errInfo => s
  | .nsym => s
  | .ncode => s
  | .root => s
  | .nodeCount => s
  | .fqSel => { s with fqSel := v.setWidth 8 }
  | .fqData => s.setFreq (assign s.freq s.fqSel v)
  | .nodeSel => { s with nodeSel := v.setWidth 9 }
  | .nodeInfo => s
  | .nodeWeight => s
  | .nodeChild => s
  | .ctSel => { s with ctSel := v.setWidth 8 }
  | .ctLen => s.setSelectedCode { s.selectedCode with len := v.setWidth 8 }
  | .ctBits k => s.setSelectedCode (s.selectedCode.setWord k v)
  | .reserved _ => s

/-- A host write of `v` to a register: a busy-locked one is ignored while BUSY = 1 and sets WR_IGN (R56). -/
def writeReg (r : RegName) (v : Word) (s : State) : State :=
  if s.busy && busyLocked r then { s with wrIgn := true } else storeReg r v s

end Sys2Proof.Machine
end

