-- ==== Sys2Proof/WellFormed.lean ====
section
/-! DEFINITION. Well-formedness of commands, command words, host accesses and host statements, each a Bool. -/

namespace Sys2Proof

/-- Every command is well formed: none carries an operand that could be out of range (R102). -/
def Instr.wf : Instr → Bool
  | .nop => true
  | .clear => true
  | .analyze => true
  | .buildTree => true
  | .genCodes => true
  | .pack => true
  | .unpack => true
  | .compress => true

/-- A command word is legal when RSV = 0 and OP < 0x08: the negation of R104. -/
def wordLegal (w : Word) : Bool :=
  w.extractLsb' 8 24 == 0 && decide ((w.extractLsb' 0 8).toNat < 8)

/-- A register access is admitted when it is 32 bits wide at a multiple of 4 (R85); that no wider one is
admitted is DEDUCED (notes/assumptions/9.md), safe. -/
def regAccessWf (width : Nat) (offset : BitVec 8) : Bool :=
  width == 32 && offset.toNat % 4 == 0

/-- The form of a host access; that a DMEM address names a byte depends on the state. -/
def Machine.HostAccess.wf : Machine.HostAccess → Bool
  | .regRead width offset _ => regAccessWf width offset
  | .regWrite width offset _ => regAccessWf width offset
  | .memRead addr _ => decide (addr < 2 ^ 32)
  | .memWrite addr _ => decide (addr < 2 ^ 32)

/-- The form of a host statement (R107, R108): SETCODE has at most eight words, and DMEM addresses
are 32-bit. -/
def Machine.Stmt.wf : Machine.Stmt → Bool
  | .wr _ _ => true
  | .rd _ _ => true
  | .cmd i => i.wf
  | .wait => true
  | .memw a bytes => decide (a + bytes.length ≤ 2 ^ 32)
  | .memr a n _ => decide (a + n ≤ 2 ^ 32)
  | .run i => i.wf
  | .setbuf _ _ _ _ => true
  | .setcode _ _ _ more => decide (more.length ≤ 7)
  | .getcode _ _ _ => true
  | .setfreq _ _ => true

end Sys2Proof
end

