-- ==== Sys2Proof/Machine/HostAgent.lean ====
section
/-! DEFINITION. The HOST: its register and DMEM accesses, the polling loop WAIT, and the statements of the host syntax (spec 20_memory R85, R99; 30_encoding R107, R108; 40_command_model R126). -/

namespace Sys2Proof.Machine

/-- A host register read into the variable `t`: BadRegAccess (R85), a free word (R57), or the register. -/
def hostRegRead (width : Nat) (off : BitVec 8) (t : Nat) (s : State) : Result :=
  if regAccessWf width off then
    let r := RegName.ofOffset off
    if s.busy && freeWhileBusy r then .next (s.recordFreeWord t) else .next (s.record t (readReg r s))
  else .fault .badRegAccess

/-- A host register write: BadRegAccess (R85), or the register's own rule. -/
def hostRegWrite (width : Nat) (off : BitVec 8) (v : Word) (s : State) : Result :=
  if regAccessWf width off then .next (writeReg (RegName.ofOffset off) v s) else .fault .badRegAccess

/-- A host DMEM byte read into the variable `t` (R99): a destination byte of the running command is free
(where source and destination overlap too: DESIGN CHOICE, notes/assumptions/10.md, safe). -/
def hostMemRead (a t : Nat) (s : State) : Result :=
  if a < s.dmemSize then
    if s.inActiveDestination a then .next (s.recordFreeByte t)
    else .next (s.record t ((Memory.read s.dmem a).setWidth 32))
  else .fault .hostNoSuchByte

/-- A host DMEM byte write (R99): HostRangeConflict in an active range of the running command. -/
def hostMemWrite (a : Nat) (v : Byte) (s : State) : Result :=
  if a < s.dmemSize then
    if s.inActiveRange a then .fault .hostRangeConflict
    else .next { s with dmem := Memory.write s.dmem a v }
  else .fault .hostNoSuchByte

/-- One access of the HOST (R126). -/
def hostAccess (a : HostAccess) (s : State) : Result :=
  match a with
  | .regRead width off t => hostRegRead width off t s
  | .regWrite width off v => hostRegWrite width off v s
  | .memRead a t => hostMemRead a t s
  | .memWrite a v => hostMemWrite a v s

/-- The host variable that WAIT's own reads of STATUS go to (R107). DESIGN CHOICE (notes/assumptions/6.md),
safe. -/
def waitVar : Nat := 0

/-- The rest of the HOST's program. -/
def State.setProg (s : State) (p : List HostOp) : State := { s with hostProg := p }

/-- One poll of WAIT (R107): a read of STATUS; the loop ends when bit 0 of it is 0. -/
def hostPoll (rest : List HostOp) (s : State) : Result :=
  let s' := s.record waitVar s.statusWord
  if s.statusWord.getLsbD 0 then .next s' else .next (s'.setProg rest)

/-- The HOST's turn: the next access of its program, or one poll; nothing when the program has ended. -/
def hostTurn (s : State) : Result :=
  match s.hostProg with
  | [] => .next s
  | .access a :: rest => hostAccess a (s.setProg rest)
  | .wait :: rest => hostPoll rest s

/-- A read of register `r` into `t`, as a bus access (R107 `RD`). -/
def rdOp (r : RegName) (t : Nat) : HostOp := .access (.regRead 32 r.offset t)

/-- A write of register `r`, as a bus access (R107 `WR`). -/
def wrOp (r : RegName) (v : Word) : HostOp := .access (.regWrite 32 r.offset v)

/-- `CMD MNEMONIC` (R107): the write of the command's word to CMD. -/
def cmdOp (i : Instr) : HostOp := wrOp .cmd (encode i)

/-- The accesses of a host statement (R107, R108), in order. -/
def Stmt.ops : Stmt → List HostOp
  | .wr r v => [wrOp r v]
  | .rd r t => [rdOp r t]
  | .cmd i => [cmdOp i]
  | .wait => [.wait]
  | .memw a bytes => bytes.zipIdx.map fun p => .access (.memWrite (a + p.2) p.1)
  | .memr a n t => (List.range n).map fun k => .access (.memRead (a + k) t)
  | .run i => [cmdOp i, .wait]
  | .setbuf src srcLen dst dstCap =>
    [wrOp .srcAddr src, wrOp .srcLen srcLen, wrOp .dstAddr dst, wrOp .dstCap dstCap]
  | .setcode sym len w0 more =>
    wrOp .ctSel (sym.setWidth 32)
      :: (w0 :: more).zipIdx.map (fun p => wrOp (.ctBits (BitVec.ofNat 3 p.2)) p.1)
      ++ [wrOp .ctLen len]
  | .getcode sym tL tw => [wrOp .ctSel (sym.setWidth 32), rdOp .ctLen tL, rdOp (.ctBits 0) tw]
  | .setfreq sym n => [wrOp .fqSel (sym.setWidth 32), wrOp .fqData n]

/-- A host program: its statements in order (R107). -/
def programOps (p : List Stmt) : List HostOp := p.flatMap Stmt.ops

end Sys2Proof.Machine
end

