-- ==== Sys2Proof/Machine/Engine.lean ====
section
/-! DEFINITION. The turns of a step: the ENGINE's step, hardware reset, and whose turn it is (spec 40_command_model R123 to R126; 70_reset_and_hazards R250, R251). -/

namespace Sys2Proof.Machine

/-- The ENGINE's turn (R123, R124): it executes and completes the accepted word; an illegal word ends
with ILLEGAL_CMD and ERR_INFO = the word (R104). While IDLE it does nothing. -/
def engineTurn (s : State) : Result :=
  match s.pending with
  | none => .next s
  | some w =>
    match decode w with
    | .command i => exec i s
    | .illegal w => raise { code := .illegalCmd, info := w } s

/-- Whose turn it is: the schedule's head; when the schedule has ended, the ENGINE's while BUSY = 1
(R125), else the HOST's. DESIGN CHOICE (notes/assumptions/5.md), safe. -/
def State.nextTurn (s : State) : Turn :=
  match s.sched with
  | t :: _ => t
  | [] => if s.busy then .engine else .host

/-- The schedule without the turn that is taken now. -/
def State.dropTurn (s : State) : State := { s with sched := s.sched.tail }

/-- One turn. -/
def takeTurn (t : Turn) (s : State) : Result :=
  match t with
  | .host => hostTurn s
  | .engine => engineTurn s
  | .reset => .next s.hardReset

end Sys2Proof.Machine
end

