-- ==== Sys2Proof/Machine/Step.lean ====
section
/-! DEFINITION. One step of the machine: one turn of one agent (spec 40_command_model R126, R127), and the placing of a command where the next step runs it. -/

namespace Sys2Proof.Machine

/-- One step: the turn that is due, taken. A host fault is its outcome, and no two agents move in it:
DEDUCED (notes/assumptions/15.md, notes/assumptions/16.md), safe. -/
def step (s : State) : Host.Outcome State Fault Refusal := takeTurn s.nextTurn s.dropTurn

/-- `s` with the command word of the opcode table's bits in PENDING and the ENGINE's turn next. -/
def State.withFetchWord (s : State) (nbits w : Nat) : State := s.placeCommand (tableWord nbits w)

end Sys2Proof.Machine
end

