-- ==== Sys2Proof/Machine/Run.lean ====
section
/-! DEFINITION. A run of a host program, its end, and its final state (spec 40_command_model R127, R128). -/

namespace Sys2Proof.Machine

/-- What a run leaves (R128): "the register file, the tables, DMEM and the recorded faults". What the HOST
has read is no part of it; what `nodes` leaves out no read can see (DEDUCED, notes/assumptions/20.md), safe. -/
structure FinalState where
  /-- Every register of R23 with the value it reads. -/
  registers : List (RegName × Word)
  /-- FREQ. -/
  freq      : FreqTable
  /-- The records of NODE below NODE_COUNT. -/
  nodes     : List Node
  /-- CT. -/
  codes     : CodeTable
  /-- DMEM. -/
  dmem      : Memory
  /-- The recorded host faults (R127). -/
  faults    : List Fault
  deriving DecidableEq, Repr

/-- How far a run has come. -/
inductive RunEnd where
  /-- The run has ended, with its final state; a run that meets a host fault ends with that fault recorded. -/
  | ended (f : FinalState)
  /-- The run goes on from this state: the steps it was given are used up. -/
  | running (s : State)
  /-- A step was refused; no step of this machine is. -/
  | refused (r : Refusal)
  deriving DecidableEq, Repr

/-- The registers of R23, in the order of their offsets 0x00 to 0x7C. -/
def registerFile : List RegName :=
  (List.range 32).map fun k => RegName.ofOffset (BitVec.ofNat 8 (4 * k))

/-- The HOST has performed its last statement and BUSY = 0 (R128). -/
def State.runEnded (s : State) : Bool := s.hostProg.isEmpty && !s.busy

/-- The final state of a run that ends at `s`, with the faults it recorded (R128). -/
def State.finalState (s : State) (faults : List Fault) : FinalState where
  registers := registerFile.map fun r => (r, readReg r s)
  freq := s.freq
  nodes := (List.range s.nodeCountReg.toNat).map (nodeAt s.arena)
  codes := s.codes
  dmem := s.dmem
  faults := faults

/-- The run from `s`, for at most `fuel` steps, up to its end (R128). An access that faults has no step
(R85), so the run ends at the state before it, the fault recorded (DEDUCED, notes/assumptions/15.md), safe. -/
def runProgram : (fuel : Nat) → State → RunEnd
  | 0, s => if s.runEnded then .ended (s.finalState []) else .running s
  | fuel + 1, s =>
    if s.runEnded then .ended (s.finalState [])
    else
      match step s with
      | .next t => runProgram fuel t
      | .fault f => .ended (s.finalState [f])
      | .refused r => .refused r

end Sys2Proof.Machine
end

