-- ==== Sys2Proof/Safety.lean ====
section
/-! DEFINITION. What counts as a safe run and a sound state, in the terms the claims use: host obligations, the machine's invariant, the shape of a built tree, paths, prefix-freeness, and what a command leaves alone. -/

namespace Sys2Proof.Machine

/-! ### The HOST's obligations -/

/-- The access is admitted (R85, R81) and keeps the HOST's obligation of R99. -/
def State.admits (s : State) : HostAccess → Bool
  | .regRead width off _ => regAccessWf width off
  | .regWrite width off _ => regAccessWf width off
  | .memRead a _ => decide (a < s.dmemSize)
  | .memWrite a _ => decide (a < s.dmemSize) && !s.inActiveRange a

/-- The next step is safe: it is not a host access that the block does not admit. -/
def State.stepSafe (s : State) : Bool :=
  match s.nextTurn, s.hostProg with
  | .host, .access a :: _ => s.admits a
  | .host, [] => true
  | .host, .wait :: _ => true
  | .engine, _ => true
  | .reset, _ => true

/-- A run of `n` steps is safe: no step faults and none is refused. -/
def State.runSafe (n : Nat) (s : State) : Prop := ∃ t, Sys2Proof.core.run n s = .next t

/-- It is the HOST's turn and `op` is what it does next. -/
def State.hostDoes (s : State) (op : HostOp) (rest : List HostOp) : Prop :=
  s.nextTurn = .host ∧ s.hostProg = op :: rest

/-- `s` with the HOST's turn and its next operation used up, nothing else changed. -/
def State.afterHost (s : State) (rest : List HostOp) : State := (s.dropTurn).setProg rest

/-! ### Ranges -/

/-- A range is valid (R86). -/
def RangeOk (size : Nat) (a n : Word) : Prop := n = 0 ∨ a.toNat + n.toNat ≤ size

/-- Two ranges share a byte (R87). -/
def RangesMeet (a n b m : Word) : Prop :=
  ∃ x, (a.toNat ≤ x ∧ x < a.toNat + n.toNat) ∧ (b.toNat ≤ x ∧ x < b.toNat + m.toNat)

/-- The buffer registers pass the checks of PACK, UNPACK and COMPRESS (R88). -/
def State.BuffersOk (s : State) : Prop :=
  RangeOk s.dmemSize s.srcAddr s.srcLen ∧ RangeOk s.dmemSize s.dstAddr s.dstCap
    ∧ ¬ RangesMeet s.srcAddr s.srcLen s.dstAddr s.dstCap

/-- Source byte `i`: the DMEM byte at SRC_ADDR + i. -/
def State.sourceByte (s : State) (i : Nat) : Byte := Memory.read s.dmem (s.srcAddr.toNat + i)

/-- How many source bytes are `x`. -/
def State.sourceCount (s : State) (x : Symbol) : Nat :=
  ((List.range s.srcLen.toNat).filter fun i => s.sourceByte i == x).length

/-! ### Trees, paths and codes -/

/-- A leaf record (R45). -/
def LeafOk (nd : Node) : Prop := nd.kind = .leaf ∧ nd.left = 0 ∧ nd.right = 0 ∧ nd.weight ≠ 0

/-- The internal record at index `i`: both children lie below it and are distinct, and its weight is
the sum of theirs (R45, R153, R154). -/
def InternalOk (node : Nat → Node) (i : Nat) : Prop :=
  (node i).kind = .internal ∧ (node i).sym = 0 ∧ (node i).left.toNat < i ∧ (node i).right.toNat < i
    ∧ (node i).left ≠ (node i).right
    ∧ (node i).weight.toNat = (node (node i).left.toNat).weight.toNat
        + (node (node i).right.toNat).weight.toNat

/-- Node `j` is a child of node `i`. -/
def ChildOf (node : Nat → Node) (j i : Nat) : Prop :=
  (node i).kind = .internal ∧ ((node i).left.toNat = j ∨ (node i).right.toNat = j)

/-- The records below `2n - 1` are a built tree of `n` leaves (R153, R154). -/
structure TreeShape (node : Nat → Node) (n root : Nat) : Prop where
  leaves_pos : 1 ≤ n
  leaves_le : n ≤ 256
  root_eq : root = 2 * n - 2
  leaf : ∀ i, i < n → LeafOk (node i)
  ascending : ∀ i j, i < j → j < n → (node i).sym.toNat < (node j).sym.toNat
  internal : ∀ i, n ≤ i → i < 2 * n - 1 → InternalOk node i
  one_parent : ∀ j, j < 2 * n - 2 → ∃ i, (i < 2 * n - 1 ∧ ChildOf node j i)
    ∧ ∀ i', i' < 2 * n - 1 → ChildOf node j i' → i' = i

/-- The arena holds a built tree of `n` leaves with ROOT and NODE_COUNT set accordingly (R44, R153). -/
def State.HoldsTree (s : State) (n : Nat) : Prop :=
  s.nodeCount.toNat = 2 * n - 1 ∧ TreeShape (nodeAt s.arena) n s.root.toNat

/-- The tree registers are sound: with TREE_VALID = 1 the arena holds a built tree, and with
TREE_VALID = 0 ROOT and NODE_COUNT are 0 (R33, R44). -/
def State.TreeOk (s : State) : Prop :=
  (s.treeValid = true → ∃ n, s.HoldsTree n) ∧ (s.treeValid = false → s.root = 0 ∧ s.nodeCount = 0)

/-- Before record `i` is made, record `j` is there and is nobody's child: it is in the queue of R150. -/
def Unclaimed (node : Nat → Node) (i j : Nat) : Prop := j < i ∧ ∀ i', i' < i → ¬ ChildOf node j i'

/-- Record `j` comes before record `k` in the lexicographic order on (weight, index) (R150, R152). -/
def LexBefore (node : Nat → Node) (j k : Nat) : Prop :=
  (node j).weight.toNat < (node k).weight.toNat
    ∨ ((node j).weight.toNat = (node k).weight.toNat ∧ j < k)

/-- The internal record `i` merges the two records that were least when it was made: its left child is
the least and its right child the second least of the records not yet a child (R150, R152). -/
def MergesLeast (node : Nat → Node) (i : Nat) : Prop :=
  Unclaimed node i (node i).left.toNat ∧ Unclaimed node i (node i).right.toNat
    ∧ LexBefore node (node i).left.toNat (node i).right.toNat
    ∧ ∀ j, Unclaimed node i j → j = (node i).left.toNat ∨ j = (node i).right.toNat
        ∨ LexBefore node (node i).right.toNat j

/-- The node reached from node `i` along the path `c`, a 0 going left and a 1 right (R171); no path
leads on from a leaf. -/
def reach (node : Nat → Node) : (i : Nat) → (c : Bits) → Option Nat
  | i, [] => some i
  | i, b :: c =>
    match (node i).kind with
    | .leaf => none
    | .internal => reach node (if b then (node i).right.toNat else (node i).left.toNat) c

/-- The indices met on a walk of everything below node `i`, itself included, as often as they are met. -/
def visits (node : Nat → Node) : (fuel : Nat) → (i : Nat) → List Nat
  | 0, _ => []
  | fuel + 1, i =>
    match (node i).kind with
    | .leaf => [i]
    | .internal => i :: (visits node fuel (node i).left.toNat ++ visits node fuel (node i).right.toNat)

/-- Symbol `x` has a code (R50). -/
def HasCode (ct : CodeTable) (x : Symbol) : Prop := (lookup ct x).len ≠ 0

/-- No two symbols share a code: the table has no conflict (R193). -/
def ConflictFree (ct : CodeTable) : Prop :=
  ∀ x y, HasCode ct x → HasCode ct y → codeOf ct x = codeOf ct y → x = y

/-- No code is a prefix of another symbol's code (R10, R173): no conflict, and prefix-free. -/
def PrefixFree (ct : CodeTable) : Prop :=
  ∀ x y, HasCode ct x → HasCode ct y → x ≠ y → ¬ codeOf ct x <+: codeOf ct y

/-- The bits UNPACK keeps: those of the body without the last `p` (R190 steps (b), (c)). -/
def State.keptBits (s : State) : Bits :=
  (bitsOfBytes (s.sourceBytes.drop 1)).take (8 * (s.srcLen.toNat - 1) - (s.sourceByte 0).toNat)

/-! ### The invariant -/

/-- DMEM is in canonical form and lists only bytes that exist (R80). -/
def State.MemoryOk (s : State) : Prop :=
  Memory.wf s.dmem = true ∧ ∀ c ∈ s.dmem, c.1 < s.dmemSize

/-- DMEM_SIZE is in its range (R7). -/
def State.SizeOk (s : State) : Prop := 1 ≤ s.dmemSize ∧ s.dmemSize ≤ 2 ^ 32

/-- The machine's invariant: it holds after reset and every step keeps it. -/
def State.Inv (s : State) : Prop := s.SizeOk ∧ s.MemoryOk ∧ s.TreeOk

/-! ### The reset state -/

/-- The block is in the reset state of R250; nothing is said of NODE, which no read can see, or of DMEM. -/
def State.AtReset (s : State) : Prop :=
  s.pending = none ∧ readReg .ctrl s = 0 ∧ readReg .status s = 0
    ∧ s.srcAddr = 0 ∧ s.srcLen = 0 ∧ s.dstAddr = 0 ∧ s.dstCap = 0
    ∧ s.outLen = 0 ∧ s.pad = 0 ∧ s.errInfo = 0 ∧ s.root = 0 ∧ s.nodeCount = 0
    ∧ s.fqSel = 0 ∧ s.nodeSel = 0 ∧ s.ctSel = 0
    ∧ (∀ x, lookup s.freq x = 0) ∧ readReg .nsym s = 0
    ∧ (∀ x, lookup s.codes x = { len := 0, bits := 0 }) ∧ readReg .ncode s = 0
    ∧ s.irq = false ∧ readReg .id s = 0x48554646 ∧ readReg .version s = 0x00000001

/-! ### What a command leaves alone -/

/-- CTRL, the buffer registers, the selectors and the sticky STATUS bits are unchanged. -/
def KeepsControls (s t : State) : Prop :=
  t.irqEn = s.irqEn ∧ t.srcAddr = s.srcAddr ∧ t.srcLen = s.srcLen ∧ t.dstAddr = s.dstAddr
    ∧ t.dstCap = s.dstCap ∧ t.fqSel = s.fqSel ∧ t.nodeSel = s.nodeSel ∧ t.ctSel = s.ctSel
    ∧ t.cmdOvr = s.cmdOvr ∧ t.wrIgn = s.wrIgn

/-- The HOST, the schedule and DMEM_SIZE are unchanged. -/
def KeepsHost (s t : State) : Prop :=
  t.hostProg = s.hostProg ∧ t.hostLog = s.hostLog ∧ t.sched = s.sched ∧ t.dmemSize = s.dmemSize

/-- The tree is unchanged: NODE, ROOT, NODE_COUNT and TREE_VALID. -/
def KeepsTree (s t : State) : Prop :=
  t.arena = s.arena ∧ t.root = s.root ∧ t.nodeCount = s.nodeCount ∧ t.treeValid = s.treeValid

/-- OUT_LEN and PAD are unchanged. -/
def KeepsOutput (s t : State) : Prop := t.outLen = s.outLen ∧ t.pad = s.pad

/-- Every byte of DMEM reads as before. -/
def KeepsMemory (s t : State) : Prop := ∀ a, Memory.read t.dmem a = Memory.read s.dmem a

/-- Every byte of DMEM outside `[a, a + n)` reads as before. -/
def KeepsMemoryOutside (a n : Nat) (s t : State) : Prop :=
  ∀ x, (x < a ∨ a + n ≤ x) → Memory.read t.dmem x = Memory.read s.dmem x

/-- The command has completed successfully (R124). -/
def Completed (t : State) : Prop :=
  t.pending = none ∧ t.done = true ∧ t.err = .noError ∧ t.errInfo = 0

/-- `s` after a command that ended with an error: nothing else changed (R221). -/
def failedWith (s : State) (code : ErrCode) (info : Word) : State :=
  { s with pending := none, done := true, err := code, errInfo := info }

end Sys2Proof.Machine
end

