-- ==== Sys2Proof/Certificates/Slice0/Obligations.lean ====
section
/-! DEFINITION. The statements about the FZ-HC model that the provers settle, one definition per statement; each docstring names the rules of spec/ it rests on. -/

open Sys2Proof Sys2Proof.Machine

/-! ### Encoding -/

/-- R103, R106: exactly the eight words of the opcode map decode to commands, each to its own. -/
def Obligations.OpcodeMapSelectsTheCommands : Prop :=
  ∀ (w : Word) (i : Instr), decode w = .command i ↔
    (w, i) ∈ [(0x00000000#32, Instr.nop), (0x00000001#32, .clear), (0x00000002#32, .analyze),
      (0x00000003#32, .buildTree), (0x00000004#32, .genCodes), (0x00000005#32, .pack),
      (0x00000006#32, .unpack), (0x00000007#32, .compress)]

/-- R100 to R106: the encoder and the decoder agree in both directions, and every other word decodes as
itself, illegal. -/
def Obligations.DecodeInvertsEncode : Prop :=
  (∀ i : Instr, i.wf = true ∧ decode (encode i) = .command i)
    ∧ (∀ (w : Word) (i : Instr), decode w = .command i → encode i = w)
    ∧ (∀ (w v : Word), decode w = .illegal v → v = w ∧ ∀ i : Instr, encode i ≠ w)

/-- R104: what an illegal word is, and what it does: accepted while idle like any command, ending with
ILLEGAL_CMD and ERR_INFO = w, changing nothing else; dropped while busy. -/
def Obligations.IllegalWordIsAcceptedAndReported : Prop :=
  ∀ w : Word, (w.extractLsb' 8 24 ≠ 0 ∨ 0x08 ≤ (w.extractLsb' 0 8).toNat) →
    (∀ (s : State) (rest : List HostOp), s.hostDoes (.access (.regWrite 32 0x10 w)) rest →
      (s.pending = none → step s = .next
        { s.afterHost rest with pending := some w, done := false, err := .noError, errInfo := 0 })
      ∧ (s.pending ≠ none → step s = .next { s.afterHost rest with cmdOvr := true }))
    ∧ (∀ s : State, s.nextTurn = .engine → s.pending = some w →
      step s = .next (failedWith s.dropTurn .illegalCmd w))

/-- R23: the offset of every register, as the rule's table gives it, and the map is one-to-one: every
register stands at its own multiple of 4, and every multiple of 4 in the window is a register. -/
def Obligations.RegisterMapIsOneToOne : Prop :=
  (∀ p ∈ [(RegName.id, 0x00#8), (.version, 0x04), (.ctrl, 0x08), (.status, 0x0C), (.cmd, 0x10),
      (.srcAddr, 0x14), (.srcLen, 0x18), (.dstAddr, 0x1C), (.dstCap, 0x20), (.outLen, 0x24),
      (.pad, 0x28), (.errInfo, 0x2C), (.nsym, 0x30), (.ncode, 0x34), (.root, 0x38),
      (.nodeCount, 0x3C), (.fqSel, 0x40), (.fqData, 0x44), (.nodeSel, 0x48), (.nodeInfo, 0x4C),
      (.nodeWeight, 0x50), (.nodeChild, 0x54), (.ctSel, 0x58), (.ctLen, 0x5C)], p.1.offset = p.2)
    ∧ (∀ k : BitVec 3, (RegName.ctBits k).offset.toNat = 0x60 + 4 * k.toNat)
    ∧ (∀ k : BitVec 5, (RegName.reserved k).offset.toNat = 0x80 + 4 * k.toNat)
    ∧ (∀ r : RegName, r.offset.toNat % 4 = 0 ∧ RegName.ofOffset r.offset = r)
    ∧ (∀ off : BitVec 8, off.toNat % 4 = 0 → (RegName.ofOffset off).offset = off)

/-! ### Reset and launch -/

/-- R250 (and R251 for a reset while busy): the reset input sets every register and table; while idle it
leaves DMEM alone, and while busy it discards the pending command and leaves every DMEM byte outside
that command's destination range alone. -/
def Obligations.ResetSetsEveryRegister : Prop :=
  ∀ s : State, s.nextTurn = .reset →
    ∃ t, step s = .next t ∧ t.AtReset ∧ t.dmemSize = s.dmemSize
      ∧ (s.pending = none → KeepsMemory s t)
      ∧ ∀ a, s.inActiveDestination a = false → Memory.read t.dmem a = Memory.read s.dmem a

/-- R8, R250, the model's launch (log entries 2, 3, 4): for every DMEM_SIZE in range and every canonical
contents, the launched machine is in the reset state with that DMEM and meets the invariant; so does
State.reset. -/
def Obligations.LaunchMeetsTheInvariant : Prop :=
  (∀ (size : Nat) (m : Memory), 1 ≤ size → size ≤ 2 ^ 32 → Memory.wf m = true →
    (∀ c ∈ m, c.1 < size) →
    (State.launch size m).AtReset ∧ (State.launch size m).dmem = m ∧ (State.launch size m).Inv)
  ∧ State.reset.AtReset ∧ State.reset.Inv

/-! ### The life of a command -/

/-- R121, R122: a CMD write of any word while BUSY = 0 is accepted in one step, and while BUSY = 1 it is
dropped and sets CMD_OVR; no other state changes. -/
def Obligations.CmdWriteIsAcceptedOrDropped : Prop :=
  ∀ (s : State) (w : Word) (rest : List HostOp), s.hostDoes (.access (.regWrite 32 0x10 w)) rest →
    (s.busy = false → step s = .next
      { s.afterHost rest with pending := some w, done := false, err := .noError, errInfo := 0 })
    ∧ (s.busy = true → step s = .next { s.afterHost rest with cmdOvr := true })

/-- R123, and the model's schedule (log entries 5, 7): when the ENGINE has the turn and PENDING decodes
to a command, the step is exec of that command on the state whose schedule has moved on; and a word
placed by withFetchWord is run by the very next step. -/
def Obligations.EngineStepRunsTheDecodedCommand : Prop :=
  (∀ (s : State) (w : Word) (i : Instr), s.nextTurn = .engine → s.pending = some w →
    decode w = .command i → i.wf = true ∧ step s = exec i { s with sched := s.sched.tail })
  ∧ (∀ (s : State) (i : Instr),
    step (s.withFetchWord 32 (encode i).toNat) = exec i { s with pending := some (encode i) })

/-- R124, R125, R28: every command completes in its one ENGINE step, whatever the state: BUSY = 0, DONE = 1,
and ERR_INFO = 0 when it succeeds; the ENGINE's step is enabled whenever BUSY = 1, for a legal or an
illegal word; and no host action takes the command away. -/
def Obligations.AcceptedCommandsAlwaysComplete : Prop :=
  (∀ (i : Instr) (s : State), ∃ t, exec i s = .next t ∧ t.busy = false ∧ t.done = true
    ∧ (t.err = .noError → t.errInfo = 0))
  ∧ (∀ s : State, s.nextTurn = .engine → s.busy = true →
    ∃ t, step s = .next t ∧ t.busy = false ∧ t.done = true)
  ∧ (∀ s t : State, s.nextTurn = .host → s.busy = true → step s = .next t → t.pending = s.pending)

/-- R221: a command that raises an error changes exactly ERR, ERR_INFO, BUSY and DONE, and so does the
ENGINE's step for any accepted word, legal or not. -/
def Obligations.ErrorChangesOnlyTheStatus : Prop :=
  (∀ (i : Instr) (s t : State), exec i s = .next t → t.err ≠ .noError →
    t = { s with pending := none, done := true, err := t.err, errInfo := t.errInfo })
  ∧ (∀ s t : State, s.nextTurn = .engine → s.busy = true → step s = .next t → t.err ≠ .noError →
    t = { s.dropTurn with pending := none, done := true, err := t.err, errInfo := t.errInfo })

/-- R220 (for COMPRESS with R212): the numeric codes, and which of them each of the eight commands can end
with; NOP and CLEAR raise none. -/
def Obligations.CommandsRaiseOnlyTheirErrors : Prop :=
  ([ErrCode.noError, .illegalCmd, .addrRange, .overlap, .emptyTable, .weightOvf, .noTree, .missingCode,
      .dstOverflow, .incompleteCode, .badPadding, .tableConflict].map ErrCode.value
    = [0x00, 0x01, 0x02, 0x03, 0x04, 0x05, 0x06, 0x07, 0x08, 0x09, 0x0A, 0x0B])
  ∧ ∀ s t : State,
    (exec .nop s = .next t → t.err = .noError)
    ∧ (exec .clear s = .next t → t.err = .noError)
    ∧ (exec .analyze s = .next t → t.err ∈ [ErrCode.noError, .addrRange])
    ∧ (exec .buildTree s = .next t → t.err ∈ [ErrCode.noError, .emptyTable, .weightOvf])
    ∧ (exec .genCodes s = .next t → t.err ∈ [ErrCode.noError, .noTree])
    ∧ (exec .pack s = .next t →
        t.err ∈ [ErrCode.noError, .addrRange, .overlap, .missingCode, .dstOverflow])
    ∧ (exec .unpack s = .next t → t.err ∈ [ErrCode.noError, .addrRange, .overlap, .badPadding,
        .tableConflict, .incompleteCode, .dstOverflow])
    ∧ (exec .compress s = .next t → t.err ∈ [ErrCode.noError, .addrRange, .overlap, .dstOverflow])

/-- R212: in COMPRESS, EMPTY_TABLE, WEIGHT_OVF and MISSING_CODE cannot occur. -/
def Obligations.CompressNeverMissesATableOrCode : Prop :=
  ∀ s t : State, exec .compress s = .next t →
    t.err ≠ .emptyTable ∧ t.err ≠ .weightOvf ∧ t.err ≠ .missingCode

/-- R222: the range checks come first, source before destination before overlap, for every command that
uses the ranges; each failing one is the whole effect. -/
def Obligations.RangeChecksComeFirst : Prop :=
  ∀ s : State,
    (¬ RangeOk s.dmemSize s.srcAddr s.srcLen → ∀ i ∈ [Instr.analyze, .pack, .unpack, .compress],
      exec i s = .next (failedWith s .addrRange 0))
    ∧ (RangeOk s.dmemSize s.srcAddr s.srcLen → ¬ RangeOk s.dmemSize s.dstAddr s.dstCap →
      ∀ i ∈ [Instr.pack, .unpack, .compress], exec i s = .next (failedWith s .addrRange 1))
    ∧ (RangeOk s.dmemSize s.srcAddr s.srcLen → RangeOk s.dmemSize s.dstAddr s.dstCap →
      RangesMeet s.srcAddr s.srcLen s.dstAddr s.dstCap →
      ∀ i ∈ [Instr.pack, .unpack, .compress], exec i s = .next (failedWith s .overlap 0))

/-! ### Registers -/

/-- R24, R25: ID and VERSION always read their constants, and a write to either changes nothing. -/
def Obligations.IdentityRegistersReadTheirConstants : Prop :=
  ∀ (s : State) (v : Nat) (w : Word) (rest : List HostOp),
    (s.hostDoes (.access (.regRead 32 0x00 v)) rest →
      step s = .next ((s.afterHost rest).record v 0x48554646))
    ∧ (s.hostDoes (.access (.regRead 32 0x04 v)) rest →
      step s = .next ((s.afterHost rest).record v 0x00000001))
    ∧ (s.hostDoes (.access (.regWrite 32 0x00 w)) rest → step s = .next (s.afterHost rest))
    ∧ (s.hostDoes (.access (.regWrite 32 0x04 w)) rest → step s = .next (s.afterHost rest))

/-- R27, R30: every bit of STATUS as a host read gives it, and the write-one-to-clear rule. -/
def Obligations.StatusReadsAndClears : Prop :=
  ∀ (s : State) (rest : List HostOp),
    (∀ v : Nat, s.hostDoes (.access (.regRead 32 0x0C v)) rest →
      ∃ w : Word, step s = .next ((s.afterHost rest).record v w)
        ∧ w.getLsbD 0 = s.pending.isSome ∧ w.getLsbD 1 = s.done
        ∧ (w.getLsbD 2 = true ↔ s.err ≠ .noError) ∧ w.getLsbD 3 = s.cmdOvr
        ∧ w.getLsbD 4 = s.wrIgn ∧ w.getLsbD 5 = s.treeValid ∧ w.extractLsb' 6 2 = 0
        ∧ w.extractLsb' 8 8 = s.err.value ∧ w.extractLsb' 16 16 = 0)
    ∧ (∀ w : Word, s.hostDoes (.access (.regWrite 32 0x0C w)) rest →
      step s = .next { s.afterHost rest with
        done := if w.getLsbD 1 then false else s.done
        cmdOvr := if w.getLsbD 3 then false else s.cmdOvr
        wrIgn := if w.getLsbD 4 then false else s.wrIgn })

/-- R56: what a host write does while BUSY = 1, for every register of the window; what CTRL, STATUS, the
selectors and the read-only and reserved registers do does not depend on BUSY. -/
def Obligations.BusyLockStopsOperandWrites : Prop :=
  ∀ (s : State) (r : RegName) (v : Word) (rest : List HostOp),
    s.hostDoes (.access (.regWrite 32 r.offset v)) rest →
    match r with
    | .srcAddr | .srcLen | .dstAddr | .dstCap | .fqData | .ctLen | .ctBits _ =>
      s.busy = true → step s = .next { s.afterHost rest with wrIgn := true }
    | .ctrl => step s = .next { s.afterHost rest with irqEn := v.getLsbD 0 }
    | .status => ∃ d o g, step s = .next { s.afterHost rest with done := d, cmdOvr := o, wrIgn := g }
        ∧ d = (s.done && !v.getLsbD 1) ∧ o = (s.cmdOvr && !v.getLsbD 3) ∧ g = (s.wrIgn && !v.getLsbD 4)
    | .fqSel => step s = .next { s.afterHost rest with fqSel := v.extractLsb' 0 8 }
    | .nodeSel => step s = .next { s.afterHost rest with nodeSel := v.extractLsb' 0 9 }
    | .ctSel => step s = .next { s.afterHost rest with ctSel := v.extractLsb' 0 8 }
    | .cmd => s.busy = true → step s = .next { s.afterHost rest with cmdOvr := true }
    | .id | .version | .outLen | .pad | .errInfo | .nsym | .ncode | .root | .nodeCount | .nodeInfo
    | .nodeWeight | .nodeChild | .reserved _ => step s = .next (s.afterHost rest)

/-- R23, R26, R36, R42, R46, R53: while BUSY = 0 a host write step of any register does what writeReg does; a
read-write register then reads what was written to it, its reserved bits 0, and the write changes
nothing else; a write to a read-only or reserved register changes nothing. -/
def Obligations.IdleWritesReachTheirRegister : Prop :=
  ∀ (s : State) (v : Word), s.busy = false →
    (writeReg .ctrl v s = { s with irqEn := v.getLsbD 0 }
      ∧ readReg .ctrl (writeReg .ctrl v s) = v &&& 0x00000001)
    ∧ (writeReg .srcAddr v s = { s with srcAddr := v } ∧ readReg .srcAddr (writeReg .srcAddr v s) = v)
    ∧ (writeReg .srcLen v s = { s with srcLen := v } ∧ readReg .srcLen (writeReg .srcLen v s) = v)
    ∧ (writeReg .dstAddr v s = { s with dstAddr := v } ∧ readReg .dstAddr (writeReg .dstAddr v s) = v)
    ∧ (writeReg .dstCap v s = { s with dstCap := v } ∧ readReg .dstCap (writeReg .dstCap v s) = v)
    ∧ (readReg .fqSel (writeReg .fqSel v s) = v &&& 0x000000FF
      ∧ writeReg .fqSel v s = { s with fqSel := v.extractLsb' 0 8 })
    ∧ (readReg .nodeSel (writeReg .nodeSel v s) = v &&& 0x000001FF
      ∧ writeReg .nodeSel v s = { s with nodeSel := v.extractLsb' 0 9 })
    ∧ (readReg .ctSel (writeReg .ctSel v s) = v &&& 0x000000FF
      ∧ writeReg .ctSel v s = { s with ctSel := v.extractLsb' 0 8 })
    ∧ (∀ r ∈ [RegName.id, .version, .outLen, .pad, .errInfo, .nsym, .ncode, .root, .nodeCount,
        .nodeInfo, .nodeWeight, .nodeChild], writeReg r v s = s)
    ∧ (∀ k, writeReg (.reserved k) v s = s ∧ readReg (.reserved k) s = 0)
    ∧ (∀ (r : RegName) (rest : List HostOp), s.hostDoes (.access (.regWrite 32 r.offset v)) rest →
      step s = .next (writeReg r v (s.afterHost rest)))

/-- R51: code bit j is bit 31 - (j mod 32) of CT_BITSk, k = j div 32, and a code is the first len bits. -/
def Obligations.CodeBitsLieInTheirWords : Prop :=
  ∀ (ct : CodeTable) (x : Symbol) (j : Nat),
    (codeOf ct x).length = (lookup ct x).len.toNat
    ∧ (j < (lookup ct x).len.toNat → (codeOf ct x)[j]?
        = some (((lookup ct x).word (BitVec.ofNat 3 (j / 32))).getLsbD (31 - j % 32)))

/-- R43, R54, R55: the FQ_DATA window reads and writes the selected counter and no other, FQ_SEL not
changed; the CT windows read and write the length or one word of the selected entry, every other word,
length and entry unchanged; and while BUSY = 0 the host's read and write steps of these windows do so. -/
def Obligations.TableWindowsReachTheSelectedEntry : Prop :=
  ∀ (s : State) (v : Word) (k : BitVec 3),
    readReg .fqData s = lookup s.freq s.fqSel
    ∧ (s.busy = false → ∃ f, writeReg .fqData v s = { s with freq := f }
      ∧ ∀ x, lookup f x = if x = s.fqSel then v else lookup s.freq x)
    ∧ readReg .ctLen s = (lookup s.codes s.ctSel).len.setWidth 32
    ∧ readReg (.ctBits k) s = (lookup s.codes s.ctSel).word k
    ∧ (s.busy = false → ∃ ct, writeReg .ctLen v s = { s with codes := ct }
      ∧ (∀ x, x ≠ s.ctSel → lookup ct x = lookup s.codes x)
      ∧ (lookup ct s.ctSel).len = v.extractLsb' 0 8
      ∧ (lookup ct s.ctSel).bits = (lookup s.codes s.ctSel).bits)
    ∧ (s.busy = false → ∃ ct, writeReg (.ctBits k) v s = { s with codes := ct }
      ∧ (∀ x, x ≠ s.ctSel → lookup ct x = lookup s.codes x)
      ∧ (lookup ct s.ctSel).len = (lookup s.codes s.ctSel).len
      ∧ ∀ k', (lookup ct s.ctSel).word k' = if k' = k then v else (lookup s.codes s.ctSel).word k')
    ∧ ∀ r ∈ [RegName.fqData, .ctLen, .ctBits k], ∀ (n : Nat) (rest : List HostOp), s.busy = false →
      (s.hostDoes (.access (.regRead 32 r.offset n)) rest →
        step s = .next ((s.afterHost rest).record n (readReg r s)))
      ∧ (s.hostDoes (.access (.regWrite 32 r.offset v)) rest →
        step s = .next (writeReg r v (s.afterHost rest)))

/-- R41, R52: NSYM and NCODE are live counts, at most 256, and read 0 after reset. -/
def Obligations.LiveCountsCountTheTables : Prop :=
  (∀ s : State,
    (readReg .nsym s).toNat = (Finset.univ.filter fun x : Symbol => lookup s.freq x ≠ 0).card
    ∧ (readReg .nsym s).toNat ≤ 256
    ∧ (readReg .ncode s).toNat = (Finset.univ.filter fun x : Symbol => (lookup s.codes x).len ≠ 0).card
    ∧ (readReg .ncode s).toNat ≤ 256)
  ∧ readReg .nsym State.reset = 0 ∧ readReg .ncode State.reset = 0

/-- R44, R47, R48, R49: ROOT, NODE_COUNT and the node windows, every bit of them. -/
def Obligations.NodeWindowsShowTheArena : Prop :=
  ∀ s : State,
    (readReg .root s).toNat = (if s.treeValid then s.root.toNat else 0)
    ∧ (readReg .nodeCount s).toNat = (if s.treeValid then s.nodeCount.toNat else 0)
    ∧ (s.nodeSel.toNat < (readReg .nodeCount s).toNat →
      (readReg .nodeInfo s).toNat = 256 * (nodeAt s.arena s.nodeSel.toNat).sym.toNat
          + (if (nodeAt s.arena s.nodeSel.toNat).kind = .internal then 2 else 0) + 1
      ∧ readReg .nodeWeight s = (nodeAt s.arena s.nodeSel.toNat).weight
      ∧ (readReg .nodeChild s).toNat = 65536 * (nodeAt s.arena s.nodeSel.toNat).right.toNat
          + (nodeAt s.arena s.nodeSel.toNat).left.toNat)
    ∧ ((readReg .nodeCount s).toNat ≤ s.nodeSel.toNat →
      readReg .nodeInfo s = 0 ∧ readReg .nodeWeight s = 0 ∧ readReg .nodeChild s = 0)

/-- R57 with the free value of log entry 1, R35, R37, R38, R39: a host read step of any register while
BUSY = 0 gives its defined value; while BUSY = 1 the result registers and table windows give a free draw
and every other register its defined value (for CMD, which R57 names in neither list, this is R35 as
log entry 19 reads it). CMD reads 0, OUT_LEN and ERR_INFO read as stored, PAD in bits 2:0 below zeros. -/
def Obligations.ReadsAreDefinedUnlessBusy : Prop :=
  (∀ (s : State) (r : RegName) (v : Nat) (rest : List HostOp),
    s.hostDoes (.access (.regRead 32 r.offset v)) rest →
    (s.busy = false → step s = .next ((s.afterHost rest).record v (readReg r s)))
    ∧ (s.busy = true → match r with
      | .outLen | .pad | .errInfo | .nsym | .ncode | .root | .nodeCount | .fqData | .nodeInfo
      | .nodeWeight | .nodeChild | .ctLen | .ctBits _ => step s = .next { s.afterHost rest with
          hostLog := (v, Config.freeWord s.draws) :: s.hostLog, draws := s.draws + 1 }
      | .id | .version | .ctrl | .status | .cmd | .srcAddr | .srcLen | .dstAddr | .dstCap | .fqSel
      | .nodeSel | .ctSel | .reserved _ => step s = .next ((s.afterHost rest).record v (readReg r s))))
  ∧ (∀ s : State, readReg .cmd s = 0 ∧ readReg .outLen s = s.outLen ∧ readReg .errInfo s = s.errInfo
    ∧ (readReg .pad s).extractLsb' 0 3 = s.pad ∧ (readReg .pad s).extractLsb' 3 29 = 0)

/-- R59, R225: IRQ is IRQ_EN AND DONE; every completion, success or error, of a command or of an accepted
illegal word (R104), raises it if it is enabled, a write-one-to-clear of DONE or an accepted command
lowers it, and at reset it is 0. -/
def Obligations.IrqFollowsCompletion : Prop :=
  (∀ (i : Instr) (s t : State), exec i s = .next t → t.irq = s.irqEn)
  ∧ (∀ s t : State, s.nextTurn = .engine → s.busy = true → step s = .next t → t.irq = s.irqEn)
  ∧ (∀ (s : State) (w : Word), w.getLsbD 1 = true → (writeReg .status w s).irq = false)
  ∧ (∀ (s : State) (w : Word), s.busy = false → (writeReg .cmd w s).irq = false)
  ∧ (∀ s : State, s.irqEn = false → s.irq = false) ∧ State.reset.irq = false

/-! ### Memory and the two agents -/

/-- R85, and for an access wider than 32 bits log entry 9: a register access that is not 32 bits wide at a
multiple of 4 is the fault BadRegAccess, and no other register access faults. -/
def Obligations.BadRegisterAccessFaults : Prop :=
  ∀ (s : State) (width : Nat) (off : BitVec 8) (rest : List HostOp) (a : HostAccess),
    (∃ v, a = .regRead width off v) ∨ (∃ w, a = .regWrite width off w) →
    s.hostDoes (.access a) rest →
    ((width ≠ 32 ∨ off.toNat % 4 ≠ 0) → step s = .fault .badRegAccess)
    ∧ (width = 32 → off.toNat % 4 = 0 → ∃ t, step s = .next t)

/-- R126, R127 and log entries 8 (a DMEM access past the end) and 9 (a register access wider than 32 bits):
a step faults exactly when the HOST makes an access that the block does not admit; nothing is ever
refused. -/
def Obligations.StepFaultsExactlyOnUnsafeAccess : Prop :=
  ∀ s : State, ((∃ f, step s = .fault f) ↔ s.stepSafe = false) ∧ ∀ r, step s ≠ .refused r

/-- R88, R99, with the free value of log entry 1 and the reading of log entry 10: the active ranges of the
running command (none for NOP, CLEAR, BUILD_TREE, GEN_CODES and illegal words, the source for ANALYZE,
both for PACK, UNPACK and COMPRESS), and what host accesses to DMEM bytes that exist do. -/
def Obligations.HostDmemAccessesRespectActiveRanges : Prop :=
  ∀ (s : State) (a : Nat) (rest : List HostOp), a < s.dmemSize →
    (s.inActiveSource a = true ↔ (s.running ∈ [some Instr.analyze, some .pack, some .unpack,
        some .compress] ∧ s.srcAddr.toNat ≤ a ∧ a < s.srcAddr.toNat + s.srcLen.toNat))
    ∧ (s.inActiveDestination a = true ↔ (s.running ∈ [some Instr.pack, some .unpack, some .compress]
        ∧ s.dstAddr.toNat ≤ a ∧ a < s.dstAddr.toNat + s.dstCap.toNat))
    ∧ (∀ b : Byte, s.hostDoes (.access (.memWrite a b)) rest →
      ((s.inActiveSource a = true ∨ s.inActiveDestination a = true) →
        step s = .fault .hostRangeConflict)
      ∧ (s.inActiveSource a = false → s.inActiveDestination a = false →
        step s = .next { s.afterHost rest with dmem := Memory.write s.dmem a b }))
    ∧ (∀ v : Nat, s.hostDoes (.access (.memRead a v)) rest →
      (s.inActiveDestination a = true → step s = .next { s.afterHost rest with
        hostLog := (v, (Config.freeByte s.draws).setWidth 32) :: s.hostLog, draws := s.draws + 1 })
      ∧ (s.inActiveDestination a = false →
        step s = .next ((s.afterHost rest).record v ((Memory.read s.dmem a).setWidth 32))))

/-- R97: while BUSY = 1 no host step changes what the command reads: its operand registers, the tables,
the tree, and the DMEM bytes of its active ranges. -/
def Obligations.OperandsHoldWhileBusy : Prop :=
  ∀ s t : State, s.nextTurn = .host → s.busy = true → step s = .next t →
    t.pending = s.pending ∧ t.srcAddr = s.srcAddr ∧ t.srcLen = s.srcLen ∧ t.dstAddr = s.dstAddr
    ∧ t.dstCap = s.dstCap ∧ t.freq = s.freq ∧ t.codes = s.codes ∧ KeepsTree s t
    ∧ ∀ a, s.inActiveRange a = true → Memory.read t.dmem a = Memory.read s.dmem a

/-- R86, R87: a range is valid exactly when it is empty or ends within DMEM, and then each of its bytes
exists; the overlap formula holds exactly when the two ranges share a byte. -/
def Obligations.RangeFormulasMatchTheirBytes : Prop :=
  (∀ (size : Nat) (a n : Word),
    (rangeValid size a n = true ↔ RangeOk size a n)
    ∧ (rangeValid size a n = true ↔ ∀ x, inRange a n x = true → x < size))
  ∧ ∀ a n b m : Word, rangesOverlap a n b m = true ↔ RangesMeet a n b m

/-- R88, R89: the write footprint: a successful PACK, UNPACK or COMPRESS writes only the OUT_LEN bytes
from DST_ADDR on, within the destination range; a failed one, and every other command, writes none. -/
def Obligations.WriteFootprintIsTheOutput : Prop :=
  ∀ (i : Instr) (s t : State), exec i s = .next t →
    (i ∈ [Instr.pack, .unpack, .compress] → t.err = .noError →
      t.outLen.toNat ≤ s.dstCap.toNat ∧ KeepsMemoryOutside s.dstAddr.toNat t.outLen.toNat s t)
    ∧ ((i ∉ [Instr.pack, .unpack, .compress] ∨ t.err ≠ .noError) → t.dmem = s.dmem)

/-- R102 (its column "results written"): what each command may write; everything else is unchanged, and
the HOST, CTRL, the buffer registers, the selectors and the sticky bits always are. -/
def Obligations.CommandsWriteOnlyTheirResults : Prop :=
  ∀ (i : Instr) (s t : State), exec i s = .next t →
    KeepsControls s t ∧ KeepsHost s t
    ∧ (i ∉ [Instr.clear, .analyze, .compress] → t.freq = s.freq)
    ∧ (i ∉ [Instr.clear, .buildTree, .compress] → KeepsTree s t)
    ∧ (i ∉ [Instr.clear, .genCodes, .compress] → t.codes = s.codes)
    ∧ (i ∉ [Instr.clear, .pack, .unpack, .compress] → KeepsOutput s t)
    ∧ (i ∉ [Instr.pack, .unpack, .compress] → KeepsMemory s t)

/-- R33: TREE_VALID after any step: set by a successful BUILD_TREE and a successful COMPRESS with
SRC_LEN != 0, cleared by CLEAR, a successful COMPRESS with SRC_LEN = 0 and reset, else unchanged. -/
def Obligations.TreeValidChangesOnlyAsNamed : Prop :=
  ∀ s t : State, step s = .next t →
    t.treeValid =
      match s.nextTurn, s.running with
      | .reset, _ => false
      | .engine, some .clear => false
      | .engine, some .buildTree => if t.err = .noError then true else s.treeValid
      | .engine, some .compress => if t.err = .noError then s.srcLen != 0 else s.treeValid
      | _, _ => s.treeValid

/-! ### NOP and CLEAR -/

/-- R130: NOP completes; nothing else changes. -/
def Obligations.NopCompletes : Prop :=
  ∀ s : State, exec .nop s =
    .next { s with pending := none, done := true, err := .noError, errInfo := 0 }

/-- R253: CLEAR gives the reset values to FREQ, CT, ROOT, NODE_COUNT, TREE_VALID, OUT_LEN, PAD and
ERR_INFO, keeps CTRL, the buffer registers, the selectors, CMD_OVR and WR_IGN, and ends with DONE = 1. -/
def Obligations.ClearEmptiesTheTables : Prop :=
  ∀ s : State, ∃ t, exec .clear s = .next t ∧ Completed t
    ∧ (∀ x, lookup t.freq x = 0) ∧ (∀ x, lookup t.codes x = { len := 0, bits := 0 })
    ∧ t.root = 0 ∧ t.nodeCount = 0 ∧ t.treeValid = false ∧ t.outLen = 0 ∧ t.pad = 0
    ∧ KeepsControls s t ∧ KeepsHost s t ∧ KeepsMemory s t

/-! ### ANALYZE -/

/-- R140: with a valid source range ANALYZE sets every FREQ[x] to the number of source bytes equal to x,
the earlier counts not added; nothing else changes. With an invalid one it raises ADDR_RANGE(0). -/
def Obligations.AnalyzeCountsTheSource : Prop :=
  ∀ s : State,
    (RangeOk s.dmemSize s.srcAddr s.srcLen →
      ∃ f, exec .analyze s =
          .next { s with freq := f, pending := none, done := true, err := .noError, errInfo := 0 }
        ∧ ∀ x, (lookup f x).toNat = s.sourceCount x)
    ∧ (¬ RangeOk s.dmemSize s.srcAddr s.srcLen →
      exec .analyze s = .next (failedWith s .addrRange 0))

/-- R141: after a successful ANALYZE no count exceeds SRC_LEN, every count is exact, and the counts sum
to SRC_LEN; COMPRESS produces the same counts. -/
def Obligations.CountsAreExactAndSumToTheLength : Prop :=
  ∀ (i : Instr) (s t : State), i ∈ [Instr.analyze, .compress] → exec i s = .next t →
    t.err = .noError →
    (∀ x, (lookup t.freq x).toNat = s.sourceCount x ∧ (lookup t.freq x).toNat ≤ s.srcLen.toNat)
    ∧ ∑ x : Symbol, (lookup t.freq x).toNat = s.srcLen.toNat

/-- R142: after a successful ANALYZE the alphabet is exactly the set of source byte values, and NSYM its
size. -/
def Obligations.AlphabetIsTheSourceBytes : Prop :=
  ∀ s t : State, exec .analyze s = .next t → t.err = .noError →
    (∀ x, lookup t.freq x ≠ 0 ↔ ∃ k, k < s.srcLen.toNat ∧ s.sourceByte k = x)
    ∧ t.nsym = (Finset.univ.filter fun x : Symbol => ∃ k, k < s.srcLen.toNat ∧ s.sourceByte k = x).card

/-! ### BUILD_TREE -/

/-- R150, R153: with a nonempty table whose weights fit 32 bits BUILD_TREE completes with a built tree of
NSYM leaves, the leaves being the alphabet in ascending order with their counts. -/
def Obligations.BuildTreeBuildsATree : Prop :=
  ∀ s : State, (∃ x, lookup s.freq x ≠ 0) →
    ∑ x : Symbol, (lookup s.freq x).toNat ≤ 2 ^ 32 - 1 →
    ∃ t, exec .buildTree s = .next t ∧ Completed t ∧ t.treeValid = true
      ∧ t.HoldsTree s.nsym
      ∧ (∀ k, k < s.nsym → (nodeAt t.arena k).weight = lookup s.freq (nodeAt t.arena k).sym)
      ∧ (∀ x, lookup s.freq x ≠ 0 → ∃ k, k < s.nsym ∧ (nodeAt t.arena k).sym = x)
      ∧ KeepsControls s t ∧ KeepsHost s t ∧ t.freq = s.freq ∧ t.codes = s.codes ∧ KeepsOutput s t
      ∧ t.dmem = s.dmem

/-- R151, R170: the input checks of BUILD_TREE in their order, and NO_TREE of GEN_CODES: each is the whole
effect. -/
def Obligations.TreeCommandsCheckTheirInput : Prop :=
  ∀ s : State,
    ((∀ x, lookup s.freq x = 0) → exec .buildTree s = .next (failedWith s .emptyTable 0))
    ∧ (2 ^ 32 - 1 < ∑ x : Symbol, (lookup s.freq x).toNat →
      exec .buildTree s = .next (failedWith s .weightOvf 0))
    ∧ (s.treeValid = false → exec .genCodes s = .next (failedWith s .noTree 0))

/-- R154: every index below NODE_COUNT is reached from ROOT exactly once, and the root's weight is the
sum of FREQ, after every successful BUILD_TREE. -/
def Obligations.BuiltTreeReachesEveryNodeOnce : Prop :=
  ∀ s t : State, exec .buildTree s = .next t → t.err = .noError →
    t.HoldsTree s.nsym
    ∧ (visits (nodeAt t.arena) 511 t.root.toNat).Perm (List.range t.nodeCount.toNat)
    ∧ (nodeAt t.arena t.root.toNat).weight.toNat = ∑ x : Symbol, (lookup s.freq x).toNat

/-- R150, R152: after a successful BUILD_TREE every internal record's left child is the least and its right
child the second least, in the order of (weight, index), of the records that were there and nobody's
child when it was made. With log entry 13: adding to the queue keeps it in that order and loses and
invents nothing, so its head is the least element. -/
def Obligations.MergesTakeTheTwoLeast : Prop :=
  (∀ s t : State, exec .buildTree s = .next t → t.err = .noError →
    ∀ i, s.nsym ≤ i → i < t.nodeCount.toNat → MergesLeast (nodeAt t.arena) i)
  ∧ (∀ (e : QEntry) (q : List QEntry),
    q.Pairwise (fun a b => a.1 < b.1 ∨ (a.1 = b.1 ∧ a.2 ≤ b.2)) →
    (enqueue e q).Pairwise (fun a b => a.1 < b.1 ∨ (a.1 = b.1 ∧ a.2 ≤ b.2))
    ∧ (enqueue e q).Perm (e :: q))

/-- R155, R215, R174: the tree is a function of FREQ alone, the code table of the tree alone, and a
COMPRESS of the source bytes alone. -/
def Obligations.ResultsDependOnInputsAlone : Prop :=
  ∀ s s' t t' : State,
    (exec .buildTree s = .next t → exec .buildTree s' = .next t' → s.freq = s'.freq →
      t.err = t'.err ∧ (t.err = .noError → t.root = t'.root ∧ t.nodeCount = t'.nodeCount
        ∧ ∀ k, k < t.nodeCount.toNat → nodeAt t.arena k = nodeAt t'.arena k))
    ∧ (exec .genCodes s = .next t → exec .genCodes s' = .next t' → s.treeValid = true →
      s'.treeValid = true → s.TreeOk → s.root = s'.root → s.nodeCount = s'.nodeCount →
      (∀ k, k < s.nodeCount.toNat → nodeAt s.arena k = nodeAt s'.arena k) → t.codes = t'.codes)
    ∧ (exec .compress s = .next t → exec .compress s' = .next t' → t.err = .noError →
      t'.err = .noError → s.sourceBytes = s'.sourceBytes →
      t.outLen = t'.outLen ∧ t.pad = t'.pad ∧ t.codes = t'.codes ∧ t.freq = t'.freq
        ∧ (Memory.wf s.dmem = true → Memory.wf s'.dmem = true →
          Memory.readRange t.dmem s.dstAddr.toNat t.outLen.toNat
            = Memory.readRange t'.dmem s'.dstAddr.toNat t.outLen.toNat))

/-! ### GEN_CODES -/

/-- R170, R171: over a built tree GEN_CODES gives each leaf's symbol the path from the root as its code,
"0" to a root that is a leaf, and no code to any other symbol; every bit stored past a code's length is
0, as CT_BITSk shows it; nothing else changes. -/
def Obligations.GenCodesAssignsThePaths : Prop :=
  ∀ s : State, s.treeValid = true → s.TreeOk →
    ∃ ct, exec .genCodes s =
        .next { s with codes := ct, pending := none, done := true, err := .noError, errInfo := 0 }
      ∧ (∀ x, HasCode ct x ↔
          ∃ k, k < s.nodeCount.toNat ∧ (nodeAt s.arena k).kind = .leaf ∧ (nodeAt s.arena k).sym = x)
      ∧ (s.nodeCount = 1 → codeOf ct (nodeAt s.arena s.root.toNat).sym = [false])
      ∧ (s.nodeCount ≠ 1 → ∀ x, HasCode ct x → ∃ k,
          reach (nodeAt s.arena) s.root.toNat (codeOf ct x) = some k
            ∧ (nodeAt s.arena k).kind = .leaf ∧ (nodeAt s.arena k).sym = x)
      ∧ (∀ x, ¬ HasCode ct x → lookup ct x = { len := 0, bits := 0 })
      ∧ (∀ x j, (lookup ct x).len.toNat ≤ j → j < 256 →
          ((lookup ct x).word (BitVec.ofNat 3 (j / 32))).getLsbD (31 - j % 32) = false)

/-- R172: code lengths, leaf by leaf: for n >= 2 leaves between 1 and n - 1 <= 255 and equal to the depth
of the leaf (the length of a path from the root to it), for n = 1 the length 1. -/
def Obligations.CodeLengthsAreLeafDepths : Prop :=
  ∀ (s t : State) (n k : Nat) (len : Nat), s.treeValid = true → s.HoldsTree n →
    exec .genCodes s = .next t → k < n → len = (lookup t.codes (nodeAt s.arena k).sym).len.toNat →
    (2 ≤ n → 1 ≤ len ∧ len ≤ n - 1 ∧ n - 1 ≤ 255
      ∧ ∃ c : Bits, c.length = len ∧ reach (nodeAt s.arena) s.root.toNat c = some k)
    ∧ (n = 1 → len = 1)

/-- R173: after GEN_CODES over a tree of n leaves exactly the n leaf symbols have a code (NCODE = n),
distinct symbols have distinct codes, and the codes are prefix-free. -/
def Obligations.GeneratedCodesArePrefixFree : Prop :=
  ∀ (s t : State) (n : Nat), s.treeValid = true → s.HoldsTree n → exec .genCodes s = .next t →
    (∀ x, HasCode t.codes x ↔ ∃ k, k < n ∧ (nodeAt s.arena k).sym = x)
    ∧ t.ncode = n ∧ ConflictFree t.codes ∧ PrefixFree t.codes

/-! ### PACK -/

/-- R180, R183: PACK of a non-empty source whose bytes all have codes, into a destination that is large
enough, completes: with T code bits the byte p = (8 - T mod 8) mod 8, then m = (T + p) / 8 body bytes
that hold the codes in order and p zero bits; OUT_LEN = 1 + m, PAD = p; nothing else changes. -/
def Obligations.PackWritesThePackedForm : Prop :=
  ∀ (s : State) (bits : Bits) (p m : Nat), s.BuffersOk → s.srcLen ≠ 0 → Memory.wf s.dmem = true →
    (∀ k, k < s.srcLen.toNat → HasCode s.codes (s.sourceByte k)) →
    bits = (List.range s.srcLen.toNat).flatMap (fun k => codeOf s.codes (s.sourceByte k)) →
    p = (8 - bits.length % 8) % 8 → m = (bits.length + p) / 8 → 1 + m ≤ s.dstCap.toNat →
    ∃ t, exec .pack s = .next t ∧ Completed t ∧ t.outLen.toNat = 1 + m ∧ t.pad.toNat = p
      ∧ (Memory.read t.dmem s.dstAddr.toNat).toNat = p
      ∧ bitsOfBytes (Memory.readRange t.dmem (s.dstAddr.toNat + 1) m) = bits ++ List.replicate p false
      ∧ KeepsMemoryOutside s.dstAddr.toNat (1 + m) s t
      ∧ KeepsControls s t ∧ KeepsHost s t ∧ KeepsTree s t ∧ t.freq = s.freq ∧ t.codes = s.codes

/-- R180, R182: PACK of a source with a byte that has no code raises MISSING_CODE with the offset of the
first such byte; one whose packed form does not fit raises DST_OVERFLOW with the bytes needed. -/
def Obligations.PackErrorsAreInOrder : Prop :=
  ∀ s : State, s.BuffersOk → s.srcLen ≠ 0 →
    (∀ k, k < s.srcLen.toNat → ¬ HasCode s.codes (s.sourceByte k) →
      (∀ j, j < k → HasCode s.codes (s.sourceByte j)) →
      exec .pack s = .next (failedWith s .missingCode (BitVec.ofNat 32 k)))
    ∧ (∀ need, (∀ k, k < s.srcLen.toNat → HasCode s.codes (s.sourceByte k)) →
      need = 1 + (((List.range s.srcLen.toNat).map
        fun k => (lookup s.codes (s.sourceByte k)).len.toNat).sum + 7) / 8 →
      s.dstCap.toNat < need →
      exec .pack s = .next (failedWith s .dstOverflow (BitVec.ofNat 32 (min need (2 ^ 32 - 1)))))

/-- R181, R190 step (a), R86: with SRC_LEN = 0 and a valid destination PACK and UNPACK succeed whatever
SRC_ADDR and CT hold: nothing is written, OUT_LEN = 0, PAD = 0. -/
def Obligations.EmptySourcePacksAndUnpacksToNothing : Prop :=
  ∀ (i : Instr) (s : State), i ∈ [Instr.pack, .unpack] → s.srcLen = 0 →
    RangeOk s.dmemSize s.dstAddr s.dstCap →
    exec i s = .next { s with outLen := 0, pad := 0, pending := none, done := true, err := .noError, errInfo := 0 }

/-- R183: padding arithmetic for the packed bytes of any non-empty bit-string. -/
def Obligations.PaddingReachesAByteBoundary : Prop :=
  ∀ bits : Bits, bits ≠ [] → ∃ (p : Byte) (body : List Byte) (last : Byte),
    packedBytes bits = p :: (body ++ [last])
    ∧ p.toNat = (8 - bits.length % 8) % 8 ∧ p.toNat ≤ 7 ∧ (bits.length + p.toNat) % 8 = 0
    ∧ body.length + 1 = (bits.length + p.toNat) / 8 ∧ body.length + 1 = (bits.length + 7) / 8
    ∧ last.toNat % 2 ^ p.toNat = 0

/-! ### UNPACK -/

/-- R190, R192, R194: UNPACK of a non-empty source with a sound padding byte and a table without conflict,
whose kept bits the greedy walk consumes wholly into bytes that fit, completes with those bytes at
DST_ADDR; nothing else changes. -/
def Obligations.UnpackWritesTheDecodedBytes : Prop :=
  ∀ (s : State) (out : List Byte), s.BuffersOk → s.srcLen ≠ 0 → Memory.wf s.dmem = true →
    (s.sourceByte 0).toNat ≤ 7 → (s.sourceByte 0).toNat ≤ 8 * (s.srcLen.toNat - 1) →
    ConflictFree s.codes → greedy (codeBook s.codes) [] s.keptBits = (out, []) →
    out.length ≤ s.dstCap.toNat →
    ∃ t, exec .unpack s = .next t ∧ Completed t ∧ t.outLen.toNat = out.length
      ∧ t.pad.toNat = (s.sourceByte 0).toNat
      ∧ Memory.readRange t.dmem s.dstAddr.toNat out.length = out
      ∧ KeepsMemoryOutside s.dstAddr.toNat out.length s t
      ∧ KeepsControls s t ∧ KeepsHost s t ∧ KeepsTree s t ∧ t.freq = s.freq ∧ t.codes = s.codes

/-- R190 to R195: the errors of UNPACK beyond the ranges, each with its ERR_INFO, in their order. -/
def Obligations.UnpackErrorsAreInOrder : Prop :=
  ∀ s : State, s.BuffersOk → s.srcLen ≠ 0 →
    ((7 < (s.sourceByte 0).toNat ∨ 8 * (s.srcLen.toNat - 1) < (s.sourceByte 0).toNat) →
      exec .unpack s = .next (failedWith s .badPadding ((s.sourceByte 0).setWidth 32)))
    ∧ ((s.sourceByte 0).toNat ≤ 7 → (s.sourceByte 0).toNat ≤ 8 * (s.srcLen.toNat - 1) →
      (∀ x y : Symbol, x.toNat < y.toNat → HasCode s.codes x → HasCode s.codes y →
        codeOf s.codes x = codeOf s.codes y →
        (∀ x' y' : Symbol, x'.toNat < y'.toNat → HasCode s.codes x' → HasCode s.codes y' →
          codeOf s.codes x' = codeOf s.codes y' →
          x.toNat < x'.toNat ∨ (x = x' ∧ y.toNat ≤ y'.toNat)) →
        exec .unpack s =
          .next (failedWith s .tableConflict (BitVec.ofNat 32 (x.toNat + 256 * y.toNat))))
      ∧ (ConflictFree s.codes → ∀ (out : List Byte) (left : Bits),
        greedy (codeBook s.codes) [] s.keptBits = (out, left) →
        (left ≠ [] → exec .unpack s =
          .next (failedWith s .incompleteCode (BitVec.ofNat 32 (min left.length (2 ^ 32 - 1)))))
        ∧ (left = [] → s.dstCap.toNat < out.length → exec .unpack s =
          .next (failedWith s .dstOverflow (BitVec.ofNat 32 (min out.length (2 ^ 32 - 1)))))))

/-- R192, R194: the greedy walk: what it emits, with what it leaves over, spells the bits it read; every
symbol emitted has a code, of which no proper prefix is a code (the shorter code matches first, also
over a table that is not prefix-free); and no prefix of what is left over is a code. -/
def Obligations.GreedyWalkSpellsItsInput : Prop :=
  ∀ (ct : CodeTable) (bits : Bits) (out : List Byte) (left : Bits),
    greedy (codeBook ct) [] bits = (out, left) →
    payload ct out ++ left = bits ∧ (∀ x ∈ out, HasCode ct x)
      ∧ (∀ x ∈ out, ∀ y, HasCode ct y → codeOf ct y <+: codeOf ct x → codeOf ct y = codeOf ct x)
      ∧ ∀ x, HasCode ct x → ¬ codeOf ct x <+: left

/-- R197: the p dropped bits of the last body byte may hold any values. -/
def Obligations.PaddingBitsAreIgnored : Prop :=
  ∀ (ct : CodeTable) (p : Byte) (body : List Byte) (b b' : Byte) (cap : Word), p.toNat ≤ 7 →
    b.toNat / 2 ^ p.toNat = b'.toNat / 2 ^ p.toNat →
    unpackWith ct p (body ++ [b]) cap = unpackWith ct p (body ++ [b']) cap

/-- R198: the round trip: unpacking what a successful PACK or COMPRESS wrote, with the same prefix-free
table, restores the source bytes, their number, and the PAD of the PACK. -/
def Obligations.PackThenUnpackRestoresTheSource : Prop :=
  ∀ (i : Instr) (s t u : State), i ∈ [Instr.pack, .compress] → exec i s = .next t →
    t.err = .noError → ConflictFree t.codes → PrefixFree t.codes →
    Memory.wf s.dmem = true → Memory.wf u.dmem = true →
    u.codes = t.codes → u.srcAddr = s.dstAddr → u.srcLen = t.outLen →
    Memory.readRange u.dmem s.dstAddr.toNat t.outLen.toNat
      = Memory.readRange t.dmem s.dstAddr.toNat t.outLen.toNat →
    u.BuffersOk → s.srcLen.toNat ≤ u.dstCap.toNat →
    ∃ v, exec .unpack u = .next v ∧ Completed v ∧ v.outLen = s.srcLen ∧ v.pad = t.pad
      ∧ Memory.readRange v.dmem u.dstAddr.toNat s.srcLen.toNat = s.sourceBytes

/-! ### COMPRESS -/

/-- R210: COMPRESS of a non-empty source with sound ranges is ANALYZE, BUILD_TREE, GEN_CODES and PACK in
sequence: when those four succeed it ends in the very state they end in, and when the PACK overflows
it ends with that error and nothing else changed. That the two states agree also in the draw counter
and in the NODE records at and past NODE_COUNT, which the spec leaves unspecified, is the model's choice
(log entries 1 and 14) and no rule of the spec. -/
def Obligations.CompressIsThePipeline : Prop :=
  ∀ s s₁ s₂ s₃ t : State, s.BuffersOk → s.srcLen ≠ 0 →
    exec .analyze s = .next s₁ → exec .buildTree s₁ = .next s₂ → exec .genCodes s₂ = .next s₃ →
    exec .pack s₃ = .next t →
    (t.err = .noError → exec .compress s = .next t)
    ∧ (t.err ≠ .noError → exec .compress s = .next (failedWith s t.err t.errInfo))

/-- R210: with sound ranges, a non-empty source and a destination with room for 255 bits a byte,
COMPRESS completes: exact counts, a tree of as many leaves as there are distinct bytes, prefix-free
codes for exactly those bytes, and the packed form of the source with them. -/
def Obligations.CompressCompletes : Prop :=
  ∀ s : State, s.BuffersOk → s.srcLen ≠ 0 → Memory.wf s.dmem = true →
    1 + (255 * s.srcLen.toNat + 7) / 8 ≤ s.dstCap.toNat →
    ∃ t, exec .compress s = .next t ∧ Completed t ∧ t.treeValid = true ∧ t.HoldsTree t.nsym
      ∧ (∀ x, (lookup t.freq x).toNat = s.sourceCount x)
      ∧ (∀ x, HasCode t.codes x ↔ s.sourceCount x ≠ 0) ∧ PrefixFree t.codes
      ∧ t.outLen.toNat = 1 + ((payload t.codes s.sourceBytes).length + 7) / 8
      ∧ t.pad.toNat = (8 - (payload t.codes s.sourceBytes).length % 8) % 8
      ∧ (Memory.read t.dmem s.dstAddr.toNat).toNat = t.pad.toNat
      ∧ bitsOfBytes (Memory.readRange t.dmem (s.dstAddr.toNat + 1) (t.outLen.toNat - 1))
          = payload t.codes s.sourceBytes ++ List.replicate t.pad.toNat false
      ∧ KeepsMemoryOutside s.dstAddr.toNat t.outLen.toNat s t
      ∧ KeepsControls s t ∧ KeepsHost s t

/-- R211: COMPRESS of an empty source: no byte written, OUT_LEN = 0, PAD = 0, every table empty, the tree
discarded, and no error. -/
def Obligations.CompressOfNothingEmptiesTheTables : Prop :=
  ∀ s : State, s.srcLen = 0 → RangeOk s.dmemSize s.dstAddr s.dstCap →
    ∃ t, exec .compress s = .next t ∧ Completed t ∧ t.dmem = s.dmem ∧ t.outLen = 0 ∧ t.pad = 0
      ∧ (∀ x, lookup t.codes x = { len := 0, bits := 0 }) ∧ t.ncode = 0
      ∧ (∀ x, lookup t.freq x = 0) ∧ t.treeValid = false ∧ t.nodeCount = 0
      ∧ KeepsControls s t ∧ KeepsHost s t

/-- R198 with R210: the round trip of COMPRESS, with no premise on the codes: unpacking what a successful
COMPRESS wrote, with the code table it left, restores the source. -/
def Obligations.CompressThenUnpackRestoresTheSource : Prop :=
  ∀ s t u : State, exec .compress s = .next t → t.err = .noError →
    Memory.wf s.dmem = true → Memory.wf u.dmem = true →
    u.codes = t.codes → u.srcAddr = s.dstAddr → u.srcLen = t.outLen →
    Memory.readRange u.dmem s.dstAddr.toNat t.outLen.toNat
      = Memory.readRange t.dmem s.dstAddr.toNat t.outLen.toNat →
    u.BuffersOk → s.srcLen.toNat ≤ u.dstCap.toNat →
    ∃ v, exec .unpack u = .next v ∧ Completed v ∧ v.outLen = s.srcLen ∧ v.pad = t.pad
      ∧ Memory.readRange v.dmem u.dstAddr.toNat s.srcLen.toNat = s.sourceBytes

/-! ### The host syntax -/

/-- R107 with log entry 6 (host variables are numbers, and WAIT is one operation that polls): what each
statement is as bus accesses, and a program is its statements in order. R108: the pseudo-statements
expand exactly as the rule says. -/
def Obligations.HostStatementsAreTheirAccesses : Prop :=
  (∀ (r : RegName) (v : Word), programOps [.wr r v] = [.access (.regWrite 32 r.offset v)])
  ∧ (∀ (r : RegName) (t : Nat), programOps [.rd r t] = [.access (.regRead 32 r.offset t)])
  ∧ (∀ i : Instr, programOps [.cmd i] = [.access (.regWrite 32 0x10 (encode i))])
  ∧ programOps [.wait] = [.wait]
  ∧ (∀ (a : Nat) (bytes : List Byte) (k : Nat), (programOps [.memw a bytes])[k]?
      = (bytes[k]?).map fun b => .access (.memWrite (a + k) b))
  ∧ (∀ a n t k : Nat, (programOps [.memr a n t])[k]?
      = if k < n then some (.access (.memRead (a + k) t)) else none)
  ∧ (∀ p q : List Stmt, programOps (p ++ q) = programOps p ++ programOps q)
  ∧ (∀ i, programOps [.run i] = programOps [.cmd i, .wait])
  ∧ (∀ a n b m, programOps [.setbuf a n b m]
      = programOps [.wr .srcAddr a, .wr .srcLen n, .wr .dstAddr b, .wr .dstCap m])
  ∧ (∀ (sym : Symbol) (len w0 : Word) (more : List Word),
      (Stmt.setcode sym len w0 more).wf = true →
      programOps [.setcode sym len w0 more] = programOps ([.wr .ctSel (sym.setWidth 32)]
        ++ (List.range (more.length + 1)).map
            (fun k => .wr (.ctBits (BitVec.ofNat 3 k)) (((w0 :: more)[k]?).getD 0))
        ++ [.wr .ctLen len]))
  ∧ (∀ (sym : Symbol) (tL tw : Nat), programOps [.getcode sym tL tw]
      = programOps [.wr .ctSel (sym.setWidth 32), .rd .ctLen tL, .rd (.ctBits 0) tw])
  ∧ (∀ (sym : Symbol) (n : Word), programOps [.setfreq sym n]
      = programOps [.wr .fqSel (sym.setWidth 32), .wr .fqData n])

/-- R107 with log entry 6: WAIT polls STATUS: while BUSY = 1 it stays in the program, and the poll that
reads BUSY = 0 ends it. R128 with log entries 15 and 20: a run ends where the HOST has performed its
last statement and BUSY = 0, or at a host fault, which its final state records; its final state is what
the registers read, the tables, DMEM and the recorded faults at that point; and no step but a reset
changes it any more. -/
def Obligations.WaitPollsUntilIdleThenTheRunEnds : Prop :=
  (∀ (s : State) (rest : List HostOp), s.hostDoes .wait rest →
    step s = .next { s.dropTurn with
      hostProg := if s.busy then .wait :: rest else rest
      hostLog := (waitVar, readReg .status s) :: s.hostLog })
  ∧ (∀ (s : State) (k : Nat),
    (s.hostProg = [] → s.busy = false → runProgram k s = .ended (s.finalState []))
    ∧ ((s.hostProg ≠ [] ∨ s.busy = true) → runProgram 0 s = .running s
      ∧ (∀ t, step s = .next t → runProgram (k + 1) s = runProgram k t)
      ∧ ∀ f, step s = .fault f → runProgram (k + 1) s = .ended (s.finalState [f])))
  ∧ (∀ (s : State) (fs : List Fault), (s.finalState fs).freq = s.freq
    ∧ (s.finalState fs).codes = s.codes ∧ (s.finalState fs).dmem = s.dmem
    ∧ (s.finalState fs).faults = fs
    ∧ (∀ (r : RegName) (w : Word), (r, w) ∈ (s.finalState fs).registers ↔
        r.offset.toNat < 0x80 ∧ w = readReg r s)
    ∧ (s.finalState fs).nodes.length = (readReg .nodeCount s).toNat
    ∧ ∀ i, i < (readReg .nodeCount s).toNat → (s.finalState fs).nodes[i]? = some (nodeAt s.arena i))
  ∧ (∀ (s t : State) (fs : List Fault), s.hostProg = [] → s.busy = false → s.nextTurn ≠ .reset →
    step s = .next t →
    t.hostProg = [] ∧ t.busy = false ∧ t.finalState fs = s.finalState fs)

/-! ### The invariant -/

/-- R7, R44, R80, R153, R154: every step keeps the invariant: DMEM_SIZE in range, DMEM canonical and only
at addresses that exist, and the tree registers sound: TREE_VALID = 1 only with a built tree in the
arena, ROOT and NODE_COUNT 0 otherwise. -/
def Obligations.EveryStepKeepsTheInvariant : Prop :=
  ∀ s t : State, s.Inv → step s = .next t → t.Inv
end

