-- ==== Sys2Proof/Laws/Bits.lean ====
section
/-! SUPPORT. Laws of bit-strings: bytes and their bits, left-aligned code storage and its words, and the padding count. -/

namespace Sys2Proof.Machine

theorem natOfBits_foldl (c : Bits) (n : Nat) :
    c.foldl (fun n b => 2 * n + b.toNat) n = n * 2 ^ c.length + natOfBits c := by
  induction c generalizing n with
  | nil => simp [natOfBits]
  | cons b c ih =>
    simp only [natOfBits, List.foldl_cons, List.length_cons]
    rw [ih, ih (2 * 0 + b.toNat), pow_succ]
    ring

@[simp] theorem natOfBits_nil : natOfBits [] = 0 := rfl

theorem natOfBits_cons (b : Bool) (c : Bits) :
    natOfBits (b :: c) = b.toNat * 2 ^ c.length + natOfBits c := by
  rw [natOfBits, List.foldl_cons, natOfBits_foldl]; simp

theorem natOfBits_lt (c : Bits) : natOfBits c < 2 ^ c.length := by
  induction c with
  | nil => simp
  | cons b c ih =>
    rw [natOfBits_cons, List.length_cons, pow_succ]
    have : b.toNat ≤ 1 := Bool.toNat_le b
    nlinarith [Nat.mul_le_mul_right (2 ^ c.length) this]

/-- Bit `i` from the least significant end of the number a bit-string spells. -/
theorem testBit_natOfBits (c : Bits) (i : Nat) (h : i < c.length) :
    (natOfBits c).testBit i = (c)[c.length - 1 - i] := by
  induction c with
  | nil => simp at h
  | cons b c ih =>
    rw [natOfBits_cons, Nat.mul_comm]
    by_cases hi : i < c.length
    · rw [Nat.testBit_two_pow_mul_add _ (natOfBits_lt c), if_pos hi, ih hi]
      rw [List.getElem_cons, dif_neg (by simp; omega)]
      congr 1; simp; omega
    · have hi' : i = c.length := by simp at h; omega
      subst hi'
      rw [Nat.testBit_two_pow_mul_add _ (natOfBits_lt c)]
      cases b <;> simp

@[simp] theorem length_bits8 (x : Byte) : (bits8 x).length = 8 := by simp [bits8]

/-- `byte8` undoes `bits8` (R11). -/
theorem byte8_bits8 (x : Byte) : byte8 (bits8 x) = x := by
  apply BitVec.eq_of_getLsbD_eq
  intro i hi
  rw [byte8, BitVec.getLsbD_ofNat, testBit_natOfBits _ _ (by simpa using hi)]
  simp only [hi, decide_true, Bool.true_and, length_bits8]
  simp only [bits8, List.getElem_map, List.getElem_range, BitVec.getMsbD]
  rw [show 8 - 1 - (8 - 1 - i) = i by omega]
  simp; omega

/-- `bits8` undoes `byte8` on 8-bit strings (R11). -/
theorem bits8_byte8 (c : Bits) (h : c.length = 8) : bits8 (byte8 c) = c := by
  apply List.ext_getElem
  · simp [h]
  · intro i h₁ h₂
    simp only [bits8, List.getElem_map, List.getElem_range, byte8, BitVec.getMsbD,
      BitVec.getLsbD_ofNat]
    have hi : i < 8 := by omega
    rw [testBit_natOfBits _ _ (by omega)]
    simp only [h]
    have : 8 - 1 - (8 - 1 - i) = i := by omega
    simp only [this, show 8 - 1 - i < 8 by omega, hi, decide_true, Bool.true_and]

theorem bitsOfBytes_cons (x : Byte) (xs : List Byte) :
    bitsOfBytes (x :: xs) = bits8 x ++ bitsOfBytes xs := by simp [bitsOfBytes]

@[simp] theorem length_bitsOfBytes (xs : List Byte) : (bitsOfBytes xs).length = 8 * xs.length := by
  induction xs with
  | nil => rfl
  | cons x xs ih => simp [bitsOfBytes_cons, ih]; omega

/-- Splitting into bytes and expanding again loses nothing when the length is a multiple of 8 (R82). -/
theorem bitsOfBytes_bytesOfBits (c : Bits) (h : 8 ∣ c.length) : bitsOfBytes (bytesOfBits c) = c := by
  induction c using bytesOfBits.induct with
  | case1 b0 b1 b2 b3 b4 b5 b6 b7 rest ih =>
    have hr : 8 ∣ rest.length := by simp at h; omega
    rw [bytesOfBits, bitsOfBytes_cons, ih hr, bits8_byte8 _ rfl]
    rfl
  | case2 c hne =>
    have hlen : c.length < 8 := by
      by_contra hc
      match c, hc with
      | b0 :: b1 :: b2 :: b3 :: b4 :: b5 :: b6 :: b7 :: rest, _ =>
        exact hne b0 b1 b2 b3 b4 b5 b6 b7 rest rfl
      | [], hc | [_], hc | [_, _], hc | [_, _, _], hc | [_, _, _, _], hc | [_, _, _, _, _], hc
      | [_, _, _, _, _, _], hc | [_, _, _, _, _, _, _], hc => simp at hc
    have h0 : c.length = 0 := by omega
    rw [List.length_eq_zero_iff] at h0
    subst h0
    simp [bytesOfBits, bitsOfBytes]

theorem length_bytesOfBits (c : Bits) : (bytesOfBits c).length = c.length / 8 := by
  induction c using bytesOfBits.induct with
  | case1 b0 b1 b2 b3 b4 b5 b6 b7 rest ih => rw [bytesOfBits]; simp [ih]; omega
  | case2 c hne =>
    have hlen : c.length < 8 := by
      by_contra hc
      match c, hc with
      | b0 :: b1 :: b2 :: b3 :: b4 :: b5 :: b6 :: b7 :: rest, _ =>
        exact hne b0 b1 b2 b3 b4 b5 b6 b7 rest rfl
      | [], hc | [_], hc | [_, _], hc | [_, _, _], hc | [_, _, _, _], hc | [_, _, _, _, _], hc
      | [_, _, _, _, _, _], hc | [_, _, _, _, _, _, _], hc => simp at hc
    rw [bytesOfBits]
    · simp; omega
    · exact hne

/-- Bit `j` of the stored bits of a left-aligned code (R51): the code's bit, and 0 past its end (R170). -/
theorem getMsbD_leftAlign (c : Bits) (j : Nat) (hc : c.length ≤ 256) (hj : j < 256) :
    (leftAlign c).getMsbD j = ((c)[j]?).getD false := by
  rw [leftAlign, BitVec.getMsbD, BitVec.getLsbD_ofNat, Nat.mul_comm, Nat.testBit_two_pow_mul]
  by_cases h : j < c.length
  · have h1 : 256 - c.length ≤ 256 - 1 - j := by omega
    rw [testBit_natOfBits _ _ (by omega)]
    have h2 : c.length - 1 - (256 - 1 - j - (256 - c.length)) = j := by omega
    simp only [h2, h1, hj, decide_true, Bool.true_and, List.getElem?_eq_getElem h, Option.getD_some]
    simp; omega
  · have h1 : ¬ 256 - c.length ≤ 256 - 1 - j := by omega
    simp [h1, List.getElem?_eq_none (Nat.not_lt.1 h)]

/-- Storing a code of 1 to 255 bits and reading it back gives the code (R51, R172). -/
theorem code_ofBits (c : Bits) (h : c.length ≤ 255) : (CodeEntry.ofBits c).code = c := by
  have hl : (BitVec.ofNat 8 c.length).toNat = c.length := by
    simp; omega
  apply List.ext_getElem
  · simp [CodeEntry.code, CodeEntry.ofBits]; omega
  · intro i h₁ h₂
    simp only [CodeEntry.code, CodeEntry.ofBits, List.getElem_map, List.getElem_range]
    rw [getMsbD_leftAlign c i (by omega) (by omega), List.getElem?_eq_getElem h₂, Option.getD_some]

@[simp] theorem length_code (e : CodeEntry) : e.code.length = e.len.toNat := by simp [CodeEntry.code]

/-- Bit j of an entry is bit `31 - (j mod 32)` of word `j div 32` (R51). -/
theorem getMsbD_eq_word (e : CodeEntry) (j : Nat) (hj : j < 256) :
    e.bits.getMsbD j = (e.word (BitVec.ofNat 3 (j / 32))).getLsbD (31 - j % 32) := by
  have h8 : j / 32 < 8 := by omega
  rw [CodeEntry.word, BitVec.getLsbD_extractLsb', BitVec.getMsbD]
  have h1 : (BitVec.ofNat 3 (j / 32)).toNat = j / 32 := by simp; omega
  rw [h1]
  have h2 : 224 - 32 * (j / 32) + (31 - j % 32) = 256 - 1 - j := by omega
  have h3 : 31 - j % 32 < 32 := by omega
  simp [h2, hj]; omega

/-- The bits stored past a code's length are 0 (R170). -/
theorem getMsbD_ofBits_past (c : Bits) {j : Nat} (hc : c.length ≤ 256) (h : c.length ≤ j) (hj : j < 256) :
    (CodeEntry.ofBits c).bits.getMsbD j = false := by
  rw [CodeEntry.ofBits, getMsbD_leftAlign c j hc hj, List.getElem?_eq_none h]
  rfl

/-- Every padding count is below 8 (R183). -/
theorem padCount_lt (n : Nat) : padCount n < 8 := by unfold padCount; omega

/-- Padding reaches a byte boundary (R183). -/
theorem padCount_dvd (n : Nat) : 8 ∣ n + padCount n := by unfold padCount; omega

end Sys2Proof.Machine
end

