-- ==== Sys2Proof/Laws/Memory.lean ====
section
/-! SUPPORT. Laws of DMEM: a read after a write, what a write leaves alone, and the canonical form, which every operation keeps. -/

namespace Sys2Proof.Machine

theorem Memory.read_cons (k : Nat) (x : Byte) (m : Memory) (a : Nat) :
    Memory.read ((k, x) :: m) a = if a = k then x else Memory.read m a := rfl

theorem Memory.wf_tail {c : Host.Cell} {m : Memory} (h : Memory.wf (c :: m) = true) : Memory.wf m = true := by
  cases m with
  | nil => rfl
  | cons c' m => obtain ⟨k, v⟩ := c; obtain ⟨k', v'⟩ := c'; simp_all [Memory.wf]

/-- In a canonical memory every later address is above the first. -/
theorem Memory.head_lt {k : Nat} {v : Byte} {m : Memory} (h : Memory.wf ((k, v) :: m) = true) :
    ∀ c ∈ m, k < c.1 := by
  induction m generalizing k v with
  | nil => simp
  | cons c m ih =>
    obtain ⟨k', v'⟩ := c
    have hk : k < k' := by simp_all [Memory.wf]
    intro c hc
    rcases List.mem_cons.1 hc with rfl | hc
    · exact hk
    · exact hk.trans (ih (Memory.wf_tail h) c hc)

/-- A memory reads as unlisted at an address it does not list. -/
theorem Memory.read_of_unlisted {m : Memory} {a : Nat} (h : ∀ c ∈ m, c.1 ≠ a) :
    Memory.read m a = unlistedByte := by
  induction m with
  | nil => rfl
  | cons c m ih =>
    obtain ⟨k, v⟩ := c
    have hk : a ≠ k := fun e => h (k, v) (by simp) e.symm
    rw [Memory.read_cons, if_neg hk, ih fun c hc => h c (by simp [hc])]

/-- A write leaves every other byte alone. -/
theorem Memory.read_write_of_ne {m : Memory} {a b : Nat} (v : Byte) (h : b ≠ a) :
    Memory.read (Memory.write m a v) b = Memory.read m b := by
  induction m with
  | nil => by_cases hv : v = unlistedByte <;> simp [Memory.write, Memory.read, hv, h]
  | cons c m ih =>
    obtain ⟨k, x⟩ := c
    unfold Memory.write
    split
    · split <;> simp [Memory.read_cons, h]
    · split
      · rename_i hak; subst hak
        split <;> simp [Memory.read_cons, h]
      · simp [Memory.read_cons, ih]

/-- A read after a write to the same byte gives the byte written. -/
theorem Memory.read_write_self {m : Memory} (hm : Memory.wf m = true) (a : Nat) (v : Byte) :
    Memory.read (Memory.write m a v) a = v := by
  induction m with
  | nil => by_cases hv : v = unlistedByte <;> simp [Memory.write, Memory.read, hv]
  | cons c m ih =>
    obtain ⟨k, x⟩ := c
    have hlt := Memory.head_lt hm
    unfold Memory.write
    split
    · rename_i hak
      split
      · rename_i hv
        rw [hv]
        refine Memory.read_of_unlisted fun c hc => ?_
        rcases List.mem_cons.1 hc with rfl | hc
        · exact Nat.ne_of_gt hak
        · exact Nat.ne_of_gt (hak.trans (hlt c hc))
      · simp [Memory.read_cons]
    · split
      · rename_i hak; subst hak
        split
        · rename_i hv
          rw [hv]
          exact Memory.read_of_unlisted fun c hc => Nat.ne_of_gt (hlt c hc)
        · simp [Memory.read_cons]
      · rename_i hne
        simp [Memory.read_cons, hne, ih (Memory.wf_tail hm)]

/-- A read after a write. -/
theorem Memory.read_write {m : Memory} (hm : Memory.wf m = true) (a b : Nat) (v : Byte) :
    Memory.read (Memory.write m a v) b = if b = a then v else Memory.read m b := by
  split
  · rename_i h; rw [h, Memory.read_write_self hm]
  · rename_i h; exact Memory.read_write_of_ne v h

/-- Every address a write lists was listed before or is the one written. -/
theorem Memory.mem_write {m : Memory} {a : Nat} {v : Byte} {c : Host.Cell}
    (h : c ∈ Memory.write m a v) : c ∈ m ∨ c = (a, v) := by
  induction m with
  | nil => by_cases hv : v = unlistedByte <;> simp_all [Memory.write]
  | cons d m ih =>
    obtain ⟨k, x⟩ := d
    unfold Memory.write at h
    split at h
    · split at h
      · exact .inl h
      · rcases List.mem_cons.1 h with h | h
        · exact .inr h
        · exact .inl h
    · split at h
      · split at h
        · exact .inl (by simp [h])
        · rcases List.mem_cons.1 h with h | h
          · exact .inr h
          · exact .inl (by simp [h])
      · rcases List.mem_cons.1 h with h | h
        · exact .inl (by simp [h])
        · rcases ih h with h | h
          · exact .inl (by simp [h])
          · exact .inr h

/-- The canonical form, for a memory with a first entry. -/
theorem Memory.wf_cons_iff {k : Nat} {v : Byte} {m : Memory} :
    Memory.wf ((k, v) :: m) = true ↔ v ≠ unlistedByte ∧ (∀ c ∈ m, k < c.1) ∧ Memory.wf m = true := by
  constructor
  · intro h
    refine ⟨?_, Memory.head_lt h, Memory.wf_tail h⟩
    cases m with
    | nil => simpa [Memory.wf] using h
    | cons c m => obtain ⟨k', v'⟩ := c; simp_all [Memory.wf]
  · rintro ⟨hv, hk, hm⟩
    cases m with
    | nil => simpa [Memory.wf] using hv
    | cons c m => obtain ⟨k', v'⟩ := c; simp_all [Memory.wf]

/-- A write keeps the canonical form. -/
theorem Memory.write_wf {m : Memory} (hm : Memory.wf m = true) (a : Nat) (v : Byte) :
    Memory.wf (Memory.write m a v) = true := by
  induction m with
  | nil => by_cases hv : v = unlistedByte <;> simp [Memory.write, Memory.wf, hv]
  | cons c m ih =>
    obtain ⟨k, x⟩ := c
    obtain ⟨hx, hk, hm'⟩ := Memory.wf_cons_iff.1 hm
    unfold Memory.write
    split
    · rename_i hak
      split
      · exact hm
      · rename_i hv
        refine Memory.wf_cons_iff.2 ⟨hv, fun c hc => ?_, hm⟩
        rcases List.mem_cons.1 hc with rfl | hc
        · exact hak
        · exact hak.trans (hk c hc)
    · split
      · rename_i hak; subst hak
        split
        · exact hm'
        · rename_i hv; exact Memory.wf_cons_iff.2 ⟨hv, hk, hm'⟩
      · refine Memory.wf_cons_iff.2 ⟨hx, fun c hc => ?_, ih hm'⟩
        rcases Memory.mem_write hc with hc | rfl
        · exact hk c hc
        · show k < a; omega

theorem Memory.writeRange_wf {m : Memory} (hm : Memory.wf m = true) (a : Nat) (bs : List Byte) :
    Memory.wf (Memory.writeRange m a bs) = true := by
  induction bs generalizing m a with
  | nil => exact hm
  | cons b bs ih => exact ih (Memory.write_wf hm a b) (a + 1)

/-- Writing a range leaves every byte outside it alone. -/
theorem Memory.read_writeRange_of_outside {m : Memory} {a b : Nat} {bs : List Byte}
    (h : b < a ∨ a + bs.length ≤ b) :
    Memory.read (Memory.writeRange m a bs) b = Memory.read m b := by
  induction bs generalizing m a with
  | nil => rfl
  | cons x bs ih =>
    simp only [List.length_cons] at h
    rw [Memory.writeRange, ih (by omega), Memory.read_write_of_ne _ (by omega)]

/-- A read inside a range just written gives the byte written there. -/
theorem Memory.read_writeRange_inside {m : Memory} (hm : Memory.wf m = true) {a i : Nat}
    {bs : List Byte} (h : i < bs.length) :
    Memory.read (Memory.writeRange m a bs) (a + i) = bs[i] := by
  induction bs generalizing m a i with
  | nil => simp at h
  | cons x bs ih =>
    rw [Memory.writeRange]
    cases i with
    | zero =>
      rw [Memory.read_writeRange_of_outside (by omega)]
      simpa using Memory.read_write_self hm a x
    | succ i =>
      have hi : i < bs.length := by simpa using h
      have := ih (Memory.write_wf hm a x) (a := a + 1) hi
      rw [show a + (i + 1) = a + 1 + i by omega, this]
      simp

/-- Every address listed after writing a range was listed before or lies in the range. -/
theorem Memory.mem_writeRange {m : Memory} {a : Nat} {bs : List Byte} {c : Host.Cell}
    (h : c ∈ Memory.writeRange m a bs) : c ∈ m ∨ (a ≤ c.1 ∧ c.1 < a + bs.length) := by
  induction bs generalizing m a with
  | nil => exact .inl h
  | cons x bs ih =>
    rcases ih h with h | h
    · rcases Memory.mem_write h with h | rfl
      · exact .inl h
      · right; simp
    · right; simp only [List.length_cons]; omega

@[simp] theorem Memory.length_readRange (m : Memory) (a n : Nat) :
    (Memory.readRange m a n).length = n := by simp [Memory.readRange]

theorem Memory.getElem_readRange (m : Memory) (a n i : Nat) (h : i < (Memory.readRange m a n).length) :
    (Memory.readRange m a n)[i] = Memory.read m (a + i) := by simp [Memory.readRange]

/-- Two memories that agree on a range read the same range. -/
theorem Memory.readRange_congr {m m' : Memory} {a n : Nat}
    (h : ∀ x, a ≤ x → x < a + n → Memory.read m x = Memory.read m' x) :
    Memory.readRange m a n = Memory.readRange m' a n := by
  unfold Memory.readRange
  refine List.map_congr_left fun i hi => h _ (by omega) ?_
  have := List.mem_range.1 hi
  omega

/-- Reading a range just written gives the bytes written. -/
theorem Memory.readRange_writeRange {m : Memory} (hm : Memory.wf m = true) (a : Nat) (bs : List Byte) :
    Memory.readRange (Memory.writeRange m a bs) a bs.length = bs := by
  apply List.ext_getElem
  · simp
  · intro i h₁ h₂
    rw [Memory.getElem_readRange, Memory.read_writeRange_inside hm h₂]

end Sys2Proof.Machine
end

