-- ==== Sys2Proof/Laws/State.lean ====
section
/-! SUPPORT. What each field of the state is after each named update: one lemma per field per update, each true by unfolding the update. -/

namespace Sys2Proof.Machine

variable (s : State)

/-! Acceptance (R121): `State.accept`. -/

@[simp] theorem State.accept_pending (w : Word) : (s.accept w).pending = some w := rfl
@[simp] theorem State.accept_irqEn (w : Word) : (s.accept w).irqEn = s.irqEn := rfl
@[simp] theorem State.accept_done (w : Word) : (s.accept w).done = false := rfl
@[simp] theorem State.accept_cmdOvr (w : Word) : (s.accept w).cmdOvr = s.cmdOvr := rfl
@[simp] theorem State.accept_wrIgn (w : Word) : (s.accept w).wrIgn = s.wrIgn := rfl
@[simp] theorem State.accept_treeValid (w : Word) : (s.accept w).treeValid = s.treeValid := rfl
@[simp] theorem State.accept_err (w : Word) : (s.accept w).err = .noError := rfl
@[simp] theorem State.accept_errInfo (w : Word) : (s.accept w).errInfo = 0 := rfl
@[simp] theorem State.accept_srcAddr (w : Word) : (s.accept w).srcAddr = s.srcAddr := rfl
@[simp] theorem State.accept_srcLen (w : Word) : (s.accept w).srcLen = s.srcLen := rfl
@[simp] theorem State.accept_dstAddr (w : Word) : (s.accept w).dstAddr = s.dstAddr := rfl
@[simp] theorem State.accept_dstCap (w : Word) : (s.accept w).dstCap = s.dstCap := rfl
@[simp] theorem State.accept_outLen (w : Word) : (s.accept w).outLen = s.outLen := rfl
@[simp] theorem State.accept_pad (w : Word) : (s.accept w).pad = s.pad := rfl
@[simp] theorem State.accept_freq (w : Word) : (s.accept w).freq = s.freq := rfl
@[simp] theorem State.accept_fqSel (w : Word) : (s.accept w).fqSel = s.fqSel := rfl
@[simp] theorem State.accept_arena (w : Word) : (s.accept w).arena = s.arena := rfl
@[simp] theorem State.accept_root (w : Word) : (s.accept w).root = s.root := rfl
@[simp] theorem State.accept_nodeCount (w : Word) : (s.accept w).nodeCount = s.nodeCount := rfl
@[simp] theorem State.accept_nodeSel (w : Word) : (s.accept w).nodeSel = s.nodeSel := rfl
@[simp] theorem State.accept_codes (w : Word) : (s.accept w).codes = s.codes := rfl
@[simp] theorem State.accept_ctSel (w : Word) : (s.accept w).ctSel = s.ctSel := rfl
@[simp] theorem State.accept_dmem (w : Word) : (s.accept w).dmem = s.dmem := rfl
@[simp] theorem State.accept_dmemSize (w : Word) : (s.accept w).dmemSize = s.dmemSize := rfl
@[simp] theorem State.accept_hostProg (w : Word) : (s.accept w).hostProg = s.hostProg := rfl
@[simp] theorem State.accept_hostLog (w : Word) : (s.accept w).hostLog = s.hostLog := rfl
@[simp] theorem State.accept_sched (w : Word) : (s.accept w).sched = s.sched := rfl
@[simp] theorem State.accept_draws (w : Word) : (s.accept w).draws = s.draws := rfl

/-! Completion (R124): `State.finish`. -/

@[simp] theorem State.finish_pending (e : ErrCode) (i : Word) : (s.finish e i).pending = none := rfl
@[simp] theorem State.finish_irqEn (e : ErrCode) (i : Word) : (s.finish e i).irqEn = s.irqEn := rfl
@[simp] theorem State.finish_done (e : ErrCode) (i : Word) : (s.finish e i).done = true := rfl
@[simp] theorem State.finish_cmdOvr (e : ErrCode) (i : Word) : (s.finish e i).cmdOvr = s.cmdOvr := rfl
@[simp] theorem State.finish_wrIgn (e : ErrCode) (i : Word) : (s.finish e i).wrIgn = s.wrIgn := rfl
@[simp] theorem State.finish_treeValid (e : ErrCode) (i : Word) :
    (s.finish e i).treeValid = s.treeValid := rfl
@[simp] theorem State.finish_err (e : ErrCode) (i : Word) : (s.finish e i).err = e := rfl
@[simp] theorem State.finish_errInfo (e : ErrCode) (i : Word) : (s.finish e i).errInfo = i := rfl
@[simp] theorem State.finish_srcAddr (e : ErrCode) (i : Word) : (s.finish e i).srcAddr = s.srcAddr := rfl
@[simp] theorem State.finish_srcLen (e : ErrCode) (i : Word) : (s.finish e i).srcLen = s.srcLen := rfl
@[simp] theorem State.finish_dstAddr (e : ErrCode) (i : Word) : (s.finish e i).dstAddr = s.dstAddr := rfl
@[simp] theorem State.finish_dstCap (e : ErrCode) (i : Word) : (s.finish e i).dstCap = s.dstCap := rfl
@[simp] theorem State.finish_outLen (e : ErrCode) (i : Word) : (s.finish e i).outLen = s.outLen := rfl
@[simp] theorem State.finish_pad (e : ErrCode) (i : Word) : (s.finish e i).pad = s.pad := rfl
@[simp] theorem State.finish_freq (e : ErrCode) (i : Word) : (s.finish e i).freq = s.freq := rfl
@[simp] theorem State.finish_fqSel (e : ErrCode) (i : Word) : (s.finish e i).fqSel = s.fqSel := rfl
@[simp] theorem State.finish_arena (e : ErrCode) (i : Word) : (s.finish e i).arena = s.arena := rfl
@[simp] theorem State.finish_root (e : ErrCode) (i : Word) : (s.finish e i).root = s.root := rfl
@[simp] theorem State.finish_nodeCount (e : ErrCode) (i : Word) :
    (s.finish e i).nodeCount = s.nodeCount := rfl
@[simp] theorem State.finish_nodeSel (e : ErrCode) (i : Word) : (s.finish e i).nodeSel = s.nodeSel := rfl
@[simp] theorem State.finish_codes (e : ErrCode) (i : Word) : (s.finish e i).codes = s.codes := rfl
@[simp] theorem State.finish_ctSel (e : ErrCode) (i : Word) : (s.finish e i).ctSel = s.ctSel := rfl
@[simp] theorem State.finish_dmem (e : ErrCode) (i : Word) : (s.finish e i).dmem = s.dmem := rfl
@[simp] theorem State.finish_dmemSize (e : ErrCode) (i : Word) : (s.finish e i).dmemSize = s.dmemSize := rfl
@[simp] theorem State.finish_hostProg (e : ErrCode) (i : Word) : (s.finish e i).hostProg = s.hostProg := rfl
@[simp] theorem State.finish_hostLog (e : ErrCode) (i : Word) : (s.finish e i).hostLog = s.hostLog := rfl
@[simp] theorem State.finish_sched (e : ErrCode) (i : Word) : (s.finish e i).sched = s.sched := rfl
@[simp] theorem State.finish_draws (e : ErrCode) (i : Word) : (s.finish e i).draws = s.draws := rfl

/-! Writing FREQ: `State.setFreq`. -/

@[simp] theorem State.setFreq_pending (f : FreqTable) : (s.setFreq f).pending = s.pending := rfl
@[simp] theorem State.setFreq_irqEn (f : FreqTable) : (s.setFreq f).irqEn = s.irqEn := rfl
@[simp] theorem State.setFreq_done (f : FreqTable) : (s.setFreq f).done = s.done := rfl
@[simp] theorem State.setFreq_cmdOvr (f : FreqTable) : (s.setFreq f).cmdOvr = s.cmdOvr := rfl
@[simp] theorem State.setFreq_wrIgn (f : FreqTable) : (s.setFreq f).wrIgn = s.wrIgn := rfl
@[simp] theorem State.setFreq_treeValid (f : FreqTable) : (s.setFreq f).treeValid = s.treeValid := rfl
@[simp] theorem State.setFreq_err (f : FreqTable) : (s.setFreq f).err = s.err := rfl
@[simp] theorem State.setFreq_errInfo (f : FreqTable) : (s.setFreq f).errInfo = s.errInfo := rfl
@[simp] theorem State.setFreq_srcAddr (f : FreqTable) : (s.setFreq f).srcAddr = s.srcAddr := rfl
@[simp] theorem State.setFreq_srcLen (f : FreqTable) : (s.setFreq f).srcLen = s.srcLen := rfl
@[simp] theorem State.setFreq_dstAddr (f : FreqTable) : (s.setFreq f).dstAddr = s.dstAddr := rfl
@[simp] theorem State.setFreq_dstCap (f : FreqTable) : (s.setFreq f).dstCap = s.dstCap := rfl
@[simp] theorem State.setFreq_outLen (f : FreqTable) : (s.setFreq f).outLen = s.outLen := rfl
@[simp] theorem State.setFreq_pad (f : FreqTable) : (s.setFreq f).pad = s.pad := rfl
@[simp] theorem State.setFreq_freq (f : FreqTable) : (s.setFreq f).freq = f := rfl
@[simp] theorem State.setFreq_fqSel (f : FreqTable) : (s.setFreq f).fqSel = s.fqSel := rfl
@[simp] theorem State.setFreq_arena (f : FreqTable) : (s.setFreq f).arena = s.arena := rfl
@[simp] theorem State.setFreq_root (f : FreqTable) : (s.setFreq f).root = s.root := rfl
@[simp] theorem State.setFreq_nodeCount (f : FreqTable) : (s.setFreq f).nodeCount = s.nodeCount := rfl
@[simp] theorem State.setFreq_nodeSel (f : FreqTable) : (s.setFreq f).nodeSel = s.nodeSel := rfl
@[simp] theorem State.setFreq_codes (f : FreqTable) : (s.setFreq f).codes = s.codes := rfl
@[simp] theorem State.setFreq_ctSel (f : FreqTable) : (s.setFreq f).ctSel = s.ctSel := rfl
@[simp] theorem State.setFreq_dmem (f : FreqTable) : (s.setFreq f).dmem = s.dmem := rfl
@[simp] theorem State.setFreq_dmemSize (f : FreqTable) : (s.setFreq f).dmemSize = s.dmemSize := rfl
@[simp] theorem State.setFreq_hostProg (f : FreqTable) : (s.setFreq f).hostProg = s.hostProg := rfl
@[simp] theorem State.setFreq_hostLog (f : FreqTable) : (s.setFreq f).hostLog = s.hostLog := rfl
@[simp] theorem State.setFreq_sched (f : FreqTable) : (s.setFreq f).sched = s.sched := rfl
@[simp] theorem State.setFreq_draws (f : FreqTable) : (s.setFreq f).draws = s.draws := rfl

/-! Writing CT: `State.setCodes`. -/

@[simp] theorem State.setCodes_pending (c : CodeTable) : (s.setCodes c).pending = s.pending := rfl
@[simp] theorem State.setCodes_irqEn (c : CodeTable) : (s.setCodes c).irqEn = s.irqEn := rfl
@[simp] theorem State.setCodes_done (c : CodeTable) : (s.setCodes c).done = s.done := rfl
@[simp] theorem State.setCodes_cmdOvr (c : CodeTable) : (s.setCodes c).cmdOvr = s.cmdOvr := rfl
@[simp] theorem State.setCodes_wrIgn (c : CodeTable) : (s.setCodes c).wrIgn = s.wrIgn := rfl
@[simp] theorem State.setCodes_treeValid (c : CodeTable) : (s.setCodes c).treeValid = s.treeValid := rfl
@[simp] theorem State.setCodes_err (c : CodeTable) : (s.setCodes c).err = s.err := rfl
@[simp] theorem State.setCodes_errInfo (c : CodeTable) : (s.setCodes c).errInfo = s.errInfo := rfl
@[simp] theorem State.setCodes_srcAddr (c : CodeTable) : (s.setCodes c).srcAddr = s.srcAddr := rfl
@[simp] theorem State.setCodes_srcLen (c : CodeTable) : (s.setCodes c).srcLen = s.srcLen := rfl
@[simp] theorem State.setCodes_dstAddr (c : CodeTable) : (s.setCodes c).dstAddr = s.dstAddr := rfl
@[simp] theorem State.setCodes_dstCap (c : CodeTable) : (s.setCodes c).dstCap = s.dstCap := rfl
@[simp] theorem State.setCodes_outLen (c : CodeTable) : (s.setCodes c).outLen = s.outLen := rfl
@[simp] theorem State.setCodes_pad (c : CodeTable) : (s.setCodes c).pad = s.pad := rfl
@[simp] theorem State.setCodes_freq (c : CodeTable) : (s.setCodes c).freq = s.freq := rfl
@[simp] theorem State.setCodes_fqSel (c : CodeTable) : (s.setCodes c).fqSel = s.fqSel := rfl
@[simp] theorem State.setCodes_arena (c : CodeTable) : (s.setCodes c).arena = s.arena := rfl
@[simp] theorem State.setCodes_root (c : CodeTable) : (s.setCodes c).root = s.root := rfl
@[simp] theorem State.setCodes_nodeCount (c : CodeTable) : (s.setCodes c).nodeCount = s.nodeCount := rfl
@[simp] theorem State.setCodes_nodeSel (c : CodeTable) : (s.setCodes c).nodeSel = s.nodeSel := rfl
@[simp] theorem State.setCodes_codes (c : CodeTable) : (s.setCodes c).codes = c := rfl
@[simp] theorem State.setCodes_ctSel (c : CodeTable) : (s.setCodes c).ctSel = s.ctSel := rfl
@[simp] theorem State.setCodes_dmem (c : CodeTable) : (s.setCodes c).dmem = s.dmem := rfl
@[simp] theorem State.setCodes_dmemSize (c : CodeTable) : (s.setCodes c).dmemSize = s.dmemSize := rfl
@[simp] theorem State.setCodes_hostProg (c : CodeTable) : (s.setCodes c).hostProg = s.hostProg := rfl
@[simp] theorem State.setCodes_hostLog (c : CodeTable) : (s.setCodes c).hostLog = s.hostLog := rfl
@[simp] theorem State.setCodes_sched (c : CodeTable) : (s.setCodes c).sched = s.sched := rfl
@[simp] theorem State.setCodes_draws (c : CodeTable) : (s.setCodes c).draws = s.draws := rfl

/-! Storing a built tree (R150): `State.storeTree`. -/

@[simp] theorem State.storeTree_pending (t : Tree) : (s.storeTree t).pending = s.pending := rfl
@[simp] theorem State.storeTree_irqEn (t : Tree) : (s.storeTree t).irqEn = s.irqEn := rfl
@[simp] theorem State.storeTree_done (t : Tree) : (s.storeTree t).done = s.done := rfl
@[simp] theorem State.storeTree_cmdOvr (t : Tree) : (s.storeTree t).cmdOvr = s.cmdOvr := rfl
@[simp] theorem State.storeTree_wrIgn (t : Tree) : (s.storeTree t).wrIgn = s.wrIgn := rfl
@[simp] theorem State.storeTree_treeValid (t : Tree) : (s.storeTree t).treeValid = true := rfl
@[simp] theorem State.storeTree_err (t : Tree) : (s.storeTree t).err = s.err := rfl
@[simp] theorem State.storeTree_errInfo (t : Tree) : (s.storeTree t).errInfo = s.errInfo := rfl
@[simp] theorem State.storeTree_srcAddr (t : Tree) : (s.storeTree t).srcAddr = s.srcAddr := rfl
@[simp] theorem State.storeTree_srcLen (t : Tree) : (s.storeTree t).srcLen = s.srcLen := rfl
@[simp] theorem State.storeTree_dstAddr (t : Tree) : (s.storeTree t).dstAddr = s.dstAddr := rfl
@[simp] theorem State.storeTree_dstCap (t : Tree) : (s.storeTree t).dstCap = s.dstCap := rfl
@[simp] theorem State.storeTree_outLen (t : Tree) : (s.storeTree t).outLen = s.outLen := rfl
@[simp] theorem State.storeTree_pad (t : Tree) : (s.storeTree t).pad = s.pad := rfl
@[simp] theorem State.storeTree_freq (t : Tree) : (s.storeTree t).freq = s.freq := rfl
@[simp] theorem State.storeTree_fqSel (t : Tree) : (s.storeTree t).fqSel = s.fqSel := rfl
@[simp] theorem State.storeTree_arena (t : Tree) :
    (s.storeTree t).arena = tabulate 511 fun i => (t.nodes[i]?).getD (nodeAt (Config.freeArena s.draws) i) := rfl
@[simp] theorem State.storeTree_root (t : Tree) : (s.storeTree t).root = BitVec.ofNat 9 t.root := rfl
@[simp] theorem State.storeTree_nodeCount (t : Tree) :
    (s.storeTree t).nodeCount = BitVec.ofNat 9 t.nodes.length := rfl
@[simp] theorem State.storeTree_nodeSel (t : Tree) : (s.storeTree t).nodeSel = s.nodeSel := rfl
@[simp] theorem State.storeTree_codes (t : Tree) : (s.storeTree t).codes = s.codes := rfl
@[simp] theorem State.storeTree_ctSel (t : Tree) : (s.storeTree t).ctSel = s.ctSel := rfl
@[simp] theorem State.storeTree_dmem (t : Tree) : (s.storeTree t).dmem = s.dmem := rfl
@[simp] theorem State.storeTree_dmemSize (t : Tree) : (s.storeTree t).dmemSize = s.dmemSize := rfl
@[simp] theorem State.storeTree_hostProg (t : Tree) : (s.storeTree t).hostProg = s.hostProg := rfl
@[simp] theorem State.storeTree_hostLog (t : Tree) : (s.storeTree t).hostLog = s.hostLog := rfl
@[simp] theorem State.storeTree_sched (t : Tree) : (s.storeTree t).sched = s.sched := rfl
@[simp] theorem State.storeTree_draws (t : Tree) : (s.storeTree t).draws = s.draws + 1 := rfl

/-! Discarding the tree (R131): `State.dropTree`. -/

@[simp] theorem State.dropTree_pending : (s.dropTree).pending = s.pending := rfl
@[simp] theorem State.dropTree_irqEn : (s.dropTree).irqEn = s.irqEn := rfl
@[simp] theorem State.dropTree_done : (s.dropTree).done = s.done := rfl
@[simp] theorem State.dropTree_cmdOvr : (s.dropTree).cmdOvr = s.cmdOvr := rfl
@[simp] theorem State.dropTree_wrIgn : (s.dropTree).wrIgn = s.wrIgn := rfl
@[simp] theorem State.dropTree_treeValid : (s.dropTree).treeValid = false := rfl
@[simp] theorem State.dropTree_err : (s.dropTree).err = s.err := rfl
@[simp] theorem State.dropTree_errInfo : (s.dropTree).errInfo = s.errInfo := rfl
@[simp] theorem State.dropTree_srcAddr : (s.dropTree).srcAddr = s.srcAddr := rfl
@[simp] theorem State.dropTree_srcLen : (s.dropTree).srcLen = s.srcLen := rfl
@[simp] theorem State.dropTree_dstAddr : (s.dropTree).dstAddr = s.dstAddr := rfl
@[simp] theorem State.dropTree_dstCap : (s.dropTree).dstCap = s.dstCap := rfl
@[simp] theorem State.dropTree_outLen : (s.dropTree).outLen = s.outLen := rfl
@[simp] theorem State.dropTree_pad : (s.dropTree).pad = s.pad := rfl
@[simp] theorem State.dropTree_freq : (s.dropTree).freq = s.freq := rfl
@[simp] theorem State.dropTree_fqSel : (s.dropTree).fqSel = s.fqSel := rfl
@[simp] theorem State.dropTree_arena : (s.dropTree).arena = Config.freeArena s.draws := rfl
@[simp] theorem State.dropTree_root : (s.dropTree).root = 0 := rfl
@[simp] theorem State.dropTree_nodeCount : (s.dropTree).nodeCount = 0 := rfl
@[simp] theorem State.dropTree_nodeSel : (s.dropTree).nodeSel = s.nodeSel := rfl
@[simp] theorem State.dropTree_codes : (s.dropTree).codes = s.codes := rfl
@[simp] theorem State.dropTree_ctSel : (s.dropTree).ctSel = s.ctSel := rfl
@[simp] theorem State.dropTree_dmem : (s.dropTree).dmem = s.dmem := rfl
@[simp] theorem State.dropTree_dmemSize : (s.dropTree).dmemSize = s.dmemSize := rfl
@[simp] theorem State.dropTree_hostProg : (s.dropTree).hostProg = s.hostProg := rfl
@[simp] theorem State.dropTree_hostLog : (s.dropTree).hostLog = s.hostLog := rfl
@[simp] theorem State.dropTree_sched : (s.dropTree).sched = s.sched := rfl
@[simp] theorem State.dropTree_draws : (s.dropTree).draws = s.draws + 1 := rfl

/-! Emptying the tables (R131, R210): `State.clearTables`. -/

@[simp] theorem State.clearTables_pending : (s.clearTables).pending = s.pending := rfl
@[simp] theorem State.clearTables_irqEn : (s.clearTables).irqEn = s.irqEn := rfl
@[simp] theorem State.clearTables_done : (s.clearTables).done = s.done := rfl
@[simp] theorem State.clearTables_cmdOvr : (s.clearTables).cmdOvr = s.cmdOvr := rfl
@[simp] theorem State.clearTables_wrIgn : (s.clearTables).wrIgn = s.wrIgn := rfl
@[simp] theorem State.clearTables_treeValid : (s.clearTables).treeValid = false := rfl
@[simp] theorem State.clearTables_err : (s.clearTables).err = s.err := rfl
@[simp] theorem State.clearTables_errInfo : (s.clearTables).errInfo = s.errInfo := rfl
@[simp] theorem State.clearTables_srcAddr : (s.clearTables).srcAddr = s.srcAddr := rfl
@[simp] theorem State.clearTables_srcLen : (s.clearTables).srcLen = s.srcLen := rfl
@[simp] theorem State.clearTables_dstAddr : (s.clearTables).dstAddr = s.dstAddr := rfl
@[simp] theorem State.clearTables_dstCap : (s.clearTables).dstCap = s.dstCap := rfl
@[simp] theorem State.clearTables_outLen : (s.clearTables).outLen = s.outLen := rfl
@[simp] theorem State.clearTables_pad : (s.clearTables).pad = s.pad := rfl
@[simp] theorem State.clearTables_freq : (s.clearTables).freq = zeroFreq := rfl
@[simp] theorem State.clearTables_fqSel : (s.clearTables).fqSel = s.fqSel := rfl
@[simp] theorem State.clearTables_arena : (s.clearTables).arena = Config.freeArena s.draws := rfl
@[simp] theorem State.clearTables_root : (s.clearTables).root = 0 := rfl
@[simp] theorem State.clearTables_nodeCount : (s.clearTables).nodeCount = 0 := rfl
@[simp] theorem State.clearTables_nodeSel : (s.clearTables).nodeSel = s.nodeSel := rfl
@[simp] theorem State.clearTables_codes : (s.clearTables).codes = emptyCodes := rfl
@[simp] theorem State.clearTables_ctSel : (s.clearTables).ctSel = s.ctSel := rfl
@[simp] theorem State.clearTables_dmem : (s.clearTables).dmem = s.dmem := rfl
@[simp] theorem State.clearTables_dmemSize : (s.clearTables).dmemSize = s.dmemSize := rfl
@[simp] theorem State.clearTables_hostProg : (s.clearTables).hostProg = s.hostProg := rfl
@[simp] theorem State.clearTables_hostLog : (s.clearTables).hostLog = s.hostLog := rfl
@[simp] theorem State.clearTables_sched : (s.clearTables).sched = s.sched := rfl
@[simp] theorem State.clearTables_draws : (s.clearTables).draws = s.draws + 1 := rfl

/-! The output of a command (R89): `State.deliver`. -/

@[simp] theorem State.deliver_pending (o : List Byte) (p : BitVec 3) :
    (s.deliver o p).pending = s.pending := rfl
@[simp] theorem State.deliver_irqEn (o : List Byte) (p : BitVec 3) : (s.deliver o p).irqEn = s.irqEn := rfl
@[simp] theorem State.deliver_done (o : List Byte) (p : BitVec 3) : (s.deliver o p).done = s.done := rfl
@[simp] theorem State.deliver_cmdOvr (o : List Byte) (p : BitVec 3) : (s.deliver o p).cmdOvr = s.cmdOvr := rfl
@[simp] theorem State.deliver_wrIgn (o : List Byte) (p : BitVec 3) : (s.deliver o p).wrIgn = s.wrIgn := rfl
@[simp] theorem State.deliver_treeValid (o : List Byte) (p : BitVec 3) :
    (s.deliver o p).treeValid = s.treeValid := rfl
@[simp] theorem State.deliver_err (o : List Byte) (p : BitVec 3) : (s.deliver o p).err = s.err := rfl
@[simp] theorem State.deliver_errInfo (o : List Byte) (p : BitVec 3) :
    (s.deliver o p).errInfo = s.errInfo := rfl
@[simp] theorem State.deliver_srcAddr (o : List Byte) (p : BitVec 3) :
    (s.deliver o p).srcAddr = s.srcAddr := rfl
@[simp] theorem State.deliver_srcLen (o : List Byte) (p : BitVec 3) : (s.deliver o p).srcLen = s.srcLen := rfl
@[simp] theorem State.deliver_dstAddr (o : List Byte) (p : BitVec 3) :
    (s.deliver o p).dstAddr = s.dstAddr := rfl
@[simp] theorem State.deliver_dstCap (o : List Byte) (p : BitVec 3) : (s.deliver o p).dstCap = s.dstCap := rfl
@[simp] theorem State.deliver_outLen (o : List Byte) (p : BitVec 3) :
    (s.deliver o p).outLen = BitVec.ofNat 32 o.length := rfl
@[simp] theorem State.deliver_pad (o : List Byte) (p : BitVec 3) : (s.deliver o p).pad = p := rfl
@[simp] theorem State.deliver_freq (o : List Byte) (p : BitVec 3) : (s.deliver o p).freq = s.freq := rfl
@[simp] theorem State.deliver_fqSel (o : List Byte) (p : BitVec 3) : (s.deliver o p).fqSel = s.fqSel := rfl
@[simp] theorem State.deliver_arena (o : List Byte) (p : BitVec 3) : (s.deliver o p).arena = s.arena := rfl
@[simp] theorem State.deliver_root (o : List Byte) (p : BitVec 3) : (s.deliver o p).root = s.root := rfl
@[simp] theorem State.deliver_nodeCount (o : List Byte) (p : BitVec 3) :
    (s.deliver o p).nodeCount = s.nodeCount := rfl
@[simp] theorem State.deliver_nodeSel (o : List Byte) (p : BitVec 3) :
    (s.deliver o p).nodeSel = s.nodeSel := rfl
@[simp] theorem State.deliver_codes (o : List Byte) (p : BitVec 3) : (s.deliver o p).codes = s.codes := rfl
@[simp] theorem State.deliver_ctSel (o : List Byte) (p : BitVec 3) : (s.deliver o p).ctSel = s.ctSel := rfl
@[simp] theorem State.deliver_dmem (o : List Byte) (p : BitVec 3) :
    (s.deliver o p).dmem = Memory.writeRange s.dmem s.dstAddr.toNat o := rfl
@[simp] theorem State.deliver_dmemSize (o : List Byte) (p : BitVec 3) :
    (s.deliver o p).dmemSize = s.dmemSize := rfl
@[simp] theorem State.deliver_hostProg (o : List Byte) (p : BitVec 3) :
    (s.deliver o p).hostProg = s.hostProg := rfl
@[simp] theorem State.deliver_hostLog (o : List Byte) (p : BitVec 3) :
    (s.deliver o p).hostLog = s.hostLog := rfl
@[simp] theorem State.deliver_sched (o : List Byte) (p : BitVec 3) : (s.deliver o p).sched = s.sched := rfl
@[simp] theorem State.deliver_draws (o : List Byte) (p : BitVec 3) : (s.deliver o p).draws = s.draws := rfl

/-! A host read (R107): `State.record`. -/

@[simp] theorem State.record_pending (n : Nat) (v : Word) : (s.record n v).pending = s.pending := rfl
@[simp] theorem State.record_irqEn (n : Nat) (v : Word) : (s.record n v).irqEn = s.irqEn := rfl
@[simp] theorem State.record_done (n : Nat) (v : Word) : (s.record n v).done = s.done := rfl
@[simp] theorem State.record_cmdOvr (n : Nat) (v : Word) : (s.record n v).cmdOvr = s.cmdOvr := rfl
@[simp] theorem State.record_wrIgn (n : Nat) (v : Word) : (s.record n v).wrIgn = s.wrIgn := rfl
@[simp] theorem State.record_treeValid (n : Nat) (v : Word) : (s.record n v).treeValid = s.treeValid := rfl
@[simp] theorem State.record_err (n : Nat) (v : Word) : (s.record n v).err = s.err := rfl
@[simp] theorem State.record_errInfo (n : Nat) (v : Word) : (s.record n v).errInfo = s.errInfo := rfl
@[simp] theorem State.record_srcAddr (n : Nat) (v : Word) : (s.record n v).srcAddr = s.srcAddr := rfl
@[simp] theorem State.record_srcLen (n : Nat) (v : Word) : (s.record n v).srcLen = s.srcLen := rfl
@[simp] theorem State.record_dstAddr (n : Nat) (v : Word) : (s.record n v).dstAddr = s.dstAddr := rfl
@[simp] theorem State.record_dstCap (n : Nat) (v : Word) : (s.record n v).dstCap = s.dstCap := rfl
@[simp] theorem State.record_outLen (n : Nat) (v : Word) : (s.record n v).outLen = s.outLen := rfl
@[simp] theorem State.record_pad (n : Nat) (v : Word) : (s.record n v).pad = s.pad := rfl
@[simp] theorem State.record_freq (n : Nat) (v : Word) : (s.record n v).freq = s.freq := rfl
@[simp] theorem State.record_fqSel (n : Nat) (v : Word) : (s.record n v).fqSel = s.fqSel := rfl
@[simp] theorem State.record_arena (n : Nat) (v : Word) : (s.record n v).arena = s.arena := rfl
@[simp] theorem State.record_root (n : Nat) (v : Word) : (s.record n v).root = s.root := rfl
@[simp] theorem State.record_nodeCount (n : Nat) (v : Word) : (s.record n v).nodeCount = s.nodeCount := rfl
@[simp] theorem State.record_nodeSel (n : Nat) (v : Word) : (s.record n v).nodeSel = s.nodeSel := rfl
@[simp] theorem State.record_codes (n : Nat) (v : Word) : (s.record n v).codes = s.codes := rfl
@[simp] theorem State.record_ctSel (n : Nat) (v : Word) : (s.record n v).ctSel = s.ctSel := rfl
@[simp] theorem State.record_dmem (n : Nat) (v : Word) : (s.record n v).dmem = s.dmem := rfl
@[simp] theorem State.record_dmemSize (n : Nat) (v : Word) : (s.record n v).dmemSize = s.dmemSize := rfl
@[simp] theorem State.record_hostProg (n : Nat) (v : Word) : (s.record n v).hostProg = s.hostProg := rfl
@[simp] theorem State.record_hostLog (n : Nat) (v : Word) :
    (s.record n v).hostLog = (n, v) :: s.hostLog := rfl
@[simp] theorem State.record_sched (n : Nat) (v : Word) : (s.record n v).sched = s.sched := rfl
@[simp] theorem State.record_draws (n : Nat) (v : Word) : (s.record n v).draws = s.draws := rfl

/-! A free host register read (R57): `State.recordFreeWord`. -/

@[simp] theorem State.recordFreeWord_pending (n : Nat) : (s.recordFreeWord n).pending = s.pending := rfl
@[simp] theorem State.recordFreeWord_irqEn (n : Nat) : (s.recordFreeWord n).irqEn = s.irqEn := rfl
@[simp] theorem State.recordFreeWord_done (n : Nat) : (s.recordFreeWord n).done = s.done := rfl
@[simp] theorem State.recordFreeWord_cmdOvr (n : Nat) : (s.recordFreeWord n).cmdOvr = s.cmdOvr := rfl
@[simp] theorem State.recordFreeWord_wrIgn (n : Nat) : (s.recordFreeWord n).wrIgn = s.wrIgn := rfl
@[simp] theorem State.recordFreeWord_treeValid (n : Nat) : (s.recordFreeWord n).treeValid = s.treeValid := rfl
@[simp] theorem State.recordFreeWord_err (n : Nat) : (s.recordFreeWord n).err = s.err := rfl
@[simp] theorem State.recordFreeWord_errInfo (n : Nat) : (s.recordFreeWord n).errInfo = s.errInfo := rfl
@[simp] theorem State.recordFreeWord_srcAddr (n : Nat) : (s.recordFreeWord n).srcAddr = s.srcAddr := rfl
@[simp] theorem State.recordFreeWord_srcLen (n : Nat) : (s.recordFreeWord n).srcLen = s.srcLen := rfl
@[simp] theorem State.recordFreeWord_dstAddr (n : Nat) : (s.recordFreeWord n).dstAddr = s.dstAddr := rfl
@[simp] theorem State.recordFreeWord_dstCap (n : Nat) : (s.recordFreeWord n).dstCap = s.dstCap := rfl
@[simp] theorem State.recordFreeWord_outLen (n : Nat) : (s.recordFreeWord n).outLen = s.outLen := rfl
@[simp] theorem State.recordFreeWord_pad (n : Nat) : (s.recordFreeWord n).pad = s.pad := rfl
@[simp] theorem State.recordFreeWord_freq (n : Nat) : (s.recordFreeWord n).freq = s.freq := rfl
@[simp] theorem State.recordFreeWord_fqSel (n : Nat) : (s.recordFreeWord n).fqSel = s.fqSel := rfl
@[simp] theorem State.recordFreeWord_arena (n : Nat) : (s.recordFreeWord n).arena = s.arena := rfl
@[simp] theorem State.recordFreeWord_root (n : Nat) : (s.recordFreeWord n).root = s.root := rfl
@[simp] theorem State.recordFreeWord_nodeCount (n : Nat) : (s.recordFreeWord n).nodeCount = s.nodeCount := rfl
@[simp] theorem State.recordFreeWord_nodeSel (n : Nat) : (s.recordFreeWord n).nodeSel = s.nodeSel := rfl
@[simp] theorem State.recordFreeWord_codes (n : Nat) : (s.recordFreeWord n).codes = s.codes := rfl
@[simp] theorem State.recordFreeWord_ctSel (n : Nat) : (s.recordFreeWord n).ctSel = s.ctSel := rfl
@[simp] theorem State.recordFreeWord_dmem (n : Nat) : (s.recordFreeWord n).dmem = s.dmem := rfl
@[simp] theorem State.recordFreeWord_dmemSize (n : Nat) : (s.recordFreeWord n).dmemSize = s.dmemSize := rfl
@[simp] theorem State.recordFreeWord_hostProg (n : Nat) : (s.recordFreeWord n).hostProg = s.hostProg := rfl
@[simp] theorem State.recordFreeWord_hostLog (n : Nat) :
    (s.recordFreeWord n).hostLog = (n, Config.freeWord s.draws) :: s.hostLog := rfl
@[simp] theorem State.recordFreeWord_sched (n : Nat) : (s.recordFreeWord n).sched = s.sched := rfl
@[simp] theorem State.recordFreeWord_draws (n : Nat) : (s.recordFreeWord n).draws = s.draws + 1 := rfl

/-! A free host DMEM read (R99): `State.recordFreeByte`. -/

@[simp] theorem State.recordFreeByte_pending (n : Nat) : (s.recordFreeByte n).pending = s.pending := rfl
@[simp] theorem State.recordFreeByte_irqEn (n : Nat) : (s.recordFreeByte n).irqEn = s.irqEn := rfl
@[simp] theorem State.recordFreeByte_done (n : Nat) : (s.recordFreeByte n).done = s.done := rfl
@[simp] theorem State.recordFreeByte_cmdOvr (n : Nat) : (s.recordFreeByte n).cmdOvr = s.cmdOvr := rfl
@[simp] theorem State.recordFreeByte_wrIgn (n : Nat) : (s.recordFreeByte n).wrIgn = s.wrIgn := rfl
@[simp] theorem State.recordFreeByte_treeValid (n : Nat) : (s.recordFreeByte n).treeValid = s.treeValid := rfl
@[simp] theorem State.recordFreeByte_err (n : Nat) : (s.recordFreeByte n).err = s.err := rfl
@[simp] theorem State.recordFreeByte_errInfo (n : Nat) : (s.recordFreeByte n).errInfo = s.errInfo := rfl
@[simp] theorem State.recordFreeByte_srcAddr (n : Nat) : (s.recordFreeByte n).srcAddr = s.srcAddr := rfl
@[simp] theorem State.recordFreeByte_srcLen (n : Nat) : (s.recordFreeByte n).srcLen = s.srcLen := rfl
@[simp] theorem State.recordFreeByte_dstAddr (n : Nat) : (s.recordFreeByte n).dstAddr = s.dstAddr := rfl
@[simp] theorem State.recordFreeByte_dstCap (n : Nat) : (s.recordFreeByte n).dstCap = s.dstCap := rfl
@[simp] theorem State.recordFreeByte_outLen (n : Nat) : (s.recordFreeByte n).outLen = s.outLen := rfl
@[simp] theorem State.recordFreeByte_pad (n : Nat) : (s.recordFreeByte n).pad = s.pad := rfl
@[simp] theorem State.recordFreeByte_freq (n : Nat) : (s.recordFreeByte n).freq = s.freq := rfl
@[simp] theorem State.recordFreeByte_fqSel (n : Nat) : (s.recordFreeByte n).fqSel = s.fqSel := rfl
@[simp] theorem State.recordFreeByte_arena (n : Nat) : (s.recordFreeByte n).arena = s.arena := rfl
@[simp] theorem State.recordFreeByte_root (n : Nat) : (s.recordFreeByte n).root = s.root := rfl
@[simp] theorem State.recordFreeByte_nodeCount (n : Nat) : (s.recordFreeByte n).nodeCount = s.nodeCount := rfl
@[simp] theorem State.recordFreeByte_nodeSel (n : Nat) : (s.recordFreeByte n).nodeSel = s.nodeSel := rfl
@[simp] theorem State.recordFreeByte_codes (n : Nat) : (s.recordFreeByte n).codes = s.codes := rfl
@[simp] theorem State.recordFreeByte_ctSel (n : Nat) : (s.recordFreeByte n).ctSel = s.ctSel := rfl
@[simp] theorem State.recordFreeByte_dmem (n : Nat) : (s.recordFreeByte n).dmem = s.dmem := rfl
@[simp] theorem State.recordFreeByte_dmemSize (n : Nat) : (s.recordFreeByte n).dmemSize = s.dmemSize := rfl
@[simp] theorem State.recordFreeByte_hostProg (n : Nat) : (s.recordFreeByte n).hostProg = s.hostProg := rfl
@[simp] theorem State.recordFreeByte_hostLog (n : Nat) :
    (s.recordFreeByte n).hostLog = (n, (Config.freeByte s.draws).setWidth 32) :: s.hostLog := rfl
@[simp] theorem State.recordFreeByte_sched (n : Nat) : (s.recordFreeByte n).sched = s.sched := rfl
@[simp] theorem State.recordFreeByte_draws (n : Nat) : (s.recordFreeByte n).draws = s.draws + 1 := rfl

/-! Placing a command for the next step: `State.placeCommand`. -/

@[simp] theorem State.placeCommand_pending (w : Word) : (s.placeCommand w).pending = some w := rfl
@[simp] theorem State.placeCommand_irqEn (w : Word) : (s.placeCommand w).irqEn = s.irqEn := rfl
@[simp] theorem State.placeCommand_done (w : Word) : (s.placeCommand w).done = s.done := rfl
@[simp] theorem State.placeCommand_cmdOvr (w : Word) : (s.placeCommand w).cmdOvr = s.cmdOvr := rfl
@[simp] theorem State.placeCommand_wrIgn (w : Word) : (s.placeCommand w).wrIgn = s.wrIgn := rfl
@[simp] theorem State.placeCommand_treeValid (w : Word) : (s.placeCommand w).treeValid = s.treeValid := rfl
@[simp] theorem State.placeCommand_err (w : Word) : (s.placeCommand w).err = s.err := rfl
@[simp] theorem State.placeCommand_errInfo (w : Word) : (s.placeCommand w).errInfo = s.errInfo := rfl
@[simp] theorem State.placeCommand_srcAddr (w : Word) : (s.placeCommand w).srcAddr = s.srcAddr := rfl
@[simp] theorem State.placeCommand_srcLen (w : Word) : (s.placeCommand w).srcLen = s.srcLen := rfl
@[simp] theorem State.placeCommand_dstAddr (w : Word) : (s.placeCommand w).dstAddr = s.dstAddr := rfl
@[simp] theorem State.placeCommand_dstCap (w : Word) : (s.placeCommand w).dstCap = s.dstCap := rfl
@[simp] theorem State.placeCommand_outLen (w : Word) : (s.placeCommand w).outLen = s.outLen := rfl
@[simp] theorem State.placeCommand_pad (w : Word) : (s.placeCommand w).pad = s.pad := rfl
@[simp] theorem State.placeCommand_freq (w : Word) : (s.placeCommand w).freq = s.freq := rfl
@[simp] theorem State.placeCommand_fqSel (w : Word) : (s.placeCommand w).fqSel = s.fqSel := rfl
@[simp] theorem State.placeCommand_arena (w : Word) : (s.placeCommand w).arena = s.arena := rfl
@[simp] theorem State.placeCommand_root (w : Word) : (s.placeCommand w).root = s.root := rfl
@[simp] theorem State.placeCommand_nodeCount (w : Word) : (s.placeCommand w).nodeCount = s.nodeCount := rfl
@[simp] theorem State.placeCommand_nodeSel (w : Word) : (s.placeCommand w).nodeSel = s.nodeSel := rfl
@[simp] theorem State.placeCommand_codes (w : Word) : (s.placeCommand w).codes = s.codes := rfl
@[simp] theorem State.placeCommand_ctSel (w : Word) : (s.placeCommand w).ctSel = s.ctSel := rfl
@[simp] theorem State.placeCommand_dmem (w : Word) : (s.placeCommand w).dmem = s.dmem := rfl
@[simp] theorem State.placeCommand_dmemSize (w : Word) : (s.placeCommand w).dmemSize = s.dmemSize := rfl
@[simp] theorem State.placeCommand_hostProg (w : Word) : (s.placeCommand w).hostProg = s.hostProg := rfl
@[simp] theorem State.placeCommand_hostLog (w : Word) : (s.placeCommand w).hostLog = s.hostLog := rfl
@[simp] theorem State.placeCommand_sched (w : Word) : (s.placeCommand w).sched = .engine :: s.sched := rfl
@[simp] theorem State.placeCommand_draws (w : Word) : (s.placeCommand w).draws = s.draws := rfl

/-! A STATUS write (R27): `State.clearStatus`. -/

@[simp] theorem State.clearStatus_pending (v : Word) : (s.clearStatus v).pending = s.pending := rfl
@[simp] theorem State.clearStatus_irqEn (v : Word) : (s.clearStatus v).irqEn = s.irqEn := rfl
@[simp] theorem State.clearStatus_done (v : Word) : (s.clearStatus v).done = (s.done && !v.getLsbD 1) := rfl
@[simp] theorem State.clearStatus_cmdOvr (v : Word) :
    (s.clearStatus v).cmdOvr = (s.cmdOvr && !v.getLsbD 3) := rfl
@[simp] theorem State.clearStatus_wrIgn (v : Word) :
    (s.clearStatus v).wrIgn = (s.wrIgn && !v.getLsbD 4) := rfl
@[simp] theorem State.clearStatus_treeValid (v : Word) : (s.clearStatus v).treeValid = s.treeValid := rfl
@[simp] theorem State.clearStatus_err (v : Word) : (s.clearStatus v).err = s.err := rfl
@[simp] theorem State.clearStatus_errInfo (v : Word) : (s.clearStatus v).errInfo = s.errInfo := rfl
@[simp] theorem State.clearStatus_srcAddr (v : Word) : (s.clearStatus v).srcAddr = s.srcAddr := rfl
@[simp] theorem State.clearStatus_srcLen (v : Word) : (s.clearStatus v).srcLen = s.srcLen := rfl
@[simp] theorem State.clearStatus_dstAddr (v : Word) : (s.clearStatus v).dstAddr = s.dstAddr := rfl
@[simp] theorem State.clearStatus_dstCap (v : Word) : (s.clearStatus v).dstCap = s.dstCap := rfl
@[simp] theorem State.clearStatus_outLen (v : Word) : (s.clearStatus v).outLen = s.outLen := rfl
@[simp] theorem State.clearStatus_pad (v : Word) : (s.clearStatus v).pad = s.pad := rfl
@[simp] theorem State.clearStatus_freq (v : Word) : (s.clearStatus v).freq = s.freq := rfl
@[simp] theorem State.clearStatus_fqSel (v : Word) : (s.clearStatus v).fqSel = s.fqSel := rfl
@[simp] theorem State.clearStatus_arena (v : Word) : (s.clearStatus v).arena = s.arena := rfl
@[simp] theorem State.clearStatus_root (v : Word) : (s.clearStatus v).root = s.root := rfl
@[simp] theorem State.clearStatus_nodeCount (v : Word) : (s.clearStatus v).nodeCount = s.nodeCount := rfl
@[simp] theorem State.clearStatus_nodeSel (v : Word) : (s.clearStatus v).nodeSel = s.nodeSel := rfl
@[simp] theorem State.clearStatus_codes (v : Word) : (s.clearStatus v).codes = s.codes := rfl
@[simp] theorem State.clearStatus_ctSel (v : Word) : (s.clearStatus v).ctSel = s.ctSel := rfl
@[simp] theorem State.clearStatus_dmem (v : Word) : (s.clearStatus v).dmem = s.dmem := rfl
@[simp] theorem State.clearStatus_dmemSize (v : Word) : (s.clearStatus v).dmemSize = s.dmemSize := rfl
@[simp] theorem State.clearStatus_hostProg (v : Word) : (s.clearStatus v).hostProg = s.hostProg := rfl
@[simp] theorem State.clearStatus_hostLog (v : Word) : (s.clearStatus v).hostLog = s.hostLog := rfl
@[simp] theorem State.clearStatus_sched (v : Word) : (s.clearStatus v).sched = s.sched := rfl
@[simp] theorem State.clearStatus_draws (v : Word) : (s.clearStatus v).draws = s.draws := rfl

/-! A write through the CT windows (R54, R55): `State.setSelectedCode`. -/

@[simp] theorem State.setSelectedCode_pending (e : CodeEntry) :
    (s.setSelectedCode e).pending = s.pending := rfl
@[simp] theorem State.setSelectedCode_irqEn (e : CodeEntry) : (s.setSelectedCode e).irqEn = s.irqEn := rfl
@[simp] theorem State.setSelectedCode_done (e : CodeEntry) : (s.setSelectedCode e).done = s.done := rfl
@[simp] theorem State.setSelectedCode_cmdOvr (e : CodeEntry) : (s.setSelectedCode e).cmdOvr = s.cmdOvr := rfl
@[simp] theorem State.setSelectedCode_wrIgn (e : CodeEntry) : (s.setSelectedCode e).wrIgn = s.wrIgn := rfl
@[simp] theorem State.setSelectedCode_treeValid (e : CodeEntry) :
    (s.setSelectedCode e).treeValid = s.treeValid := rfl
@[simp] theorem State.setSelectedCode_err (e : CodeEntry) : (s.setSelectedCode e).err = s.err := rfl
@[simp] theorem State.setSelectedCode_errInfo (e : CodeEntry) :
    (s.setSelectedCode e).errInfo = s.errInfo := rfl
@[simp] theorem State.setSelectedCode_srcAddr (e : CodeEntry) :
    (s.setSelectedCode e).srcAddr = s.srcAddr := rfl
@[simp] theorem State.setSelectedCode_srcLen (e : CodeEntry) : (s.setSelectedCode e).srcLen = s.srcLen := rfl
@[simp] theorem State.setSelectedCode_dstAddr (e : CodeEntry) :
    (s.setSelectedCode e).dstAddr = s.dstAddr := rfl
@[simp] theorem State.setSelectedCode_dstCap (e : CodeEntry) : (s.setSelectedCode e).dstCap = s.dstCap := rfl
@[simp] theorem State.setSelectedCode_outLen (e : CodeEntry) : (s.setSelectedCode e).outLen = s.outLen := rfl
@[simp] theorem State.setSelectedCode_pad (e : CodeEntry) : (s.setSelectedCode e).pad = s.pad := rfl
@[simp] theorem State.setSelectedCode_freq (e : CodeEntry) : (s.setSelectedCode e).freq = s.freq := rfl
@[simp] theorem State.setSelectedCode_fqSel (e : CodeEntry) : (s.setSelectedCode e).fqSel = s.fqSel := rfl
@[simp] theorem State.setSelectedCode_arena (e : CodeEntry) : (s.setSelectedCode e).arena = s.arena := rfl
@[simp] theorem State.setSelectedCode_root (e : CodeEntry) : (s.setSelectedCode e).root = s.root := rfl
@[simp] theorem State.setSelectedCode_nodeCount (e : CodeEntry) :
    (s.setSelectedCode e).nodeCount = s.nodeCount := rfl
@[simp] theorem State.setSelectedCode_nodeSel (e : CodeEntry) :
    (s.setSelectedCode e).nodeSel = s.nodeSel := rfl
@[simp] theorem State.setSelectedCode_codes (e : CodeEntry) :
    (s.setSelectedCode e).codes = assign s.codes s.ctSel e := rfl
@[simp] theorem State.setSelectedCode_ctSel (e : CodeEntry) : (s.setSelectedCode e).ctSel = s.ctSel := rfl
@[simp] theorem State.setSelectedCode_dmem (e : CodeEntry) : (s.setSelectedCode e).dmem = s.dmem := rfl
@[simp] theorem State.setSelectedCode_dmemSize (e : CodeEntry) :
    (s.setSelectedCode e).dmemSize = s.dmemSize := rfl
@[simp] theorem State.setSelectedCode_hostProg (e : CodeEntry) :
    (s.setSelectedCode e).hostProg = s.hostProg := rfl
@[simp] theorem State.setSelectedCode_hostLog (e : CodeEntry) :
    (s.setSelectedCode e).hostLog = s.hostLog := rfl
@[simp] theorem State.setSelectedCode_sched (e : CodeEntry) : (s.setSelectedCode e).sched = s.sched := rfl
@[simp] theorem State.setSelectedCode_draws (e : CodeEntry) : (s.setSelectedCode e).draws = s.draws := rfl

/-! Advancing the HOST's program: `State.setProg`. -/

@[simp] theorem State.setProg_pending (p : List HostOp) : (s.setProg p).pending = s.pending := rfl
@[simp] theorem State.setProg_irqEn (p : List HostOp) : (s.setProg p).irqEn = s.irqEn := rfl
@[simp] theorem State.setProg_done (p : List HostOp) : (s.setProg p).done = s.done := rfl
@[simp] theorem State.setProg_cmdOvr (p : List HostOp) : (s.setProg p).cmdOvr = s.cmdOvr := rfl
@[simp] theorem State.setProg_wrIgn (p : List HostOp) : (s.setProg p).wrIgn = s.wrIgn := rfl
@[simp] theorem State.setProg_treeValid (p : List HostOp) : (s.setProg p).treeValid = s.treeValid := rfl
@[simp] theorem State.setProg_err (p : List HostOp) : (s.setProg p).err = s.err := rfl
@[simp] theorem State.setProg_errInfo (p : List HostOp) : (s.setProg p).errInfo = s.errInfo := rfl
@[simp] theorem State.setProg_srcAddr (p : List HostOp) : (s.setProg p).srcAddr = s.srcAddr := rfl
@[simp] theorem State.setProg_srcLen (p : List HostOp) : (s.setProg p).srcLen = s.srcLen := rfl
@[simp] theorem State.setProg_dstAddr (p : List HostOp) : (s.setProg p).dstAddr = s.dstAddr := rfl
@[simp] theorem State.setProg_dstCap (p : List HostOp) : (s.setProg p).dstCap = s.dstCap := rfl
@[simp] theorem State.setProg_outLen (p : List HostOp) : (s.setProg p).outLen = s.outLen := rfl
@[simp] theorem State.setProg_pad (p : List HostOp) : (s.setProg p).pad = s.pad := rfl
@[simp] theorem State.setProg_freq (p : List HostOp) : (s.setProg p).freq = s.freq := rfl
@[simp] theorem State.setProg_fqSel (p : List HostOp) : (s.setProg p).fqSel = s.fqSel := rfl
@[simp] theorem State.setProg_arena (p : List HostOp) : (s.setProg p).arena = s.arena := rfl
@[simp] theorem State.setProg_root (p : List HostOp) : (s.setProg p).root = s.root := rfl
@[simp] theorem State.setProg_nodeCount (p : List HostOp) : (s.setProg p).nodeCount = s.nodeCount := rfl
@[simp] theorem State.setProg_nodeSel (p : List HostOp) : (s.setProg p).nodeSel = s.nodeSel := rfl
@[simp] theorem State.setProg_codes (p : List HostOp) : (s.setProg p).codes = s.codes := rfl
@[simp] theorem State.setProg_ctSel (p : List HostOp) : (s.setProg p).ctSel = s.ctSel := rfl
@[simp] theorem State.setProg_dmem (p : List HostOp) : (s.setProg p).dmem = s.dmem := rfl
@[simp] theorem State.setProg_dmemSize (p : List HostOp) : (s.setProg p).dmemSize = s.dmemSize := rfl
@[simp] theorem State.setProg_hostProg (p : List HostOp) : (s.setProg p).hostProg = p := rfl
@[simp] theorem State.setProg_hostLog (p : List HostOp) : (s.setProg p).hostLog = s.hostLog := rfl
@[simp] theorem State.setProg_sched (p : List HostOp) : (s.setProg p).sched = s.sched := rfl
@[simp] theorem State.setProg_draws (p : List HostOp) : (s.setProg p).draws = s.draws := rfl

/-! Advancing the schedule: `State.dropTurn`. -/

@[simp] theorem State.dropTurn_pending : (s.dropTurn).pending = s.pending := rfl
@[simp] theorem State.dropTurn_irqEn : (s.dropTurn).irqEn = s.irqEn := rfl
@[simp] theorem State.dropTurn_done : (s.dropTurn).done = s.done := rfl
@[simp] theorem State.dropTurn_cmdOvr : (s.dropTurn).cmdOvr = s.cmdOvr := rfl
@[simp] theorem State.dropTurn_wrIgn : (s.dropTurn).wrIgn = s.wrIgn := rfl
@[simp] theorem State.dropTurn_treeValid : (s.dropTurn).treeValid = s.treeValid := rfl
@[simp] theorem State.dropTurn_err : (s.dropTurn).err = s.err := rfl
@[simp] theorem State.dropTurn_errInfo : (s.dropTurn).errInfo = s.errInfo := rfl
@[simp] theorem State.dropTurn_srcAddr : (s.dropTurn).srcAddr = s.srcAddr := rfl
@[simp] theorem State.dropTurn_srcLen : (s.dropTurn).srcLen = s.srcLen := rfl
@[simp] theorem State.dropTurn_dstAddr : (s.dropTurn).dstAddr = s.dstAddr := rfl
@[simp] theorem State.dropTurn_dstCap : (s.dropTurn).dstCap = s.dstCap := rfl
@[simp] theorem State.dropTurn_outLen : (s.dropTurn).outLen = s.outLen := rfl
@[simp] theorem State.dropTurn_pad : (s.dropTurn).pad = s.pad := rfl
@[simp] theorem State.dropTurn_freq : (s.dropTurn).freq = s.freq := rfl
@[simp] theorem State.dropTurn_fqSel : (s.dropTurn).fqSel = s.fqSel := rfl
@[simp] theorem State.dropTurn_arena : (s.dropTurn).arena = s.arena := rfl
@[simp] theorem State.dropTurn_root : (s.dropTurn).root = s.root := rfl
@[simp] theorem State.dropTurn_nodeCount : (s.dropTurn).nodeCount = s.nodeCount := rfl
@[simp] theorem State.dropTurn_nodeSel : (s.dropTurn).nodeSel = s.nodeSel := rfl
@[simp] theorem State.dropTurn_codes : (s.dropTurn).codes = s.codes := rfl
@[simp] theorem State.dropTurn_ctSel : (s.dropTurn).ctSel = s.ctSel := rfl
@[simp] theorem State.dropTurn_dmem : (s.dropTurn).dmem = s.dmem := rfl
@[simp] theorem State.dropTurn_dmemSize : (s.dropTurn).dmemSize = s.dmemSize := rfl
@[simp] theorem State.dropTurn_hostProg : (s.dropTurn).hostProg = s.hostProg := rfl
@[simp] theorem State.dropTurn_hostLog : (s.dropTurn).hostLog = s.hostLog := rfl
@[simp] theorem State.dropTurn_sched : (s.dropTurn).sched = s.sched.tail := rfl
@[simp] theorem State.dropTurn_draws : (s.dropTurn).draws = s.draws := rfl

end Sys2Proof.Machine
end

