-- ==== Sys2Proof/Laws/Tables.lean ====
section
/-! SUPPORT. Laws of the tables: reading what was built or written, and the symbols in order. -/

namespace Sys2Proof.Machine

theorem getElem_tabulate {α : Type} (n : Nat) (g : Nat → α) (i : Nat) (h : i < n) :
    (tabulate n g)[i] = g i := by
  simp [tabulate]

@[simp] theorem lookup_symTable {α : Type} (f : Symbol → α) (s : Symbol) : lookup (symTable f) s = f s := by
  simp [lookup, symTable, getElem_tabulate]

/-- Reading a table after a write (R43, R54). -/
theorem lookup_assign {α : Type} (t : Vector α 256) (s x : Symbol) (v : α) :
    lookup (assign t s v) x = if x = s then v else lookup t x := by
  unfold lookup assign
  rw [Vector.getElem_set]
  by_cases h : x = s
  · simp [h]
  · have : s.toNat ≠ x.toNat := fun e => h (BitVec.eq_of_toNat_eq e.symm)
    simp [h, this]

@[simp] theorem lookup_assign_self {α : Type} (t : Vector α 256) (s : Symbol) (v : α) :
    lookup (assign t s v) s = v := by simp [lookup_assign]

@[simp] theorem lookup_zeroFreq (s : Symbol) : lookup zeroFreq s = 0 := by simp [lookup, zeroFreq]

@[simp] theorem lookup_emptyCodes (s : Symbol) : lookup emptyCodes s = noCode := by
  simp [lookup, emptyCodes]

/-- Two tables with the same entries are the same table. -/
theorem table_ext {α : Type} {t u : Vector α 256} (h : ∀ s, lookup t s = lookup u s) : t = u := by
  apply Vector.ext
  intro i hi
  have := h (BitVec.ofNat 8 i)
  simpa [lookup, Nat.mod_eq_of_lt hi] using this

theorem nodeAt_tabulate (g : Nat → Node) (i : Nat) (h : i < 511) : nodeAt (tabulate 511 g) i = g i := by
  simp [nodeAt, h, getElem_tabulate]

@[simp] theorem length_allSymbols : allSymbols.length = 256 := by simp [allSymbols]

@[simp] theorem mem_allSymbols (s : Symbol) : s ∈ allSymbols := by
  simp only [allSymbols, List.mem_map, List.mem_range]
  exact ⟨s.toNat, s.isLt, by simp⟩

theorem getElem_allSymbols (i : Nat) (h : i < allSymbols.length) : allSymbols[i] = BitVec.ofNat 8 i := by
  simp [allSymbols]

/-- The symbols are in ascending order. -/
theorem allSymbols_sorted : allSymbols.Pairwise fun a b => a.toNat < b.toNat := by
  rw [List.pairwise_iff_getElem]
  intro i j hi hj hij
  rw [getElem_allSymbols, getElem_allSymbols]
  simp only [length_allSymbols] at hi hj
  simp [Nat.mod_eq_of_lt hi, Nat.mod_eq_of_lt hj, hij]

theorem allSymbols_nodup : allSymbols.Nodup := by
  refine allSymbols_sorted.imp ?_
  intro a b h e
  exact absurd (congrArg BitVec.toNat e) (Nat.ne_of_lt h)

/-- One pass over a table meets every symbol with its entry. -/
theorem entries_eq_map_lookup {α : Type} (t : Vector α 256) :
    entries t = allSymbols.map fun s => (s, lookup t s) := by
  apply List.ext_getElem
  · simp [entries]
  · intro i h₁ h₂
    have hi : i < 256 := by simpa [entries] using h₁
    simp [entries, lookup, getElem_allSymbols, Nat.mod_eq_of_lt hi]

theorem mem_entries {α : Type} (t : Vector α 256) (p : Symbol × α) :
    p ∈ entries t ↔ p.2 = lookup t p.1 := by
  obtain ⟨s, v⟩ := p
  simp [entries_eq_map_lookup, eq_comm]

/-- The alphabet holds exactly the symbols with a nonzero count, with that count (R14). -/
theorem mem_alphabet (f : FreqTable) (p : Symbol × Word) :
    p ∈ alphabet f ↔ p.2 = lookup f p.1 ∧ p.2 ≠ 0 := by
  simp [alphabet, mem_entries]

/-- The coded symbols are exactly those with len != 0, with their entries (R50). -/
theorem mem_codedSymbols (ct : CodeTable) (p : Symbol × CodeEntry) :
    p ∈ codedSymbols ct ↔ p.2 = lookup ct p.1 ∧ p.2.len ≠ 0 := by
  simp [codedSymbols, mem_entries]

theorem length_alphabet_le (f : FreqTable) : (alphabet f).length ≤ 256 := by
  refine (List.length_filter_le _ _).trans ?_
  simp [entries]

theorem length_codedSymbols_le (ct : CodeTable) : (codedSymbols ct).length ≤ 256 := by
  refine (List.length_filter_le _ _).trans ?_
  simp [entries]

theorem entries_sorted {α : Type} (t : Vector α 256) :
    (entries t).Pairwise fun p q => p.1.toNat < q.1.toNat := by
  rw [entries_eq_map_lookup, List.pairwise_map]
  exact allSymbols_sorted

/-- The alphabet is in ascending symbol order (R153). -/
theorem alphabet_sorted (f : FreqTable) :
    (alphabet f).Pairwise fun p q => p.1.toNat < q.1.toNat :=
  (entries_sorted f).filter _

theorem codedSymbols_sorted (ct : CodeTable) :
    (codedSymbols ct).Pairwise fun p q => p.1.toNat < q.1.toNat :=
  (entries_sorted ct).filter _

/-- The sum over a table's stored entries is the sum over the symbols. -/
theorem sum_toList_eq (f : FreqTable) :
    (f.toList.map BitVec.toNat).sum = (allSymbols.map fun s => (lookup f s).toNat).sum := by
  have h := congrArg (List.map fun p : Symbol × Word => p.2.toNat) (entries_eq_map_lookup f)
  simp only [entries, List.map_map] at h
  rw [show (fun p : Symbol × Word => p.2.toNat) = BitVec.toNat ∘ Prod.snd from rfl, ← List.map_map,
    List.map_snd_zip (by simp)] at h
  rw [h]; rfl

end Sys2Proof.Machine
end

