-- ==== Sys2Proof/Laws/Ops.lean ====
section
/-! SUPPORT. What each shared operation can do: completing, raising, the range checks, the packer, the unpacker and the tree builder, each said once. -/

namespace Sys2Proof.Machine

variable {s t : State}

theorem complete_eq_next : complete s = .next t ↔ t = s.finish .noError 0 := by
  simp [complete, eq_comm]

theorem raise_eq_next {e : CmdError} : raise e s = .next t ↔ t = s.finish e.code e.info := by
  simp [raise, eq_comm]

/-- ANALYZE's check answers nothing or ADDR_RANGE(0). -/
theorem sourceError_cases (s : State) :
    s.sourceError = none ∨ s.sourceError = some { code := .addrRange, info := 0 } := by
  unfold State.sourceError; split <;> simp

/-- The buffer checks answer nothing, ADDR_RANGE(0), ADDR_RANGE(1) or OVERLAP (R222). -/
theorem bufferError_cases (s : State) :
    s.bufferError = none ∨ s.bufferError = some { code := .addrRange, info := 0 }
      ∨ s.bufferError = some { code := .addrRange, info := 1 }
      ∨ s.bufferError = some { code := .overlap, info := 0 } := by
  unfold State.bufferError; split <;> [split <;> [split; skip]; skip] <;> simp

/-- What passing the buffer checks means. -/
theorem bufferError_none (h : s.bufferError = none) :
    rangeValid s.dmemSize s.srcAddr s.srcLen = true
      ∧ rangeValid s.dmemSize s.dstAddr s.dstCap = true
      ∧ rangesOverlap s.srcAddr s.srcLen s.dstAddr s.dstCap = false := by
  unfold State.bufferError at h
  split at h
  · split at h
    · split at h
      · simp at h
      · simp_all
    · simp at h
  · simp at h

/-- A valid range that is not empty ends within DMEM. -/
theorem le_size_of_rangeValid {size : Nat} {a n : Word} (h : rangeValid size a n = true)
    (hn : n ≠ 0) : a.toNat + n.toNat ≤ size := by
  have h' : n = 0 ∨ a.toNat + n.toNat ≤ size := by simpa [rangeValid] using h
  exact h'.resolve_left hn

@[simp] theorem length_sourceBytes (s : State) : s.sourceBytes.length = s.srcLen.toNat := by
  simp [State.sourceBytes]

theorem firstMissing_none {ct : CodeTable} {bytes : List Byte} :
    firstMissing ct bytes = none ↔ ∀ b ∈ bytes, (lookup ct b).len ≠ 0 := by
  simp [firstMissing]

/-- Everything the packer can answer (R180): a byte has no code, the packed form does not fit, or it is
the packed form. -/
theorem packWith_cases (ct : CodeTable) (bytes : List Byte) (cap : Word) :
    (∃ i, firstMissing ct bytes = some i
      ∧ packWith ct bytes cap = .error { code := .missingCode, info := BitVec.ofNat 32 i })
    ∨ (firstMissing ct bytes = none ∧ cap.toNat < (packedBytes (payload ct bytes)).length
      ∧ packWith ct bytes cap = .error
        { code := .dstOverflow, info := saturate (packedBytes (payload ct bytes)).length })
    ∨ (firstMissing ct bytes = none ∧ (packedBytes (payload ct bytes)).length ≤ cap.toNat
      ∧ packWith ct bytes cap
        = .ok (packedBytes (payload ct bytes), padOf (payload ct bytes))) := by
  unfold packWith
  cases hm : firstMissing ct bytes with
  | some i => simp
  | none =>
    by_cases hc : (packedBytes (payload ct bytes)).length > cap.toNat
    · right; left; simp [hc]
    · right; right; simp [hc]; omega

/-- The packer's output fits. -/
theorem length_le_of_packWith {ct : CodeTable} {bytes out : List Byte} {cap : Word} {p : BitVec 3}
    (h : packWith ct bytes cap = .ok (out, p)) : out.length ≤ cap.toNat := by
  rcases packWith_cases ct bytes cap with ⟨i, _, h'⟩ | ⟨_, _, h'⟩ | ⟨_, hc, h'⟩ <;> rw [h'] at h
  · cases h
  · cases h
  · cases h; exact hc

/-- The unpacker's output fits. -/
theorem length_le_of_unpackWith {ct : CodeTable} {b : Byte} {body out : List Byte} {cap : Word}
    {p : BitVec 3} (h : unpackWith ct b body cap = .ok (out, p)) : out.length ≤ cap.toNat := by
  unfold unpackWith at h
  simp only at h
  split at h
  · cases h
  · split at h
    · cases h
    · split at h
      · cases h
      · split at h
        · cases h
        · cases h; omega

/-- Everything the tree builder can answer (R150, R151). -/
theorem buildTree_cases (f : FreqTable) :
    (leaves f = [] ∧ buildTree f = .error { code := .emptyTable, info := 0 })
    ∨ (leaves f ≠ [] ∧ 2 ^ 32 - 1 < weightSum f
      ∧ buildTree f = .error { code := .weightOvf, info := 0 })
    ∨ (leaves f ≠ [] ∧ weightSum f ≤ 2 ^ 32 - 1 ∧ buildTree f = .ok
        { nodes := leaves f ++ (merge (leaves f).length (leafQueue (leaves f)) (leaves f).length).1
          root := (merge (leaves f).length (leafQueue (leaves f)) (leaves f).length).2 }) := by
  unfold buildTree
  by_cases h : leaves f = []
  · simp [h]
  · right
    have h0 : ¬ (leaves f).length = 0 := by simpa using h
    by_cases hw : weightSum f > 2 ^ 32 - 1
    · left; exact ⟨h, hw, by simp only [h0, hw, if_true, if_false]⟩
    · right; exact ⟨h, Nat.not_lt.1 hw, by simp only [h0, hw, if_false]⟩

theorem length_leaves (f : FreqTable) : (leaves f).length = (alphabet f).length := by simp [leaves]

theorem weightSum_eq (f : FreqTable) :
    weightSum f = (allSymbols.map fun x => (lookup f x).toNat).sum := sum_toList_eq f

end Sys2Proof.Machine
end

