-- ==== Sys2Proof/Laws/Tree.lean ====
section
/-! SUPPORT. What the tree builder makes: the merging loop keeps a forest, and its end is a built tree; every record below the root is reached; paths and their lengths. -/

namespace Sys2Proof.Machine

/-- Record `i` of a list of records. -/
def nodeOf (nd : List Node) (i : Nat) : Node := (nd[i]?).getD default

theorem nodeOf_append_left {nd xs : List Node} {i : Nat} (h : i < nd.length) :
    nodeOf (nd ++ xs) i = nodeOf nd i := by
  simp [nodeOf, List.getElem?_append_left h]

theorem nodeOf_append_self (nd : List Node) (x : Node) : nodeOf (nd ++ [x]) nd.length = x := by
  simp [nodeOf]

/-! ### The queue -/

theorem perm_enqueue (e : QEntry) (q : List QEntry) : (enqueue e q).Perm (e :: q) := by
  induction q with
  | nil => exact .refl _
  | cons x q ih =>
    rw [enqueue]
    split
    · exact (ih.cons x).trans (.swap e x q)
    · exact .refl _

theorem perm_foldr_enqueue (q : List QEntry) : (q.foldr enqueue []).Perm q := by
  induction q with
  | nil => exact .refl _
  | cons x q ih => exact (perm_enqueue x _).trans (ih.cons x)

/-- The queue's order: the lexicographic one on (weight, index) (R150, R152). -/
def QEntry.le (a b : QEntry) : Prop := a.1 < b.1 ∨ (a.1 = b.1 ∧ a.2 ≤ b.2)

theorem QEntry.le_of_before {a b : QEntry} (h : QEntry.before a b = true) : a.le b := by
  simp [QEntry.before] at h; unfold QEntry.le; omega

theorem QEntry.le_of_not_before {a b : QEntry} (h : ¬ QEntry.before a b = true) : b.le a := by
  simp [QEntry.before] at h; unfold QEntry.le; omega

theorem QEntry.le_trans {a b c : QEntry} (h₁ : a.le b) (h₂ : b.le c) : a.le c := by
  unfold QEntry.le at *; omega

theorem sorted_enqueue (e : QEntry) {q : List QEntry} (h : q.Pairwise QEntry.le) :
    (enqueue e q).Pairwise QEntry.le := by
  induction q with
  | nil => exact List.pairwise_singleton _ _
  | cons x q ih =>
    rw [List.pairwise_cons] at h
    rw [enqueue]
    split
    · rename_i hb
      refine List.pairwise_cons.2 ⟨fun y hy => ?_, ih h.2⟩
      rcases List.mem_cons.1 ((perm_enqueue e q).mem_iff.1 hy) with rfl | hy
      · exact QEntry.le_of_before hb
      · exact h.1 y hy
    · rename_i hb
      have hex := QEntry.le_of_not_before hb
      refine List.pairwise_cons.2 ⟨fun y hy => ?_, List.pairwise_cons.2 h⟩
      rcases List.mem_cons.1 hy with rfl | hy
      · exact hex
      · exact QEntry.le_trans hex (h.1 y hy)

theorem sorted_foldr_enqueue (q : List QEntry) : (q.foldr enqueue []).Pairwise QEntry.le := by
  induction q with
  | nil => exact .nil
  | cons x q ih => exact sorted_enqueue x ih

/-! ### The forest that the merging loop keeps -/

/-- Over the records `nd`, the first `n` of them leaves, the queue holds the roots of a forest whose
internal records are sound, and every other record has exactly one parent. -/
structure Forest (n : Nat) (nd : List Node) (q : List QEntry) : Prop where
  len : nd.length + q.length = 2 * n
  leaves_le : n ≤ nd.length
  leaf : ∀ i, i < n → (nodeOf nd i).kind = .leaf
  internal : ∀ i, n ≤ i → i < nd.length → InternalOk (nodeOf nd) i
  entry : ∀ e ∈ q, e.2 < nd.length ∧ e.1 = (nodeOf nd e.2).weight.toNat
  nodup : (q.map Prod.snd).Nodup
  no_parent : ∀ e ∈ q, ∀ i, i < nd.length → ¬ ChildOf (nodeOf nd) e.2 i
  parent : ∀ j, j < nd.length → j ∉ q.map Prod.snd → ∃ i, (i < nd.length ∧ ChildOf (nodeOf nd) j i)
    ∧ ∀ i', i' < nd.length → ChildOf (nodeOf nd) j i' → i' = i

theorem Forest.perm {n : Nat} {nd : List Node} {q q' : List QEntry} (h : Forest n nd q)
    (hp : q.Perm q') : Forest n nd q' where
  len := hp.length_eq ▸ h.len
  leaves_le := h.leaves_le
  leaf := h.leaf
  internal := h.internal
  entry e he := h.entry e (hp.mem_iff.2 he)
  nodup := (hp.map _).nodup_iff.1 h.nodup
  no_parent e he := h.no_parent e (hp.mem_iff.2 he)
  parent j hj hq := h.parent j hj fun hm => hq ((hp.map _).mem_iff.1 hm)

theorem childOf_append {nd : List Node} {x : Node} {j i : Nat} (hi : i < nd.length) :
    ChildOf (nodeOf (nd ++ [x])) j i ↔ ChildOf (nodeOf nd) j i := by
  rw [ChildOf, ChildOf, nodeOf_append_left hi]

/-- One turn of the loop keeps the forest (R150, R152). -/
theorem Forest.merge_step {n : Nat} {nd : List Node} {a b : QEntry} {q : List QEntry}
    (h : Forest n nd (a :: b :: q)) (hn : n ≤ 256) (hw : a.1 + b.1 < 2 ^ 32) :
    Forest n (nd ++ [mergeNode a b]) ((a.1 + b.1, nd.length) :: q) := by
  have hlen := h.len
  simp only [List.length_cons] at hlen
  have ha := h.entry a (by simp)
  have hb := h.entry b (by simp)
  have hab : a.2 ≠ b.2 := by
    have := h.nodup
    simp only [List.map_cons, List.nodup_cons, List.mem_cons, not_or] at this
    exact this.1.1
  have hla : (mergeNode a b).left.toNat = a.2 := by simp [mergeNode]; omega
  have hlb : (mergeNode a b).right.toNat = b.2 := by simp [mergeNode]; omega
  have hkind : (mergeNode a b).kind = .internal := rfl
  have hself := nodeOf_append_self nd (mergeNode a b)
  have hold : ∀ i, i < nd.length → nodeOf (nd ++ [mergeNode a b]) i = nodeOf nd i :=
    fun i hi => nodeOf_append_left hi
  have hnew : ∀ j, ChildOf (nodeOf (nd ++ [mergeNode a b])) j nd.length ↔ a.2 = j ∨ b.2 = j := by
    intro j; rw [ChildOf, hself, hla, hlb]; simp [hkind]
  have hnd := h.nodup
  simp only [List.map_cons, List.nodup_cons, List.mem_cons, not_or] at hnd
  refine ⟨?_, ?_, ?_, ?_, ?_, ?_, ?_, ?_⟩
  · simp; omega
  · simp; have := h.leaves_le; omega
  · intro i hi; rw [hold i (lt_of_lt_of_le hi h.leaves_le)]; exact h.leaf i hi
  · intro i h₁ h₂
    rcases Nat.lt_or_ge i nd.length with hi | hi
    · have ho := h.internal i h₁ hi
      rw [InternalOk] at ho ⊢
      rw [hold i hi]
      refine ⟨ho.1, ho.2.1, ho.2.2.1, ho.2.2.2.1, ho.2.2.2.2.1, ?_⟩
      rw [hold _ (by omega), hold _ (by omega)]
      exact ho.2.2.2.2.2
    · have : i = nd.length := by simp at h₂; omega
      subst this
      rw [InternalOk, hself, hla, hlb, hold _ ha.1, hold _ hb.1, ← ha.2, ← hb.2]
      refine ⟨rfl, rfl, ha.1, hb.1, ?_, ?_⟩
      · intro he; apply hab; rw [← hla, ← hlb, he]
      · simp [mergeNode]; omega
  · intro e he
    rcases List.mem_cons.1 he with rfl | he
    · refine ⟨by simp, ?_⟩
      show a.1 + b.1 = _
      rw [hself]; simp [mergeNode]; omega
    · have := h.entry e (by simp [he])
      exact ⟨by simp; omega, by rw [hold _ this.1]; exact this.2⟩
  · simp only [List.map_cons, List.nodup_cons]
    refine ⟨?_, hnd.2.2⟩
    intro hm
    obtain ⟨e, he, hee⟩ := List.mem_map.1 hm
    have := (h.entry e (by simp [he])).1
    omega
  · intro e he i hi hc
    have hie : e.2 ≤ nd.length := by
      rcases List.mem_cons.1 he with rfl | he'
      · exact le_refl _
      · exact (h.entry e (by simp [he'])).1.le
    rcases Nat.lt_or_ge i nd.length with hi' | hi'
    · rw [childOf_append hi'] at hc
      rcases List.mem_cons.1 he with rfl | he'
      · rcases Nat.lt_or_ge i n with hl | hl
        · have := hc.1; rw [h.leaf i hl] at this; cases this
        · have ho := h.internal i hl hi'
          rcases hc.2 with hc | hc
          · have := ho.2.2.1; omega
          · have := ho.2.2.2.1; omega
      · exact h.no_parent e (by simp [he']) i hi' hc
    · have : i = nd.length := by simp at hi; omega
      subst this
      rw [hnew] at hc
      rcases List.mem_cons.1 he with rfl | he'
      · rcases hc with hc | hc <;> simp only at hc <;> omega
      · have hm : e.2 ∈ q.map Prod.snd := List.mem_map.2 ⟨e, he', rfl⟩
        rcases hc with hc | hc
        · exact hnd.1.2 (hc ▸ hm)
        · exact hnd.2.1 (hc ▸ hm)
  · intro j hj hjq
    simp only [List.map_cons, List.mem_cons, not_or] at hjq
    have hj' : j < nd.length := by simp at hj; omega
    by_cases hjab : a.2 = j ∨ b.2 = j
    · refine ⟨nd.length, ⟨by simp, (hnew j).2 hjab⟩, ?_⟩
      intro i' hi' hc
      rcases Nat.lt_or_ge i' nd.length with hi | hi
      · rw [childOf_append hi] at hc
        rcases hjab with rfl | rfl
        · exact absurd hc (h.no_parent a (by simp) i' hi)
        · exact absurd hc (h.no_parent b (by simp) i' hi)
      · simp at hi'; omega
    · rw [not_or] at hjab
      obtain ⟨i, ⟨hi, hc⟩, hu⟩ := h.parent j hj' (by
        simp only [List.map_cons, List.mem_cons, not_or]
        exact ⟨fun e => hjab.1 e.symm, fun e => hjab.2 e.symm, hjq.2⟩)
      refine ⟨i, ⟨by simp; omega, (childOf_append hi).2 hc⟩, ?_⟩
      intro i' hi' hc'
      rcases Nat.lt_or_ge i' nd.length with hi'' | hi''
      · exact hu i' hi'' ((childOf_append hi'').1 hc')
      · have : i' = nd.length := by simp at hi'; omega
        subst this
        rw [hnew] at hc'
        exact absurd hc' (by rw [not_or]; exact hjab)

/-- The loop ends in a forest of one root, whose weight is the sum of all weights (R150, R151). -/
theorem Forest.merge {n : Nat} (hn : n ≤ 256) :
    ∀ (fuel : Nat) (nd : List Node) (q : List QEntry), Forest n nd q → q ≠ [] → q.length ≤ fuel →
      (q.map Prod.fst).sum < 2 ^ 32 →
      Forest n (nd ++ (merge fuel q nd.length).1)
        [((q.map Prod.fst).sum, (merge fuel q nd.length).2)] := by
  intro fuel
  induction fuel with
  | zero =>
    intro nd q _ hq hl _
    exact absurd (List.length_eq_zero_iff.1 (Nat.le_zero.1 hl)) hq
  | succ fuel ih =>
    intro nd q h hq hl hw
    match q, h, hq, hl, hw with
    | [e], h, _, _, _ => simpa [Machine.merge] using h
    | a :: b :: q, h, _, hl, hw =>
      simp only [List.map_cons, List.sum_cons] at hw
      have hs := h.merge_step hn (by omega)
      have hp := perm_enqueue (a.1 + b.1, nd.length) q
      have hsum : ((enqueue (a.1 + b.1, nd.length) q).map Prod.fst).sum
          = (((a :: b :: q).map Prod.fst).sum) := by
        rw [(hp.map _).sum_eq]; simp; omega
      have hl' : (enqueue (a.1 + b.1, nd.length) q).length ≤ fuel := by
        rw [hp.length_eq]; simp at hl ⊢; omega
      have := ih (nd ++ [mergeNode a b]) _ (hs.perm hp.symm)
        (by intro h0; rw [h0] at hp; exact absurd hp.length_eq (by simp)) hl'
        (by rw [hsum]; simp; omega)
      rw [hsum] at this
      simpa [Machine.merge] using this
    | [], _, hq, _, _ => exact absurd rfl hq

/-! ### Each merge takes the two least -/

/-- The records that are nobody's child are the ones in the queue. -/
theorem Forest.unclaimed_iff {n : Nat} {nd : List Node} {q : List QEntry} (h : Forest n nd q) (j : Nat) :
    Unclaimed (nodeOf nd) nd.length j ↔ j ∈ q.map Prod.snd := by
  constructor
  · rintro ⟨hj, hn⟩
    by_contra hm
    obtain ⟨i, ⟨hi, hc⟩, _⟩ := h.parent j hj hm
    exact hn i hi hc
  · intro hm
    obtain ⟨e, he, rfl⟩ := List.mem_map.1 hm
    exact ⟨(h.entry e he).1, h.no_parent e he⟩

/-- Whether record `i` merged the least pair depends on the records up to `i` only. -/
theorem mergesLeast_congr {node node' : Nat → Node} {i : Nat} (h : MergesLeast node i)
    (he : ∀ k, k ≤ i → node' k = node k) : MergesLeast node' i := by
  have hu : ∀ j, Unclaimed node' i j ↔ Unclaimed node i j := by
    intro j
    unfold Unclaimed ChildOf
    refine and_congr_right fun _ => forall_congr' fun i' => ?_
    by_cases hi : i' < i
    · rw [he i' (by omega)]
    · simp [hi]
  have hl : ∀ j k, j ≤ i → k ≤ i → (LexBefore node' j k ↔ LexBefore node j k) := by
    intro j k hj hk
    rw [LexBefore, LexBefore, he j hj, he k hk]
  obtain ⟨h₁, h₂, h₃, h₄⟩ := h
  rw [MergesLeast, he i (le_refl _)]
  have hll := h₁.1
  have hrl := h₂.1
  refine ⟨(hu _).2 h₁, (hu _).2 h₂, (hl _ _ hll.le hrl.le).2 h₃, fun j hj => ?_⟩
  have hj' := (hu j).1 hj
  exact (h₄ j hj').imp_right (Or.imp_right (hl _ _ hrl.le hj'.1.le).2)

/-- The record that merges the queue's first two elements merges the least pair (R150, R152). -/
theorem Forest.mergesLeast_new {n : Nat} {nd : List Node} {a b : QEntry} {q : List QEntry}
    (h : Forest n nd (a :: b :: q)) (hn : n ≤ 256) (hs : (a :: b :: q).Pairwise QEntry.le) :
    MergesLeast (nodeOf (nd ++ [mergeNode a b])) nd.length := by
  have hlen := h.len
  simp only [List.length_cons] at hlen
  have ha := h.entry a (by simp)
  have hb := h.entry b (by simp)
  have hla : (mergeNode a b).left.toNat = a.2 := by simp [mergeNode]; omega
  have hlb : (mergeNode a b).right.toNat = b.2 := by simp [mergeNode]; omega
  have hself := nodeOf_append_self nd (mergeNode a b)
  have hold : ∀ i, i < nd.length → nodeOf (nd ++ [mergeNode a b]) i = nodeOf nd i :=
    fun i hi => nodeOf_append_left hi
  have hu : ∀ j, Unclaimed (nodeOf (nd ++ [mergeNode a b])) nd.length j
      ↔ j ∈ (a :: b :: q).map Prod.snd := by
    intro j
    rw [← h.unclaimed_iff j]
    unfold Unclaimed
    refine and_congr_right fun _ => forall_congr' fun i' => ?_
    by_cases hi : i' < nd.length
    · rw [childOf_append hi]
    · simp [hi]
  have hlex : ∀ e f : QEntry, e ∈ (a :: b :: q) → f ∈ (a :: b :: q) → e.le f → e.2 ≠ f.2 →
      LexBefore (nodeOf (nd ++ [mergeNode a b])) e.2 f.2 := by
    intro e f he hf hle hne
    have h₁ := h.entry e he
    have h₂ := h.entry f hf
    rw [LexBefore, hold _ h₁.1, hold _ h₂.1, ← h₁.2, ← h₂.2]
    unfold QEntry.le at hle
    omega
  have hnd := h.nodup
  simp only [List.map_cons, List.nodup_cons, List.mem_cons, not_or] at hnd
  simp only [List.pairwise_cons, List.mem_cons] at hs
  rw [MergesLeast, hself, hla, hlb]
  refine ⟨(hu _).2 (by simp), (hu _).2 (by simp),
    hlex a b (by simp) (by simp) (hs.1 b (.inl rfl)) hnd.1.1, fun j hj => ?_⟩
  obtain ⟨e, he, rfl⟩ := List.mem_map.1 ((hu j).1 hj)
  rcases List.mem_cons.1 he with rfl | he'
  · exact .inl rfl
  · rcases List.mem_cons.1 he' with rfl | he''
    · exact .inr (.inl rfl)
    · refine .inr (.inr (hlex b e (by simp) he (hs.2.1 e he'') fun heq => hnd.2.1 ?_))
      exact heq ▸ List.mem_map.2 ⟨e, he'', rfl⟩

/-- Every record that the loop makes merges the least pair of its time (R150, R152). -/
theorem Forest.merge_least {n : Nat} (hn : n ≤ 256) :
    ∀ (fuel : Nat) (nd : List Node) (q : List QEntry), Forest n nd q → q.Pairwise QEntry.le →
      (q.map Prod.fst).sum < 2 ^ 32 →
      (∀ i, n ≤ i → i < nd.length → MergesLeast (nodeOf nd) i) →
      ∀ i, n ≤ i → i < (nd ++ (Machine.merge fuel q nd.length).1).length →
        MergesLeast (nodeOf (nd ++ (Machine.merge fuel q nd.length).1)) i := by
  intro fuel
  induction fuel with
  | zero =>
    intro nd q _ _ _ hm
    match q with
    | [] => simpa [Machine.merge] using hm
    | [e] => simpa [Machine.merge] using hm
    | a :: b :: q => simpa [Machine.merge] using hm
  | succ fuel ih =>
    intro nd q h hs hw hm
    match q, h, hs, hw with
    | [], _, _, _ => simpa [Machine.merge] using hm
    | [e], _, _, _ => simpa [Machine.merge] using hm
    | a :: b :: q, h, hs, hw =>
      simp only [List.map_cons, List.sum_cons] at hw
      have hp := perm_enqueue (a.1 + b.1, nd.length) q
      have hq : q.Pairwise QEntry.le := (List.pairwise_cons.1 (List.pairwise_cons.1 hs).2).2
      have := ih (nd ++ [mergeNode a b]) _ ((h.merge_step hn (by omega)).perm hp.symm)
        (sorted_enqueue _ hq) (by rw [(hp.map _).sum_eq]; simp; omega) (by
          intro i h₁ h₂
          rcases Nat.lt_or_ge i nd.length with hi | hi
          · exact mergesLeast_congr (hm i h₁ hi) fun k hk => nodeOf_append_left (by omega)
          · have : i = nd.length := by simp at h₂; omega
            subst this
            exact h.mergesLeast_new hn hs)
      simpa [Machine.merge] using this

/-! ### The built tree -/

theorem node_eq_nodeOf (t : Tree) : t.node = nodeOf t.nodes := rfl

/-- Leaf `i` is the `i`-th symbol of the alphabet with its count (R150, R153). -/
theorem nodeOf_leaves (f : FreqTable) (i : Nat) (h : i < (alphabet f).length) :
    nodeOf (leaves f) i = ⟨.leaf, ((alphabet f)[i]).1, ((alphabet f)[i]).2, 0, 0⟩ := by
  simp [nodeOf, leaves, h]

theorem sum_filter_ne_zero {α : Type} (w : α → Word) (xs : List α) :
    ((xs.filter fun a => w a != 0).map fun a => (w a).toNat).sum = (xs.map fun a => (w a).toNat).sum := by
  induction xs with
  | nil => rfl
  | cons x xs ih =>
    rw [List.filter_cons]
    split
    · rw [List.map_cons, List.sum_cons, ih, List.map_cons, List.sum_cons]
    · rename_i h
      have : w x = 0 := by simpa using h
      rw [ih, List.map_cons, List.sum_cons, this]
      exact (Nat.zero_add _).symm

/-- The leaves weigh as much as the whole table (R151). -/
theorem sum_alphabet (f : FreqTable) :
    ((alphabet f).map fun p => p.2.toNat).sum = weightSum f := by
  rw [alphabet, sum_filter_ne_zero, weightSum_eq, entries_eq_map_lookup, List.map_map]
  rfl

theorem perm_leafQueue (ls : List Node) :
    (leafQueue ls).Perm (ls.zipIdx.map fun p => (p.1.weight.toNat, p.2)) := perm_foldr_enqueue _

theorem sum_leafQueue (f : FreqTable) : ((leafQueue (leaves f)).map Prod.fst).sum = weightSum f := by
  rw [((perm_leafQueue _).map _).sum_eq, List.map_map, ← sum_alphabet]
  congr 1
  have : ((leaves f).zipIdx.map (Prod.fst ∘ fun p : Node × Nat => (p.1.weight.toNat, p.2)))
      = ((leaves f).zipIdx.map Prod.fst).map fun nd => nd.weight.toNat := by rw [List.map_map]; rfl
  rw [this, List.zipIdx_map_fst, leaves, List.map_map]
  rfl

/-- The leaves are a forest without internal records (R150). -/
theorem forest_leaves (f : FreqTable) :
    Forest (alphabet f).length (leaves f) (leafQueue (leaves f)) := by
  have hl := length_leaves f
  have hk : ∀ i, i < (leaves f).length → (nodeOf (leaves f) i).kind = .leaf := by
    intro i hi; rw [nodeOf_leaves f i (hl ▸ hi)]
  have base : Forest (alphabet f).length (leaves f)
      ((leaves f).zipIdx.map fun p => (p.1.weight.toNat, p.2)) := by
    refine ⟨by simp [hl]; omega, by omega, fun i hi => hk i (by omega), fun i h₁ h₂ => by omega,
      ?_, ?_, ?_, ?_⟩
    · intro e he
      obtain ⟨⟨nd, i⟩, hp, rfl⟩ := List.mem_map.1 he
      have hi := List.mem_zipIdx' hp
      refine ⟨hi.1, ?_⟩
      simp [nodeOf, List.getElem?_eq_getElem hi.1, hi.2]
    · rw [List.map_map]
      have : (Prod.snd ∘ fun p : Node × Nat => (p.1.weight.toNat, p.2)) = Prod.snd := rfl
      rw [this, List.zipIdx_map_snd]
      exact List.nodup_range'
    · intro e _ i hi hc
      have := hc.1
      rw [hk i hi] at this
      cases this
    · intro j hj hq
      exfalso
      apply hq
      rw [List.map_map]
      have : (Prod.snd ∘ fun p : Node × Nat => (p.1.weight.toNat, p.2)) = Prod.snd := rfl
      rw [this, List.zipIdx_map_snd]
      simpa using hj
  exact base.perm (perm_leafQueue _).symm

/-- A forest of one root over at least one leaf is a built tree, if its leaves are in order (R153). -/
theorem Forest.treeShape {n w r : Nat} {nd : List Node} (h : Forest n nd [(w, r)]) (h₁ : 1 ≤ n)
    (h₂ : n ≤ 256) (hl : ∀ i, i < n → LeafOk (nodeOf nd i))
    (ha : ∀ i j, i < j → j < n → (nodeOf nd i).sym.toNat < (nodeOf nd j).sym.toNat) :
    TreeShape (nodeOf nd) n r ∧ nd.length = 2 * n - 1 ∧ (nodeOf nd r).weight.toNat = w := by
  have hlen := h.len
  simp only [List.length_singleton] at hlen
  have he := h.entry (w, r) (by simp)
  have hr : r = 2 * n - 2 := by
    by_contra hne
    obtain ⟨i, ⟨hi, hc⟩, _⟩ := h.parent (2 * n - 2) (by omega) (by simpa using fun h => hne h.symm)
    rcases Nat.lt_or_ge i n with hin | hin
    · have := hc.1; rw [h.leaf i hin] at this; cases this
    · have ho := h.internal i hin hi
      rcases hc.2 with hc | hc
      · have := ho.2.2.1; omega
      · have := ho.2.2.2.1; omega
  refine ⟨⟨h₁, h₂, hr, hl, ha, fun i hi hi' => h.internal i hi (by omega), ?_⟩, by omega, he.2.symm⟩
  intro j hj
  obtain ⟨i, ⟨hi, hc⟩, hu⟩ := h.parent j (by omega) (by simp; omega)
  exact ⟨i, ⟨by omega, hc⟩, fun i' hi' hc' => hu i' (by omega) hc'⟩

/-- The tree of a table (R150, R153, R154): its shape, its size, its root's weight, and its leaves. -/
theorem buildTree_ok {f : FreqTable} {t : Tree} (h : buildTree f = .ok t) :
    TreeShape t.node (alphabet f).length t.root
      ∧ t.nodes.length = 2 * (alphabet f).length - 1
      ∧ (t.node t.root).weight.toNat = weightSum f
      ∧ ∀ i (hi : i < (alphabet f).length), t.node i = ⟨.leaf, ((alphabet f)[i]).1, ((alphabet f)[i]).2, 0, 0⟩ := by
  rcases buildTree_cases f with ⟨_, h'⟩ | ⟨_, _, h'⟩ | ⟨hne, hw, h'⟩ <;> rw [h'] at h <;> cases h
  have hl := length_leaves f
  have h1 : 1 ≤ (alphabet f).length := by
    rw [← hl]; exact List.length_pos_iff.2 hne
  have h256 := length_alphabet_le f
  have hq : (leafQueue (leaves f)).length = (leaves f).length := by
    rw [(perm_leafQueue _).length_eq]; simp
  have hF := Forest.merge h256 (leaves f).length (leaves f) (leafQueue (leaves f)) (forest_leaves f)
    (by intro h0; rw [h0] at hq; simp at hq; omega) hq.le
    (by rw [sum_leafQueue]; omega)
  rw [sum_leafQueue] at hF
  have hleaf : ∀ i (hi : i < (alphabet f).length),
      nodeOf (leaves f ++ (merge (leaves f).length (leafQueue (leaves f)) (leaves f).length).1) i
        = ⟨.leaf, ((alphabet f)[i]).1, ((alphabet f)[i]).2, 0, 0⟩ := by
    intro i hi
    rw [nodeOf_append_left (by omega), nodeOf_leaves f i hi]
  obtain ⟨hs, hlen, hwt⟩ := hF.treeShape h1 h256
    (by
      intro i hi
      rw [hleaf i hi]
      exact ⟨rfl, rfl, rfl, ((mem_alphabet f _).1 (List.getElem_mem hi)).2⟩)
    (by
      intro i j hij hj
      rw [hleaf i (by omega), hleaf j hj]
      exact (List.pairwise_iff_getElem.1 (alphabet_sorted f)) i j (by omega) hj hij)
  exact ⟨hs, hlen, hwt, hleaf⟩

/-- Every internal record of a table's tree merges the least pair of its time (R150, R152). -/
theorem mergesLeast_of_buildTree {f : FreqTable} {t : Tree} (h : buildTree f = .ok t) (i : Nat)
    (h₁ : (alphabet f).length ≤ i) (h₂ : i < t.nodes.length) : MergesLeast t.node i := by
  rcases buildTree_cases f with ⟨_, h'⟩ | ⟨_, _, h'⟩ | ⟨_, hw, h'⟩ <;> rw [h'] at h <;> cases h
  exact Forest.merge_least (length_alphabet_le f) _ _ _ (forest_leaves f) (sorted_foldr_enqueue _)
    (by rw [sum_leafQueue]; omega)
    (fun i h h' => by have := length_leaves f; omega) i h₁ h₂

/-! ### Paths -/

theorem reach_append (node : Nat → Node) (i : Nat) (c d : Bits) :
    reach node i (c ++ d) = (reach node i c).bind fun k => reach node k d := by
  induction c generalizing i with
  | nil => rfl
  | cons b c ih =>
    rw [List.cons_append, reach, reach]
    cases (node i).kind with
    | leaf => rfl
    | internal => exact ih _

theorem reach_leaf {node : Nat → Node} {i : Nat} (h : (node i).kind = .leaf) (c : Bits) :
    reach node i c = if c = [] then some i else none := by
  cases c with
  | nil => rfl
  | cons b c => simp [reach, h]

/-- A record below the root is an internal one exactly when it is past the leaves. -/
theorem TreeShape.kind_eq {node : Nat → Node} {n root : Nat} (h : TreeShape node n root) {i : Nat}
    (hi : i < 2 * n - 1) : (node i).kind = .leaf ↔ i < n := by
  constructor
  · intro hk
    by_contra hn
    have := (h.internal i (by omega) hi).1
    rw [hk] at this
    cases this
  · exact fun hn => (h.leaf i hn).1

/-- What a path from a record of a tree reaches is a record of the tree, and the path is no longer than
the number of internal records at or below that record (R172). -/
theorem TreeShape.reach_bound {node : Nat → Node} {n root : Nat} (h : TreeShape node n root)
    {c : Bits} {i k : Nat} (hi : i < 2 * n - 1) (hr : reach node i c = some k) :
    k ≤ i ∧ (c ≠ [] → k < i) ∧ c.length + n ≤ max n (i + 1) := by
  induction c generalizing i with
  | nil => cases hr; simp
  | cons b c ih =>
    rw [reach] at hr
    split at hr
    · cases hr
    · rename_i hk
      have hin : n ≤ i := by
        by_contra hn
        have := (h.leaf i (by omega)).1
        rw [hk] at this; cases this
      have ho := h.internal i hin hi
      have hlt : (if b = true then (node i).right.toNat else (node i).left.toNat) < i := by
        split
        · exact ho.2.2.2.1
        · exact ho.2.2.1
      have := ih (i := if b = true then (node i).right.toNat else (node i).left.toNat) (by omega) hr
      simp only [List.length_cons]
      omega

/-- Every record of a tree is reached from its root (R154). -/
theorem TreeShape.exists_reach {node : Nat → Node} {n root : Nat} (h : TreeShape node n root)
    (j : Nat) (hj : j < 2 * n - 1) : ∃ c, reach node root c = some j := by
  obtain ⟨d, hd⟩ : ∃ d, d = 2 * n - 2 - j := ⟨_, rfl⟩
  induction d using Nat.strong_induction_on generalizing j with
  | _ d ih =>
    by_cases hr : j = root
    · exact ⟨[], by rw [hr]; rfl⟩
    · have hre := h.root_eq
      obtain ⟨i, ⟨hi, hc⟩, _⟩ := h.one_parent j (by omega)
      have hin : n ≤ i := by
        by_contra hn
        have := (h.leaf i (by omega)).1
        rw [hc.1] at this; cases this
      have ho := h.internal i hin hi
      have hji : j < i := by
        rcases hc.2 with hc | hc
        · have := ho.2.2.1; omega
        · have := ho.2.2.2.1; omega
      obtain ⟨c, hcr⟩ := ih (2 * n - 2 - i) (by omega) i hi rfl
      rcases hc.2 with hc' | hc'
      · exact ⟨c ++ [false], by simp [reach_append, hcr, reach, hc.1, hc']⟩
      · exact ⟨c ++ [true], by simp [reach_append, hcr, reach, hc.1, hc']⟩

/-- In a walk of everything below a record of a tree, another record is met as often as its parent. -/
theorem TreeShape.count_visits {node : Nat → Node} {n root : Nat} (h : TreeShape node n root)
    {j p : Nat} (hp : p < 2 * n - 1) (hc : ChildOf node j p)
    (hu : ∀ i, i < 2 * n - 1 → ChildOf node j i → i = p) :
    ∀ fuel i, i < fuel → i < 2 * n - 1 → j ≠ i →
      (visits node fuel i).count j = (visits node fuel i).count p := by
  have hle : ∀ fuel i, i < 2 * n - 1 → ∀ x ∈ visits node fuel i, x ≤ i := by
    intro fuel
    induction fuel with
    | zero => intro i _ x hx; cases hx
    | succ fuel ih =>
      intro i hi x hx
      rw [visits] at hx
      split at hx
      · simp at hx; omega
      · rename_i hk
        have hin : n ≤ i := by
          by_contra hn
          have := (h.leaf i (by omega)).1
          rw [hk] at this; cases this
        have ho := h.internal i hin hi
        rcases List.mem_cons.1 hx with rfl | hx
        · exact le_refl _
        · rcases List.mem_append.1 hx with hx | hx
          · have := ih _ (by have := ho.2.2.1; omega) x hx; have := ho.2.2.1; omega
          · have := ih _ (by have := ho.2.2.2.1; omega) x hx; have := ho.2.2.2.1; omega
  have hself : ∀ fuel i, i < fuel → i < 2 * n - 1 → (visits node fuel i).count i = 1 := by
    intro fuel i hf hi
    obtain ⟨fuel, rfl⟩ : ∃ k, fuel = k + 1 := ⟨fuel - 1, by omega⟩
    rw [visits]
    split
    · simp
    · rename_i hk
      have hin : n ≤ i := by
        by_contra hn
        have := (h.leaf i (by omega)).1
        rw [hk] at this; cases this
      have ho := h.internal i hin hi
      rw [List.count_cons_self, List.count_append, List.count_eq_zero_of_not_mem,
        List.count_eq_zero_of_not_mem]
      · intro hm; have := hle _ _ (by have := ho.2.2.2.1; omega) _ hm; have := ho.2.2.2.1; omega
      · intro hm; have := hle _ _ (by have := ho.2.2.1; omega) _ hm; have := ho.2.2.1; omega
  have hzero : ∀ fuel i x, i < 2 * n - 1 → i < x → (visits node fuel i).count x = 0 := by
    intro fuel i x hi hx
    apply List.count_eq_zero_of_not_mem
    intro hm
    have := hle fuel i hi x hm
    omega
  have hpn : n ≤ p := by
    by_contra hn
    have := (h.leaf p (by omega)).1
    rw [hc.1] at this; cases this
  intro fuel
  induction fuel with
  | zero => intro i hi; omega
  | succ fuel ih =>
    intro i hf hi hji
    rw [visits]
    split
    · rename_i hk
      have : p ≠ i := by rintro rfl; rw [hc.1] at hk; cases hk
      simp [Ne.symm hji, Ne.symm this]
    · rename_i hk
      have hin : n ≤ i := by
        by_contra hn
        have := (h.leaf i (by omega)).1
        rw [hk] at this; cases this
      have ho := h.internal i hin hi
      have hl := ho.2.2.1
      have hr := ho.2.2.2.1
      have hlr : (node i).left.toNat ≠ (node i).right.toNat := fun e =>
        ho.2.2.2.2.1 (BitVec.eq_of_toNat_eq e)
      rw [List.count_cons_of_ne (Ne.symm hji), List.count_append]
      by_cases hpi : p = i
      · subst hpi
        rw [List.count_cons_self, List.count_append, hzero fuel _ p (by omega) hl,
          hzero fuel _ p (by omega) hr]
        rcases hc.2 with hc' | hc'
        · have h2 := ih (node p).right.toNat (by omega) (by omega) (by omega)
          rw [hzero fuel _ p (by omega) hr] at h2
          rw [h2, ← hc', hself fuel _ (by omega) (by omega)]
        · have h2 := ih (node p).left.toNat (by omega) (by omega) (by omega)
          rw [hzero fuel _ p (by omega) hl] at h2
          rw [h2, ← hc', hself fuel _ (by omega) (by omega)]
      · have hjl : j ≠ (node i).left.toNat := fun e => hpi (hu i hi ⟨hk, .inl e.symm⟩).symm
        have hjr : j ≠ (node i).right.toNat := fun e => hpi (hu i hi ⟨hk, .inr e.symm⟩).symm
        rw [List.count_cons_of_ne (Ne.symm hpi), List.count_append,
          ih _ (by omega) (by omega) hjl, ih _ (by omega) (by omega) hjr]

end Sys2Proof.Machine
end

