-- ==== Sys2Proof/Laws/Codes.lean ====
section
/-! SUPPORT. What the code-table generator makes of a built tree: the walk gives each leaf its path, and an entry holds the path of its symbol's leaf; what the greedy walk does with one code. -/

namespace Sys2Proof.Machine

/-! ### The walk -/

/-- Every pair of the walk is a leaf below `i` with its path (R171). -/
theorem of_mem_walk {node : Nat → Node} {fuel i : Nat} {c c' : Bits} {x : Symbol}
    (h : (x, c') ∈ walk node fuel i c) :
    ∃ d k, c' = c ++ d ∧ reach node i d = some k ∧ (node k).kind = .leaf ∧ (node k).sym = x := by
  induction fuel generalizing i c with
  | zero => cases h
  | succ fuel ih =>
    rw [walk] at h
    split at h
    · rename_i hk
      obtain ⟨rfl, rfl⟩ := Prod.mk.injEq .. ▸ List.mem_singleton.1 h
      exact ⟨[], i, by simp, rfl, hk, rfl⟩
    · rename_i hk
      rcases List.mem_append.1 h with h | h
      · obtain ⟨d, k, rfl, hr, hl⟩ := ih h
        exact ⟨false :: d, k, by simp, by simpa [reach, hk] using hr, hl⟩
      · obtain ⟨d, k, rfl, hr, hl⟩ := ih h
        exact ⟨true :: d, k, by simp, by simpa [reach, hk] using hr, hl⟩

/-- Every leaf below `i` is in the walk with its path, if the fuel is longer than the path (R171). -/
theorem mem_walk {node : Nat → Node} {fuel i k : Nat} {c d : Bits} (hf : d.length < fuel)
    (hr : reach node i d = some k) (hk : (node k).kind = .leaf) :
    ((node k).sym, c ++ d) ∈ walk node fuel i c := by
  induction d generalizing fuel i c with
  | nil =>
    cases hr
    obtain ⟨fuel, rfl⟩ : ∃ m, fuel = m + 1 := ⟨fuel - 1, by simp at hf; omega⟩
    simp [walk, hk]
  | cons b d ih =>
    obtain ⟨fuel, rfl⟩ : ∃ m, fuel = m + 1 := ⟨fuel - 1, by simp at hf; omega⟩
    rw [reach] at hr
    split at hr
    · cases hr
    · rename_i hi
      rw [walk, hi]
      have := ih (fuel := fuel) (c := c ++ [b]) (by simp at hf; omega) hr
      rw [List.append_assoc, List.singleton_append] at this
      cases b
      · exact List.mem_append_left _ this
      · exact List.mem_append_right _ this

/-- The walk reads no record that it does not reach: two arenas that agree on the records of a tree give
the same walk. -/
theorem TreeShape.walk_congr {node node' : Nat → Node} {n root : Nat} (h : TreeShape node n root)
    (he : ∀ k, k < 2 * n - 1 → node' k = node k) :
    ∀ (fuel i : Nat) (c : Bits), i < 2 * n - 1 → walk node' fuel i c = walk node fuel i c := by
  intro fuel
  induction fuel with
  | zero => intro i c _; rfl
  | succ fuel ih =>
    intro i c hi
    rw [walk, walk, he i hi]
    split
    · rfl
    · rename_i hk
      have ho := h.internal i (by
        by_contra hn
        have := (h.leaf i (by omega)).1
        rw [hk] at this; cases this) hi
      rw [ih _ _ (by have := ho.2.2.1; omega), ih _ _ (by have := ho.2.2.2.1; omega)]

theorem TreeShape.codeTable_congr {node node' : Nat → Node} {n root : Nat}
    (h : TreeShape node n root) (he : ∀ k, k < 2 * n - 1 → node' k = node k) :
    codeTable node' root = codeTable node root := by
  have hr : root < 2 * n - 1 := by have := h.root_eq; have := h.leaves_pos; omega
  unfold codeTable codeAssignments
  rw [he root hr, h.walk_congr he 511 root [] hr]

/-- The records of a stored tree are the tree's. -/
theorem nodeAt_storeTree (s : State) (t : Tree) (i : Nat) (h : i < t.nodes.length)
    (h' : t.nodes.length ≤ 511) : nodeAt (s.storeTree t).arena i = t.node i := by
  rw [State.storeTree, nodeAt_tabulate _ i (by omega), Tree.node,
    List.getElem?_eq_getElem h]
  rfl

/-! ### The table -/

/-- An entry after a row of assignments is that of some assignment to its symbol, or the old one. -/
theorem lookup_foldl_assign (ps : List (Symbol × Bits)) (t : CodeTable) (x : Symbol) :
    (∃ c, (x, c) ∈ ps
      ∧ lookup (ps.foldl (fun t p => assign t p.1 (CodeEntry.ofBits p.2)) t) x = CodeEntry.ofBits c)
    ∨ ((∀ c, (x, c) ∉ ps)
      ∧ lookup (ps.foldl (fun t p => assign t p.1 (CodeEntry.ofBits p.2)) t) x = lookup t x) := by
  induction ps generalizing t with
  | nil => exact .inr ⟨fun c h => (by cases h), rfl⟩
  | cons p ps ih =>
    rw [List.foldl_cons]
    rcases ih (assign t p.1 (CodeEntry.ofBits p.2)) with ⟨c, hc, he⟩ | ⟨hn, he⟩
    · exact .inl ⟨c, List.mem_cons_of_mem _ hc, he⟩
    · rw [he, lookup_assign]
      by_cases hx : x = p.1
      · exact .inl ⟨p.2, by simp [hx], by simp [hx]⟩
      · refine .inr ⟨fun c hc => ?_, by simp [hx]⟩
        rcases List.mem_cons.1 hc with h | h
        · exact hx (congrArg Prod.fst h)
        · exact hn c h

/-- Every entry of the table of a built tree (R170 to R172): the path of a leaf with that symbol, or "no
code" for a symbol that no leaf has. -/
theorem TreeShape.codeTable_cases {node : Nat → Node} {n root : Nat} (h : TreeShape node n root)
    (x : Symbol) :
    (∃ c k, lookup (codeTable node root) x = CodeEntry.ofBits c ∧ k < n ∧ (node k).sym = x
      ∧ 1 ≤ c.length ∧ c.length ≤ 255 ∧ (n = 1 → c = [false])
      ∧ (n ≠ 1 → reach node root c = some k ∧ c.length + 1 ≤ n))
    ∨ (lookup (codeTable node root) x = noCode ∧ ∀ k, k < n → (node k).sym ≠ x) := by
  have hpos := h.leaves_pos
  have hle := h.leaves_le
  have hre := h.root_eq
  have hroot : root < 2 * n - 1 := by omega
  rcases lookup_foldl_assign (codeAssignments node root) emptyCodes x with ⟨c, hc, he⟩ | ⟨hn, he⟩
  · left
    by_cases h1 : n = 1
    · have hk : (node root).kind = .leaf := (h.kind_eq hroot).2 (by omega)
      rw [codeAssignments, hk] at hc
      obtain ⟨rfl, rfl⟩ := Prod.mk.injEq .. ▸ List.mem_singleton.1 hc
      exact ⟨[false], root, he, by omega, rfl, by simp, by simp, fun _ => rfl, fun h' => absurd h1 h'⟩
    · have hk : (node root).kind = .internal := (h.internal root (by omega) hroot).1
      rw [codeAssignments, hk] at hc
      obtain ⟨d, k, hd, hr, hkl, hs⟩ := of_mem_walk hc
      rw [List.nil_append] at hd
      subst hd
      have hb := h.reach_bound hroot hr
      have hkn : k < n := (h.kind_eq (by omega)).1 hkl
      have hne : c ≠ [] := by
        rintro rfl
        cases hr
        rw [hk] at hkl; cases hkl
      have := List.length_pos_iff.2 hne
      exact ⟨c, k, he, hkn, hs, by omega, by omega, fun h' => absurd h' h1, fun _ => ⟨hr, by omega⟩⟩
  · right
    refine ⟨he.trans (lookup_emptyCodes x), fun k hk hs => ?_⟩
    by_cases h1 : n = 1
    · have hkl : (node root).kind = .leaf := (h.kind_eq hroot).2 (by omega)
      have hkr : k = root := by omega
      refine hn [false] ?_
      rw [codeAssignments, hkl, ← hs, hkr]
      exact List.mem_singleton.2 rfl
    · have hki : (node root).kind = .internal := (h.internal root (by omega) hroot).1
      obtain ⟨c, hr⟩ := h.exists_reach k (by omega)
      have hb := h.reach_bound hroot hr
      refine hn c ?_
      rw [codeAssignments, hki, ← hs]
      exact mem_walk (c := []) (by omega) hr (h.leaf k hk).1

/-! ### The inverse lookup -/

theorem mem_codeBook (ct : CodeTable) (x : Symbol) (c : Bits) :
    (x, c) ∈ codeBook ct ↔ HasCode ct x ∧ codeOf ct x = c := by
  simp only [codeBook, List.mem_map, mem_codedSymbols, HasCode, codeOf, Prod.mk.injEq, Prod.exists]
  constructor
  · rintro ⟨y, e, ⟨he, hl⟩, rfl, rfl⟩
    subst he
    exact ⟨hl, rfl⟩
  · rintro ⟨hl, rfl⟩
    exact ⟨x, _, ⟨rfl, hl⟩, rfl, rfl⟩

theorem codeBook_sorted (ct : CodeTable) :
    (codeBook ct).Pairwise fun p q => p.1.toNat < q.1.toNat := by
  rw [codeBook, List.pairwise_map]
  exact codedSymbols_sorted ct

/-- What a match means (R192). -/
theorem matchCode_some {ct : CodeTable} {c : Bits} {x : Symbol}
    (h : matchCode (codeBook ct) c = some x) : HasCode ct x ∧ codeOf ct x = c := by
  unfold matchCode at h
  cases hf : (codeBook ct).find? (fun p => p.2 == c) with
  | none => rw [hf] at h; cases h
  | some p =>
    rw [hf] at h
    obtain ⟨y, d⟩ := p
    cases h
    have h₁ := List.find?_some hf
    have h₂ := (mem_codeBook ct y d).1 (List.mem_of_find?_eq_some hf)
    have : d = c := by simpa using h₁
    exact this ▸ h₂

/-- What no match means (R192). -/
theorem matchCode_none {ct : CodeTable} {c : Bits} :
    matchCode (codeBook ct) c = none ↔ ∀ x, HasCode ct x → codeOf ct x ≠ c := by
  unfold matchCode
  rw [Option.map_eq_none_iff, List.find?_eq_none]
  constructor
  · intro h x hx he
    exact absurd (h (x, c) ((mem_codeBook ct x c).2 ⟨hx, he⟩)) (by simp)
  · rintro h ⟨x, d⟩ hp
    obtain ⟨hx, rfl⟩ := (mem_codeBook ct x d).1 hp
    simpa using h x hx

/-- A symbol with a code is matched by it, if no other symbol has the same code (R192, R193). -/
theorem matchCode_codeOf {ct : CodeTable} (hcf : ConflictFree ct) {x : Symbol} (hx : HasCode ct x) :
    matchCode (codeBook ct) (codeOf ct x) = some x := by
  cases hm : matchCode (codeBook ct) (codeOf ct x) with
  | none => exact absurd rfl (matchCode_none.1 hm x hx)
  | some y =>
    obtain ⟨hy, he⟩ := matchCode_some hm
    rw [hcf y x hy hx he]

theorem conflictFree_of_prefixFree {ct : CodeTable} (h : PrefixFree ct) : ConflictFree ct := by
  intro x y hx hy he
  by_contra hne
  exact h x y hx hy hne (he ▸ List.prefix_rfl)

/-- What no conflict means (R193). -/
theorem conflictIn_none {book : List (Symbol × Bits)} :
    conflictIn book = none ↔ book.Pairwise fun p q => q.2 ≠ p.2 := by
  induction book with
  | nil => simp [conflictIn]
  | cons p rest ih =>
    rw [conflictIn, List.pairwise_cons, ← ih]
    cases hf : rest.find? (fun q => q.2 == p.2) with
    | none =>
      rw [List.find?_eq_none] at hf
      simp only [iff_and_self]
      intro _ q hq
      simpa using hf q hq
    | some q =>
      simp only [reduceCtorEq, false_iff, not_and]
      intro h
      exact absurd (by simpa using List.find?_some hf) (h q (List.mem_of_find?_eq_some hf))

/-- A table has no conflict exactly when UNPACK's check finds none (R193). -/
theorem conflictIn_codeBook_none (ct : CodeTable) :
    conflictIn (codeBook ct) = none ↔ ConflictFree ct := by
  rw [conflictIn_none]
  constructor
  · intro h x y hx hy he
    by_contra hne
    have hmx := (mem_codeBook ct x _).2 ⟨hx, rfl⟩
    have hmy := (mem_codeBook ct y _).2 ⟨hy, rfl⟩
    obtain ⟨i, hi, hei⟩ := List.getElem_of_mem hmx
    obtain ⟨j, hj, hej⟩ := List.getElem_of_mem hmy
    rw [List.pairwise_iff_getElem] at h
    rcases Nat.lt_trichotomy i j with hij | hij | hij
    · exact h i j hi hj hij (by rw [hei, hej]; exact he.symm)
    · subst hij; exact hne (congrArg Prod.fst (hei.symm.trans hej))
    · exact h j i hj hi hij (by rw [hei, hej]; exact he)
  · intro h
    refine (codeBook_sorted ct).imp_of_mem ?_
    rintro ⟨x, c⟩ ⟨y, d⟩ hx hy hlt he
    obtain ⟨hx', rfl⟩ := (mem_codeBook ct x c).1 hx
    obtain ⟨hy', rfl⟩ := (mem_codeBook ct y d).1 hy
    have := h y x hy' hx' he
    subst this
    exact absurd hlt (Nat.lt_irrefl _)

/-! ### The greedy walk on one code -/

/-- While no prefix of the candidate matches, the walk only accumulates. -/
theorem greedy_accumulate (book : List (Symbol × Bits)) (cand bits rest : Bits)
    (h : ∀ k, 0 < k → k ≤ bits.length → matchCode book (cand ++ bits.take k) = none) :
    greedy book cand (bits ++ rest) = greedy book (cand ++ bits) rest := by
  induction bits generalizing cand with
  | nil => simp
  | cons b bits ih =>
    have h1 := h 1 (by omega) (by simp)
    rw [List.take_succ_cons, List.take_zero] at h1
    rw [List.cons_append, greedy, h1]
    simp only
    rw [ih (cand ++ [b])]
    · simp
    · intro k hk hk'
      have := h (k + 1) (by omega) (by simpa using hk')
      simpa using this

/-- Over a prefix-free table the walk reads a code as its symbol and starts anew (R194). -/
theorem greedy_code {ct : CodeTable} (hpf : PrefixFree ct) {x : Symbol} (hx : HasCode ct x)
    (rest : Bits) :
    greedy (codeBook ct) [] (codeOf ct x ++ rest)
      = (x :: (greedy (codeBook ct) [] rest).1, (greedy (codeBook ct) [] rest).2) := by
  have hlen : (codeOf ct x).length = (lookup ct x).len.toNat := length_code _
  have hne : codeOf ct x ≠ [] := by
    intro h0
    rw [h0] at hlen
    exact hx (BitVec.eq_of_toNat_eq hlen.symm)
  obtain ⟨c, b, hcb⟩ : ∃ c b, codeOf ct x = c ++ [b] :=
    ⟨_, _, (List.dropLast_append_getLast hne).symm⟩
  have hnone : ∀ k, 0 < k → k ≤ c.length → matchCode (codeBook ct) ([] ++ c.take k) = none := by
    intro k _ hk
    rw [List.nil_append, matchCode_none]
    intro y hy he
    have hpre : codeOf ct y <+: codeOf ct x := by
      rw [he, hcb]
      exact (List.take_prefix k c).trans (List.prefix_append c [b])
    by_cases hyx : y = x
    · subst hyx
      rw [hcb] at he
      have := congrArg List.length he
      simp at this
      omega
    · exact hpf y x hy hx hyx hpre
  rw [hcb, List.append_assoc, greedy_accumulate _ _ _ _ hnone, List.nil_append, List.singleton_append,
    greedy, ← hcb, matchCode_codeOf (conflictFree_of_prefixFree hpf) hx]

end Sys2Proof.Machine
end

