-- ==== Sys2Proof/Laws/Commands.lean ====
section
/-! SUPPORT. What each command can do: one inversion lemma per meaning, from which claims about a command follow without unfolding it. -/

namespace Sys2Proof.Machine

variable {s t : State}

theorem execNop_eq (s : State) : execNop s = .next (s.finish .noError 0) := rfl

theorem execClear_eq (s : State) :
    execClear s = .next (((s.clearTables).deliver [] 0).finish .noError 0) := rfl

/-- ANALYZE (R140): the source range is not valid, or FREQ is rebuilt. -/
theorem execAnalyze_cases (h : execAnalyze s = .next t) :
    (∃ e, s.sourceError = some e ∧ t = s.finish e.code e.info)
    ∨ (s.sourceError = none ∧ t = (s.setFreq (frequencies s.sourceBytes)).finish .noError 0) := by
  unfold execAnalyze at h
  cases hb : s.sourceError with
  | some e => rw [hb] at h; exact .inl ⟨e, rfl, raise_eq_next.1 h⟩
  | none => rw [hb] at h; exact .inr ⟨rfl, complete_eq_next.1 h⟩

/-- BUILD_TREE (R150): an error of the table, or a tree is stored. -/
theorem execBuildTree_cases (h : execBuildTree s = .next t) :
    (∃ e, buildTree s.freq = .error e ∧ t = s.finish e.code e.info)
    ∨ (∃ tr, buildTree s.freq = .ok tr ∧ t = (s.storeTree tr).finish .noError 0) := by
  unfold execBuildTree at h
  cases hb : buildTree s.freq with
  | error e => rw [hb] at h; exact .inl ⟨e, rfl, raise_eq_next.1 h⟩
  | ok tr => rw [hb] at h; exact .inr ⟨tr, rfl, complete_eq_next.1 h⟩

/-- GEN_CODES (R170): there is no tree, or CT is rewritten. -/
theorem execGenCodes_cases (h : execGenCodes s = .next t) :
    (s.treeValid = false ∧ t = s.finish .noTree 0)
    ∨ (s.treeValid = true
      ∧ t = (s.setCodes (codeTable (nodeAt s.arena) s.root.toNat)).finish .noError 0) := by
  unfold execGenCodes at h
  split at h
  · rename_i hv; exact .inr ⟨hv, complete_eq_next.1 h⟩
  · rename_i hv; exact .inl ⟨by simpa using hv, raise_eq_next.1 h⟩

/-- PACK (R180): a range error, an empty source, an error of the packer, or the packed form delivered. -/
theorem execPack_cases (h : execPack s = .next t) :
    (∃ e, s.bufferError = some e ∧ t = s.finish e.code e.info)
    ∨ (s.bufferError = none ∧ s.srcLen = 0 ∧ t = (s.deliver [] 0).finish .noError 0)
    ∨ (s.bufferError = none ∧ s.srcLen ≠ 0
      ∧ ∃ e, packWith s.codes s.sourceBytes s.dstCap = .error e ∧ t = s.finish e.code e.info)
    ∨ (s.bufferError = none ∧ s.srcLen ≠ 0 ∧ ∃ out p,
      packWith s.codes s.sourceBytes s.dstCap = .ok (out, p)
      ∧ t = (s.deliver out p).finish .noError 0) := by
  unfold execPack at h
  cases hb : s.bufferError with
  | some e => rw [hb] at h; exact .inl ⟨e, rfl, raise_eq_next.1 h⟩
  | none =>
    rw [hb] at h
    simp only at h
    split at h
    · rename_i h0; exact .inr (.inl ⟨rfl, h0, complete_eq_next.1 h⟩)
    · rename_i h0
      cases hp : packWith s.codes s.sourceBytes s.dstCap with
      | error e => rw [hp] at h; exact .inr (.inr (.inl ⟨rfl, h0, e, rfl, raise_eq_next.1 h⟩))
      | ok r =>
        rw [hp] at h
        exact .inr (.inr (.inr ⟨rfl, h0, r.1, r.2, rfl, complete_eq_next.1 h⟩))

/-- UNPACK (R190): a range error, an empty source, an error of the unpacker, or the bytes delivered. -/
theorem execUnpack_cases (h : execUnpack s = .next t) :
    (∃ e, s.bufferError = some e ∧ t = s.finish e.code e.info)
    ∨ (s.bufferError = none ∧ s.sourceBytes = [] ∧ t = (s.deliver [] 0).finish .noError 0)
    ∨ (s.bufferError = none ∧ ∃ b body e, s.sourceBytes = b :: body
      ∧ unpackWith s.codes b body s.dstCap = .error e ∧ t = s.finish e.code e.info)
    ∨ (s.bufferError = none ∧ ∃ b body out p, s.sourceBytes = b :: body
      ∧ unpackWith s.codes b body s.dstCap = .ok (out, p)
      ∧ t = (s.deliver out p).finish .noError 0) := by
  unfold execUnpack at h
  cases hb : s.bufferError with
  | some e => rw [hb] at h; exact .inl ⟨e, rfl, raise_eq_next.1 h⟩
  | none =>
    rw [hb] at h
    cases hs : s.sourceBytes with
    | nil => rw [hs] at h; exact .inr (.inl ⟨rfl, rfl, complete_eq_next.1 h⟩)
    | cons b body =>
      rw [hs] at h
      simp only at h
      cases hp : unpackWith s.codes b body s.dstCap with
      | error e =>
        rw [hp] at h
        exact .inr (.inr (.inl ⟨rfl, b, body, e, rfl, hp, raise_eq_next.1 h⟩))
      | ok r =>
        rw [hp] at h
        exact .inr (.inr (.inr ⟨rfl, b, body, r.1, r.2, rfl, hp, complete_eq_next.1 h⟩))

/-- COMPRESS (R210): a range error, an empty source, an error of the composition, or all its results. -/
theorem execCompress_cases (h : execCompress s = .next t) :
    (∃ e, s.bufferError = some e ∧ t = s.finish e.code e.info)
    ∨ (s.bufferError = none ∧ s.srcLen = 0
      ∧ t = ((s.clearTables).deliver [] 0).finish .noError 0)
    ∨ (s.bufferError = none ∧ s.srcLen ≠ 0
      ∧ ∃ e, compressWith s.sourceBytes s.dstCap = .error e ∧ t = s.finish e.code e.info)
    ∨ (s.bufferError = none ∧ s.srcLen ≠ 0 ∧ ∃ r, compressWith s.sourceBytes s.dstCap = .ok r
      ∧ t = ((((s.setFreq r.freq).storeTree r.tree).setCodes r.codes).deliver r.out r.pad).finish
          .noError 0) := by
  unfold execCompress at h
  cases hb : s.bufferError with
  | some e => rw [hb] at h; exact .inl ⟨e, rfl, raise_eq_next.1 h⟩
  | none =>
    rw [hb] at h
    simp only at h
    split at h
    · rename_i h0; exact .inr (.inl ⟨rfl, h0, complete_eq_next.1 h⟩)
    · rename_i h0
      cases hp : compressWith s.sourceBytes s.dstCap with
      | error e => rw [hp] at h; exact .inr (.inr (.inl ⟨rfl, h0, e, rfl, raise_eq_next.1 h⟩))
      | ok r => rw [hp] at h; exact .inr (.inr (.inr ⟨rfl, h0, r, rfl, complete_eq_next.1 h⟩))

/-- The composition (R210): the tree builder's answer on the counts, and the packer's answer with the
codes of that tree. -/
theorem compressWith_cases (bytes : List Byte) (cap : Word) :
    (∃ e, buildTree (frequencies bytes) = .error e ∧ compressWith bytes cap = .error e)
    ∨ (∃ tr e, buildTree (frequencies bytes) = .ok tr
      ∧ packWith (codeTable tr.node tr.root) bytes cap = .error e
      ∧ compressWith bytes cap = .error e)
    ∨ (∃ tr out p, buildTree (frequencies bytes) = .ok tr
      ∧ packWith (codeTable tr.node tr.root) bytes cap = .ok (out, p)
      ∧ compressWith bytes cap = .ok
        { freq := frequencies bytes, tree := tr, codes := codeTable tr.node tr.root, out := out,
          pad := p }) := by
  cases hb : buildTree (frequencies bytes) with
  | error e => exact .inl ⟨e, rfl, by simp only [compressWith, hb]⟩
  | ok tr =>
    cases hp : packWith (codeTable tr.node tr.root) bytes cap with
    | error e => exact .inr (.inl ⟨tr, e, rfl, hp, by simp only [compressWith, hb, hp]⟩)
    | ok r => exact .inr (.inr ⟨tr, r.1, r.2, rfl, hp, by simp only [compressWith, hb, hp]⟩)

end Sys2Proof.Machine
end

