-- ==== Sys2Proof/Laws/PerInstr.lean ====
section
/-! SUPPORT. A statement about every command as syntax, one lemma per constructor: it is well formed and its word is a legal one with the OP of the opcode map. -/

namespace Sys2Proof.Laws.Encoding

/-- The command is well formed, its word is legal, its RSV field is 0, and its OP field is its OP (R100,
R103). -/
def Statement (i : Instr) : Prop :=
  i.wf = true ∧ wordLegal (encode i) = true ∧ rsvField (encode i) = 0 ∧ opField (encode i) = opOf i

theorem nop : Statement .nop := by unfold Statement; decide
theorem clear : Statement .clear := by unfold Statement; decide
theorem analyze : Statement .analyze := by unfold Statement; decide
theorem buildTree : Statement .buildTree := by unfold Statement; decide
theorem genCodes : Statement .genCodes := by unfold Statement; decide
theorem pack : Statement .pack := by unfold Statement; decide
theorem unpack : Statement .unpack := by unfold Statement; decide
theorem compress : Statement .compress := by unfold Statement; decide

end Sys2Proof.Laws.Encoding
end

