-- ==== Sys2Proof/Laws/Step.lean ====
section
/-! SUPPORT. What a step can do: the turn it takes, the ENGINE's turn, the HOST's accesses, and what a host register write leaves alone. -/

namespace Sys2Proof.Machine

variable {s t : State}

/-- A step is the turn that is due, taken on the state whose schedule has moved on. -/
theorem step_host (h : s.nextTurn = .host) : step s = hostTurn s.dropTurn := by simp [step, takeTurn, h]

theorem step_engine (h : s.nextTurn = .engine) : step s = engineTurn s.dropTurn := by
  simp [step, takeTurn, h]

theorem step_reset (h : s.nextTurn = .reset) : step s = .next (s.dropTurn).hardReset := by
  simp [step, takeTurn, h]

/-- The ENGINE's turn: idle, an illegal word reported, or a command executed. -/
theorem engineTurn_cases (h : engineTurn s = .next t) :
    (s.pending = none ∧ t = s)
    ∨ (∃ w v, s.pending = some w ∧ decode w = .illegal v ∧ t = s.finish .illegalCmd v)
    ∨ (∃ w i, s.pending = some w ∧ decode w = .command i ∧ exec i s = .next t) := by
  unfold engineTurn at h
  cases hp : s.pending with
  | none => rw [hp] at h; left; simp_all
  | some w =>
    rw [hp] at h
    cases hd : decode w with
    | illegal v =>
      simp only [hd] at h
      exact .inr (.inl ⟨w, v, rfl, hd, raise_eq_next.1 h⟩)
    | command i =>
      simp only [hd] at h
      exact .inr (.inr ⟨w, i, rfl, hd, h⟩)

/-- The HOST's turn: its program has ended, an access, or a poll. -/
theorem hostTurn_cases (h : hostTurn s = .next t) :
    (s.hostProg = [] ∧ t = s)
    ∨ (∃ a rest, s.hostProg = .access a :: rest ∧ hostAccess a (s.setProg rest) = .next t)
    ∨ (∃ rest, s.hostProg = .wait :: rest ∧ hostPoll rest s = .next t) := by
  unfold hostTurn at h
  split at h
  · rename_i hp; left; simp_all
  · rename_i a rest hp; exact .inr (.inl ⟨a, rest, hp, h⟩)
  · rename_i rest hp; exact .inr (.inr ⟨rest, hp, h⟩)

/-- Everything an admitted host access can do: record a value, write a register, or write a DMEM byte
outside the active ranges. -/
theorem hostAccess_cases {a : HostAccess} (h : hostAccess a s = .next t) :
    (∃ n v, t = s.record n v) ∨ (∃ n, t = s.recordFreeWord n) ∨ (∃ n, t = s.recordFreeByte n)
    ∨ (∃ r v, t = writeReg r v s)
    ∨ (∃ x v, x < s.dmemSize ∧ s.inActiveRange x = false
      ∧ t = { s with dmem := Memory.write s.dmem x v }) := by
  cases a with
  | regRead width off n =>
    simp only [hostAccess, hostRegRead] at h
    split at h
    · split at h
      · cases h; exact .inr (.inl ⟨n, rfl⟩)
      · cases h; exact .inl ⟨n, _, rfl⟩
    · cases h
  | regWrite width off v =>
    simp only [hostAccess, hostRegWrite] at h
    split at h
    · cases h; exact .inr (.inr (.inr (.inl ⟨_, v, rfl⟩)))
    · cases h
  | memRead x n =>
    simp only [hostAccess, hostMemRead] at h
    split at h
    · split at h
      · cases h; exact .inr (.inr (.inl ⟨n, rfl⟩))
      · cases h; exact .inl ⟨n, _, rfl⟩
    · cases h
  | memWrite x v =>
    simp only [hostAccess, hostMemWrite] at h
    split at h
    · split at h
      · cases h
      · rename_i hx ha
        cases h
        exact .inr (.inr (.inr (.inr ⟨x, v, hx, by simpa using ha, rfl⟩)))
    · cases h

/-- A host register write never touches the tree, the outputs, DMEM, its size, or the HOST. -/
theorem writeReg_frame (r : RegName) (v : Word) (s : State) :
    (writeReg r v s).arena = s.arena ∧ (writeReg r v s).root = s.root
    ∧ (writeReg r v s).nodeCount = s.nodeCount ∧ (writeReg r v s).treeValid = s.treeValid
    ∧ (writeReg r v s).outLen = s.outLen ∧ (writeReg r v s).pad = s.pad
    ∧ (writeReg r v s).dmem = s.dmem ∧ (writeReg r v s).dmemSize = s.dmemSize
    ∧ (writeReg r v s).hostProg = s.hostProg ∧ (writeReg r v s).hostLog = s.hostLog
    ∧ (writeReg r v s).sched = s.sched ∧ (writeReg r v s).draws = s.draws := by
  unfold writeReg
  split
  · simp
  · cases r <;> simp [storeReg]
    split <;> simp

/-- The BUSY bit of the STATUS word (R27). -/
theorem statusWord_bit0 (s : State) : s.statusWord.getLsbD 0 = s.busy := by
  unfold State.statusWord bit
  rw [BitVec.getLsbD_append]
  cases s.busy <;> rfl

@[simp] theorem nextTurn_of_sched {u : Turn} {us : List Turn} (h : s.sched = u :: us) :
    s.nextTurn = u := by simp [State.nextTurn, h]

/-- A placed command is run by the ENGINE in the next step. -/
theorem nextTurn_placeCommand (s : State) (w : Word) : (s.placeCommand w).nextTurn = .engine := rfl

theorem dropTurn_placeCommand (s : State) (w : Word) :
    (s.placeCommand w).dropTurn = { s with pending := some w } := rfl

/-! ### The HOST's accesses as steps -/

/-- An access at a register's own offset is admitted and reaches that register. -/
theorem regAccess_offset (r : RegName) :
    regAccessWf 32 r.offset = true ∧ RegName.ofOffset r.offset = r := by
  cases r <;> first | decide | (rename_i k; revert k; decide)

theorem step_access {a : HostAccess} {rest : List HostOp} (h : s.hostDoes (.access a) rest) :
    step s = hostAccess a (s.afterHost rest) := by
  have hp : (s.dropTurn).hostProg = .access a :: rest := h.2
  rw [step_host h.1, hostTurn, hp]
  rfl

/-- A host write of a register is that register's own rule (R56, R121, R122). -/
theorem step_regWrite {r : RegName} {v : Word} {rest : List HostOp}
    (h : s.hostDoes (.access (.regWrite 32 r.offset v)) rest) :
    step s = .next (writeReg r v (s.afterHost rest)) := by
  rw [step_access h, hostAccess, hostRegWrite, (regAccess_offset r).1, (regAccess_offset r).2, if_pos rfl]

/-- A host read of a register gives its value, or a free draw while BUSY = 1 (R57). -/
theorem step_regRead {r : RegName} {n : Nat} {rest : List HostOp}
    (h : s.hostDoes (.access (.regRead 32 r.offset n)) rest) :
    step s = if s.busy && freeWhileBusy r then .next ((s.afterHost rest).recordFreeWord n)
      else .next ((s.afterHost rest).record n (readReg r s)) := by
  have hr : readReg r (s.afterHost rest) = readReg r s := by cases r <;> rfl
  rw [step_access h, hostAccess, hostRegRead, (regAccess_offset r).1, (regAccess_offset r).2, if_pos rfl]
  simp only [hr]
  rfl

end Sys2Proof.Machine
end

