-- ==== Sys2Proof/Laws/Run.lean ====
section
/-! SUPPORT. Laws of a run: when it has ended, what its final state holds, and the registers of the register file. -/

namespace Sys2Proof.Machine

variable (s : State)

theorem runEnded_iff : s.runEnded = true ↔ s.hostProg = [] ∧ s.busy = false := by
  simp [State.runEnded, List.isEmpty_iff]

@[simp] theorem finalState_freq (fs : List Fault) : (s.finalState fs).freq = s.freq := rfl
@[simp] theorem finalState_codes (fs : List Fault) : (s.finalState fs).codes = s.codes := rfl
@[simp] theorem finalState_dmem (fs : List Fault) : (s.finalState fs).dmem = s.dmem := rfl
@[simp] theorem finalState_faults (fs : List Fault) : (s.finalState fs).faults = fs := rfl

/-- The register file is every register below offset 0x80 (R23). -/
theorem mem_registerFile (r : RegName) : r ∈ registerFile ↔ r.offset.toNat < 0x80 := by
  cases r <;> first | decide | (rename_i k; revert k; decide)

/-- An idle turn uses up the schedule and nothing else. -/
theorem step_of_runEnded {s t : State} (hp : s.hostProg = []) (hb : s.busy = false)
    (hn : s.nextTurn ≠ .reset) (h : step s = .next t) : t = s.dropTurn := by
  have hpend : (s.dropTurn).pending = none := by
    simpa [State.busy] using hb
  cases ht : s.nextTurn with
  | reset => exact absurd ht hn
  | host =>
    rw [step_host ht, hostTurn, show (s.dropTurn).hostProg = [] from hp] at h
    cases h
    rfl
  | engine =>
    rw [step_engine ht, engineTurn, hpend] at h
    cases h
    rfl

end Sys2Proof.Machine
end

