-- ==== Sys2Proof/Tests/Slice0.lean ====
section
/-! SUPPORT. The model's own tests: well-formedness refuses what is ill formed, words written out from the spec decode to their commands, small steps give what the spec's vectors (95_test_vectors) give, and every statement with hypotheses has a witness that meets them. -/

namespace Sys2Proof.Tests

open Sys2Proof Sys2Proof.Machine

set_option Elab.async false

/-! ### Helpers -/

/-- `p` holds of the next state, and there is one. -/
def nextHas (r : Result) (p : State → Bool) : Bool :=
  match r with
  | .next t => p t
  | .fault _ => false
  | .refused _ => false

theorem next_of_nextHas {r : Result} {p : State → Bool} (h : nextHas r p = true) :
    ∃ t, r = .next t ∧ p t = true := by
  cases r with
  | next t => exact ⟨t, rfl, h⟩
  | fault _ => cases h
  | refused _ => cases h

/-- The bytes at `a` on. -/
def bytesAt (s : State) (a n : Nat) : List Byte := Memory.readRange s.dmem a n

/-- The reset machine with "ab" at 0 as its source and 8 destination bytes at 0x10. -/
def abSource : State :=
  { State.launch 4096 [(0, 0x61), (1, 0x62)] with srcLen := 2, dstAddr := 0x10, dstCap := 8 }

/-- The code table 'a' = "0". -/
def aCodes : CodeTable := assign emptyCodes 0x61 { len := 1, bits := 0 }

/-- The reset machine with "aa" at 0 as its source and the codes 'a' = "0". -/
def aaSource : State :=
  { State.launch 4096 [(0, 0x61), (1, 0x61)] with
    srcLen := 2, dstAddr := 0x10, dstCap := 8, codes := aCodes }

/-- The codes of "abracadabra" (R175). -/
def abraCodes : CodeTable :=
  let c := assign emptyCodes 0x61 { len := 1, bits := 0 }
  let c := assign c 0x62 (CodeEntry.ofBits [true, true, false])
  let c := assign c 0x63 (CodeEntry.ofBits [true, false, false])
  let c := assign c 0x64 (CodeEntry.ofBits [true, false, true])
  assign c 0x72 (CodeEntry.ofBits [true, true, true])

/-- The packed form of "abracadabra" (R184) at 0 as the source of an UNPACK. -/
def abraPacked : State :=
  { State.launch 4096 [(0, 0x01), (1, 0x6E), (2, 0x8A), (3, 0xDC)] with
    srcLen := 4, dstAddr := 0x200, dstCap := 100, codes := abraCodes }

/-- FREQ of "hello" (R156). -/
def helloFreq : FreqTable :=
  assign (assign (assign (assign zeroFreq 0x65 1) 0x68 1) 0x6C 2) 0x6F 1

/-- The tree of "ab" (R210): leaves 'a' and 'b', and their parent. -/
def abNode (i : Nat) : Node :=
  if i = 0 then { kind := .leaf, sym := 0x61, weight := 1, left := 0, right := 0 }
  else if i = 1 then { kind := .leaf, sym := 0x62, weight := 1, left := 0, right := 0 }
  else { kind := .internal, sym := 0, weight := 2, left := 0, right := 1 }

/-- The reset machine holding the tree of "ab". -/
def abTree : State :=
  { State.reset with arena := tabulate 511 abNode, nodeCount := 3, root := 2, treeValid := true }

/-- The reset machine whose HOST does `op` next. -/
def hostNext (op : HostOp) : State := { State.reset with hostProg := [op], sched := [.host] }

/-- The same with the command word `w` accepted and not yet run. -/
def hostNextBusy (w : Word) (op : HostOp) : State := { hostNext op with pending := some w }

/-- The same with a source of 11 bytes at 0 and 4 destination bytes at 0x100. -/
def busyBuffers (w : Word) (op : HostOp) : State :=
  { hostNextBusy w op with srcLen := 11, dstAddr := 0x100, dstCap := 4 }

/-- The reset machine whose next turn is `u`, with `p` in PENDING. -/
def turnNext (u : Turn) (p : Option Word) : State := { State.reset with sched := [u], pending := p }

/-! ### Well-formedness: an ill-formed term for each check -/

theorem test_wf_narrow_register_access : (HostAccess.regRead 16 0x0C 1).wf = false := by decide
theorem test_wf_misaligned_register_access : (HostAccess.regWrite 32 0x0E 1).wf = false := by decide
theorem test_wf_dmem_read_address : (HostAccess.memRead (2 ^ 32) 1).wf = false := by decide
theorem test_wf_dmem_write_address : (HostAccess.memWrite (2 ^ 32) 1).wf = false := by decide
theorem test_wf_memw_past_the_end : (Stmt.memw (2 ^ 32 - 1) [1, 2]).wf = false := by decide
theorem test_wf_memr_past_the_end : (Stmt.memr (2 ^ 32 - 1) 2 1).wf = false := by decide
theorem test_wf_setcode_nine_words :
    (Stmt.setcode 0x61 1 0 [0, 0, 0, 0, 0, 0, 0, 0]).wf = false := by decide
theorem test_wf_word_reserved_bits : wordLegal 0x00000105 = false := by decide
theorem test_wf_word_reserved_op : wordLegal 0x00000008 = false := by decide
theorem test_wf_memory_order : Memory.wf [(2, 1), (1, 1)] = false := by decide
theorem test_wf_memory_unlisted_value : Memory.wf [(1, 0)] = false := by decide

/-! ### Decoding: the words of R103, written out as R100 lays them out (RSV, then OP) -/

theorem test_decode_nop : decode 0b00000000000000000000000000000000 = .command .nop := by decide
theorem test_decode_clear : decode 0b00000000000000000000000000000001 = .command .clear := by decide
theorem test_decode_analyze : decode 0b00000000000000000000000000000010 = .command .analyze := by decide
theorem test_decode_build_tree : decode 0b00000000000000000000000000000011 = .command .buildTree := by decide
theorem test_decode_gen_codes : decode 0b00000000000000000000000000000100 = .command .genCodes := by decide
theorem test_decode_pack : decode 0b00000000000000000000000000000101 = .command .pack := by decide
theorem test_decode_unpack : decode 0b00000000000000000000000000000110 = .command .unpack := by decide
theorem test_decode_compress : decode 0b00000000000000000000000000000111 = .command .compress := by decide
/-- T8.1. -/
theorem test_decode_reserved_op : decode 0x00000008 = .illegal 0x00000008 := by decide
/-- T8.2. -/
theorem test_decode_reserved_bits : decode 0x00000105 = .illegal 0x00000105 := by decide
/-- T8.3. -/
theorem test_decode_all_ones : decode 0xFFFFFFFF = .illegal 0xFFFFFFFF := by decide
/-- Every constructor's word is legal (the per-command laws together). -/
theorem test_every_word_legal : ∀ i : Instr, wordLegal (encode i) = true := by
  intro i; cases i
  exacts [Laws.Encoding.nop.2.1, Laws.Encoding.clear.2.1, Laws.Encoding.analyze.2.1,
    Laws.Encoding.buildTree.2.1, Laws.Encoding.genCodes.2.1, Laws.Encoding.pack.2.1,
    Laws.Encoding.unpack.2.1, Laws.Encoding.compress.2.1]

/-! ### Small steps, their results from 95_test_vectors -/

/-- T1.1: NOP with IRQ_EN = 1 ends with STATUS = 2 and IRQ = 1. -/
theorem test_nop : nextHas (step ({ State.reset with irqEn := true }.withFetchWord 32 0))
    (fun t => t.statusWord == 0x00000002 && t.irq) = true := by decide +kernel

/-- T1.4: CLEAR keeps WR_IGN and CMD_OVR. -/
theorem test_clear : nextHas (execClear { abTree with wrIgn := true, cmdOvr := true })
    (fun t => t.statusWord == 0x0000001A && readReg .nodeCount t == 0) = true := by decide +kernel

/-- T2.6: the counts are rebuilt, not accumulated. -/
theorem test_analyze : nextHas
    (execAnalyze { State.launch 4096 [(0, 0x42)] with srcLen := 1, freq := assign zeroFreq 0x41 9 })
    (fun t => lookup t.freq 0x41 == 0 && lookup t.freq 0x42 == 1) = true := by decide +kernel

/-- T2.3: ADDR_RANGE(0) for a source that ends past DMEM. -/
theorem test_analyze_range : nextHas
    (execAnalyze { State.reset with srcAddr := 4090, srcLen := 7 })
    (fun t => t.err == .addrRange && t.errInfo == 0) = true := by decide +kernel

/-- T3.2: the tie of weight 2 goes to the leaf 'l'. -/
theorem test_build_tree : nextHas (execBuildTree { State.reset with freq := helloFreq })
    (fun t => nodeAt t.arena 5
        == { kind := .internal, sym := 0, weight := 3, left := 3, right := 2 }
      && t.root == 6 && t.nodeCount == 7) = true := by decide +kernel

/-- T3.6: the weights do not fit. -/
theorem test_build_tree_overflow : nextHas
    (execBuildTree { State.reset with freq := assign (assign zeroFreq 0 0xFFFFFFFF) 1 1 })
    (fun t => t.statusWord == 0x00000506) = true := by decide +kernel

/-- R210 example: over the tree of "ab", 'a' = "0" and 'b' = "1". -/
theorem test_gen_codes : nextHas (execGenCodes abTree)
    (fun t => codeOf t.codes 0x61 == [false] && codeOf t.codes 0x62 == [true]
      && (lookup t.codes 0x62).word 0 == 0x80000000) = true := by decide +kernel

/-- T4.5: no tree. -/
theorem test_gen_codes_no_tree : nextHas (execGenCodes State.reset)
    (fun t => t.statusWord == 0x00000606) = true := by decide +kernel

/-- T5.14: codes of 33 and 2 bits across byte boundaries. -/
theorem test_pack : nextHas
    (execPack { State.launch 4096 [(0, 0x78), (1, 0x79)] with
      srcLen := 2, dstAddr := 0x100, dstCap := 64
      codes := assign (assign emptyCodes 0x78
        (({ len := 33, bits := 0 : CodeEntry }.setWord 0 0x80000000).setWord 1 0x80000000))
        0x79 ({ len := 2, bits := 0 : CodeEntry }.setWord 0 0x40000000) })
    (fun t => bytesAt t 0x100 6 == [0x05, 0x80, 0x00, 0x00, 0x00, 0xA0] && t.outLen == 6) = true := by
  decide +kernel

/-- T5.8: the offset of the first byte with no code. -/
theorem test_pack_missing_code : nextHas (execPack { abSource with codes := aCodes })
    (fun t => t.err == .missingCode && t.errInfo == 1) = true := by decide +kernel

/-- T6.2: "abracadabra", the padding bit not checked. -/
theorem test_unpack : nextHas (execUnpack { abraPacked with dmem := [(0, 0x01), (1, 0x6E), (2, 0x8A), (3, 0xDD)] })
    (fun t => bytesAt t 0x200 11
        == [0x61, 0x62, 0x72, 0x61, 0x63, 0x61, 0x64, 0x61, 0x62, 0x72, 0x61]
      && t.outLen == 11 && t.pad == 1) = true := by decide +kernel

/-- T6.13: the least pair that shares a code. -/
theorem test_unpack_conflict : nextHas
    (execUnpack { State.launch 4096 [] with
      srcLen := 2, dstAddr := 0x200, dstCap := 100
      codes := assign (assign (assign emptyCodes 0x03 (CodeEntry.ofBits [true, true]))
        0x05 (CodeEntry.ofBits [true, true])) 0x10 (CodeEntry.ofBits [true, true]) })
    (fun t => t.err == .tableConflict && t.errInfo == 0x0503) = true := by decide +kernel

/-- T7.6: "aab"; the lighter 'b' is extracted first. -/
theorem test_compress : nextHas
    (execCompress { State.launch 4096 [(0, 0x61), (1, 0x61), (2, 0x62)] with
      srcLen := 3, dstAddr := 0x800, dstCap := 2048 })
    (fun t => bytesAt t 0x800 2 == [0x05, 0xC0] && codeOf t.codes 0x61 == [true]
      && t.pad == 5) = true := by decide +kernel

/-- T7.14: source and destination overlap. -/
theorem test_compress_overlap : nextHas
    (execCompress { State.reset with srcLen := 11, dstAddr := 5, dstCap := 4 })
    (fun t => t.err == .overlap && t.errInfo == 0) = true := by decide +kernel

/-- T8.4: a CMD write while busy is dropped. -/
theorem test_cmd_overrun : nextHas (step (hostNextBusy 5 (cmdOp .nop)))
    (fun t => t.cmdOvr && t.pending == some 5) = true := by decide +kernel

/-- T8.5: a busy-locked write is ignored. -/
theorem test_write_ignored : nextHas (step (hostNextBusy 5 (wrOp .srcLen 1)))
    (fun t => t.wrIgn && t.srcLen == 0) = true := by decide +kernel

/-- The final state of a run has the faults `fs`. -/
def endsWithFaults (e : RunEnd) (fs : List Fault) : Bool :=
  match e with
  | .ended f => f.faults == fs
  | .running _ => false
  | .refused _ => false

/-- R128: CMD NOP; WAIT is three steps (the write, the ENGINE's step, one poll), and ends the run. -/
theorem test_run_ends : endsWithFaults
    (runProgram 3 { State.reset with hostProg := programOps [.run .nop] }) [] = true := by decide +kernel

/-- R85, R128: the run of a misaligned register access is faulted, the fault recorded. -/
theorem test_run_faulted : endsWithFaults
    (runProgram 1 (hostNext (.access (.regRead 32 0x0E 1)))) [.badRegAccess] = true := by decide +kernel

/-- T8.11: DONE cleared, ERR and ERRF kept. -/
theorem test_done_cleared : (writeReg .status 2
    { State.reset with done := true, err := .emptyTable }).statusWord = 0x00000404 := by decide +kernel

/-- T3.2's window reads at NODE_SEL = 5 and 2, on its records. -/
theorem test_node_windows :
    nodeChildWord { kind := .internal, sym := 0, weight := 3, left := 3, right := 2 } = 0x00020003
    ∧ nodeInfoWord { kind := .leaf, sym := 0x6C, weight := 2, left := 0, right := 0 } = 0x00006C01 := by
  decide

/-! ### Witnesses: for every statement with hypotheses, a state and operands that meet them -/

theorem ranges_apart {a n b m : Word} (h : a.toNat + n.toNat ≤ b.toNat ∨ b.toNat + m.toNat ≤ a.toNat) :
    ¬ RangesMeet a n b m := by
  rintro ⟨x, h₁, h₂⟩; omega

theorem buffersOk_of {s : State} (h₁ : s.srcAddr.toNat + s.srcLen.toNat ≤ s.dmemSize)
    (h₂ : s.dstAddr.toNat + s.dstCap.toNat ≤ s.dmemSize)
    (h₃ : s.srcAddr.toNat + s.srcLen.toNat ≤ s.dstAddr.toNat
      ∨ s.dstAddr.toNat + s.dstCap.toNat ≤ s.srcAddr.toNat) : s.BuffersOk :=
  ⟨.inr h₁, .inr h₂, ranges_apart h₃⟩

theorem hasCode_aCodes (x : Symbol) : HasCode aCodes x ↔ x = 0x61 := by
  unfold HasCode aCodes
  rw [lookup_assign]
  split
  · rename_i h; simp [h]
  · rename_i h
    rw [lookup_emptyCodes]
    exact ⟨fun hn => absurd rfl hn, fun hx => absurd hx h⟩

theorem aCodes_prefixFree : PrefixFree aCodes := by
  intro x y hx hy hne
  rw [hasCode_aCodes] at hx hy
  exact absurd (hx.trans hy.symm) hne

theorem aCodes_conflictFree : ConflictFree aCodes := by
  intro x y hx hy _
  rw [hasCode_aCodes] at hx hy
  exact hx.trans hy.symm

theorem abSource_buffersOk : abSource.BuffersOk :=
  buffersOk_of (by decide) (by decide) (by decide)

theorem aaSource_buffersOk : aaSource.BuffersOk :=
  buffersOk_of (by decide) (by decide) (by decide)

theorem nodeAt_abTree (i : Nat) (h : i < 511) : nodeAt abTree.arena i = abNode i :=
  nodeAt_tabulate abNode i h

theorem abTree_shape : TreeShape (nodeAt abTree.arena) 2 2 where
  leaves_pos := by decide
  leaves_le := by decide
  root_eq := by decide
  leaf := by
    intro i hi
    rw [LeafOk, nodeAt_abTree i (by omega)]
    interval_cases i <;> decide
  ascending := by
    intro i j hij hj
    rw [nodeAt_abTree i (by omega), nodeAt_abTree j (by omega)]
    interval_cases j <;> interval_cases i; decide
  internal := by
    intro i h₁ h₂
    have : i = 2 := by omega
    subst this
    rw [InternalOk, nodeAt_abTree 2 (by omega)]
    refine ⟨rfl, rfl, by decide, by decide, by decide, ?_⟩
    rw [nodeAt_abTree _ (by decide), nodeAt_abTree _ (by decide)]
    decide
  one_parent := by
    intro j hj
    have h2 : ∀ i, i < 3 → ChildOf (nodeAt abTree.arena) j i → i = 2 := by
      intro i hi hc
      rw [ChildOf, nodeAt_abTree i (by omega)] at hc
      interval_cases i
      · exact absurd hc.1 (by decide)
      · exact absurd hc.1 (by decide)
      · rfl
    refine ⟨2, ⟨by decide, ?_⟩, fun i' hi' hc => h2 i' hi' hc⟩
    rw [ChildOf, nodeAt_abTree 2 (by omega)]
    interval_cases j
    · exact ⟨rfl, .inl (by decide)⟩
    · exact ⟨rfl, .inr (by decide)⟩

theorem abTree_holdsTree : abTree.HoldsTree 2 := ⟨by decide, abTree_shape⟩

theorem abTree_treeOk : abTree.TreeOk := ⟨fun _ => ⟨2, abTree_holdsTree⟩, fun h => by cases h⟩

theorem witness_DecodeInvertsEncode :
    decode 0x00000007 = .command .compress ∧ decode 0x00000008 = .illegal 0x00000008 := by decide

theorem witness_IllegalWordIsAcceptedAndReported :
    ((0x00000008 : Word).extractLsb' 8 24 ≠ 0 ∨ 0x08 ≤ ((0x00000008 : Word).extractLsb' 0 8).toNat)
    ∧ (hostNext (wrOp .cmd 8)).hostDoes (.access (.regWrite 32 0x10 8)) []
    ∧ (hostNext (wrOp .cmd 8)).pending = none
    ∧ (hostNextBusy 5 (wrOp .cmd 8)).hostDoes (.access (.regWrite 32 0x10 8)) []
    ∧ (hostNextBusy 5 (wrOp .cmd 8)).pending ≠ none
    ∧ (turnNext .engine (some 8)).nextTurn = .engine ∧ (turnNext .engine (some 8)).pending = some 8 :=
  ⟨by decide, ⟨rfl, rfl⟩, rfl, ⟨rfl, rfl⟩, by decide, rfl, rfl⟩

theorem witness_RegisterMapIsOneToOne : (0xFC : BitVec 8).toNat % 4 = 0 := by decide

theorem witness_ResetSetsEveryRegister :
    (turnNext .reset none).nextTurn = .reset ∧ (turnNext .reset none).pending = none
    ∧ { busyBuffers 5 .wait with sched := [.reset] }.nextTurn = .reset
    ∧ { busyBuffers 5 .wait with sched := [.reset] }.inActiveDestination 0x104 = false
    ∧ { busyBuffers 5 .wait with sched := [.reset] }.inActiveDestination 0x103 = true := by
  refine ⟨rfl, rfl, rfl, by decide, by decide⟩

theorem witness_LaunchMeetsTheInvariant :
    1 ≤ 16 ∧ 16 ≤ 2 ^ 32 ∧ Memory.wf [(15, 1)] = true
    ∧ ∀ c ∈ ([(15, 1)] : Memory), c.1 < 16 := by decide

theorem witness_CmdWriteIsAcceptedOrDropped :
    (hostNext (cmdOp .pack)).hostDoes (.access (.regWrite 32 0x10 5)) []
    ∧ (hostNext (cmdOp .pack)).busy = false
    ∧ (hostNextBusy 5 (cmdOp .pack)).hostDoes (.access (.regWrite 32 0x10 5)) []
    ∧ (hostNextBusy 5 (cmdOp .pack)).busy = true :=
  ⟨⟨rfl, rfl⟩, rfl, ⟨rfl, rfl⟩, rfl⟩

theorem witness_EngineStepRunsTheDecodedCommand :
    (turnNext .engine (some 7)).nextTurn = .engine ∧ (turnNext .engine (some 7)).pending = some 7
    ∧ decode 7 = .command .compress := ⟨rfl, rfl, by decide⟩

theorem witness_AcceptedCommandsAlwaysComplete :
    (turnNext .engine (some 7)).nextTurn = .engine ∧ (turnNext .engine (some 7)).busy = true
    ∧ (hostNextBusy 7 .wait).nextTurn = .host ∧ (hostNextBusy 7 .wait).busy = true
    ∧ (∃ t, step (hostNextBusy 7 .wait) = .next t ∧ true = true) :=
  ⟨rfl, rfl, rfl, rfl, next_of_nextHas (p := fun _ => true) (by decide +kernel)⟩

theorem witness_ErrorChangesOnlyTheStatus :
    (∃ t, exec .buildTree State.reset = .next t ∧ (t.err != .noError) = true)
    ∧ (turnNext .engine (some 8)).nextTurn = .engine ∧ (turnNext .engine (some 8)).busy = true
    ∧ (∃ t, step (turnNext .engine (some 8)) = .next t ∧ (t.err != .noError) = true) :=
  ⟨next_of_nextHas (p := fun t => t.err != .noError) (by decide +kernel), rfl, rfl,
    next_of_nextHas (p := fun t => t.err != .noError) (by decide +kernel)⟩

theorem witness_CommandsRaiseOnlyTheirErrors :
    ∀ i ∈ [Instr.nop, .clear, .analyze, .buildTree, .genCodes, .pack, .unpack, .compress],
      ∃ t, exec i State.reset = .next t ∧ true = true := by
  intro i hi
  fin_cases hi <;> exact next_of_nextHas (p := fun _ => true) (by decide +kernel)

theorem witness_CompressNeverMissesATableOrCode :
    ∃ t, exec .compress abSource = .next t ∧ (t.err == .noError) = true :=
  next_of_nextHas (p := fun t => t.err == .noError) (by decide +kernel)

theorem witness_RangeChecksComeFirst :
    (¬ RangeOk 4096 4090 7) ∧ RangeOk 4096 0 11 ∧ RangeOk 4096 10 4 ∧ RangesMeet 0 11 10 4 :=
  ⟨by unfold RangeOk; decide, by unfold RangeOk; decide, by unfold RangeOk; decide,
    10, by decide, by decide⟩

theorem witness_IdentityRegistersReadTheirConstants :
    (hostNext (rdOp .id 1)).hostDoes (.access (.regRead 32 0x00 1)) []
    ∧ (hostNext (rdOp .version 1)).hostDoes (.access (.regRead 32 0x04 1)) []
    ∧ (hostNext (wrOp .id 1)).hostDoes (.access (.regWrite 32 0x00 1)) []
    ∧ (hostNext (wrOp .version 1)).hostDoes (.access (.regWrite 32 0x04 1)) [] :=
  ⟨⟨rfl, rfl⟩, ⟨rfl, rfl⟩, ⟨rfl, rfl⟩, ⟨rfl, rfl⟩⟩

theorem witness_StatusReadsAndClears :
    (hostNext (rdOp .status 1)).hostDoes (.access (.regRead 32 0x0C 1)) []
    ∧ (hostNext (wrOp .status 2)).hostDoes (.access (.regWrite 32 0x0C 2)) [] :=
  ⟨⟨rfl, rfl⟩, ⟨rfl, rfl⟩⟩

theorem witness_BusyLockStopsOperandWrites (r : RegName) :
    (hostNextBusy 5 (wrOp r 1)).busy = true
    ∧ (hostNextBusy 5 (wrOp r 1)).hostDoes (.access (.regWrite 32 r.offset 1)) [] :=
  ⟨rfl, ⟨rfl, rfl⟩⟩

theorem witness_IdleWritesReachTheirRegister (r : RegName) :
    State.reset.busy = false ∧ (hostNext (wrOp r 1)).busy = false
    ∧ (hostNext (wrOp r 1)).hostDoes (.access (.regWrite 32 r.offset 1)) [] :=
  ⟨rfl, rfl, ⟨rfl, rfl⟩⟩

theorem witness_CodeBitsLieInTheirWords : 0 < (lookup aCodes 0x61).len.toNat := by decide +kernel

theorem witness_TableWindowsReachTheSelectedEntry (r : RegName) :
    State.reset.busy = false ∧ (hostNext (rdOp r 1)).busy = false
    ∧ (hostNext (rdOp r 1)).hostDoes (.access (.regRead 32 r.offset 1)) []
    ∧ (hostNext (wrOp r 1)).busy = false
    ∧ (hostNext (wrOp r 1)).hostDoes (.access (.regWrite 32 r.offset 1)) [] :=
  ⟨rfl, rfl, ⟨rfl, rfl⟩, rfl, ⟨rfl, rfl⟩⟩

theorem witness_NodeWindowsShowTheArena :
    ({ abTree with nodeSel := 2 }).nodeSel.toNat < (readReg .nodeCount abTree).toNat
    ∧ (readReg .nodeCount abTree).toNat ≤ ({ abTree with nodeSel := 3 }).nodeSel.toNat := by decide

theorem witness_ReadsAreDefinedUnlessBusy (r : RegName) :
    (hostNext (rdOp r 1)).busy = false
    ∧ (hostNext (rdOp r 1)).hostDoes (.access (.regRead 32 r.offset 1)) []
    ∧ (hostNextBusy 5 (rdOp r 1)).busy = true
    ∧ (hostNextBusy 5 (rdOp r 1)).hostDoes (.access (.regRead 32 r.offset 1)) [] :=
  ⟨rfl, ⟨rfl, rfl⟩, rfl, ⟨rfl, rfl⟩⟩

theorem witness_IrqFollowsCompletion :
    (∃ t, exec .nop State.reset = .next t ∧ true = true) ∧ (2 : Word).getLsbD 1 = true
    ∧ State.reset.busy = false ∧ State.reset.irqEn = false
    ∧ (turnNext .engine (some 8)).nextTurn = .engine ∧ (turnNext .engine (some 8)).busy = true
    ∧ (∃ t, step (turnNext .engine (some 8)) = .next t ∧ true = true) :=
  ⟨next_of_nextHas (p := fun _ => true) (by decide +kernel), by decide, rfl, rfl, rfl, rfl,
    next_of_nextHas (p := fun _ => true) (by decide +kernel)⟩

theorem witness_BadRegisterAccessFaults :
    (hostNext (.access (.regRead 16 0x0C 1))).hostDoes (.access (.regRead 16 0x0C 1)) []
    ∧ (hostNext (.access (.regWrite 32 0x0E 1))).hostDoes (.access (.regWrite 32 0x0E 1)) []
    ∧ (16 ≠ 32 ∨ (0x0C : BitVec 8).toNat % 4 ≠ 0) ∧ (32 ≠ 32 ∨ (0x0E : BitVec 8).toNat % 4 ≠ 0)
    ∧ (hostNext (rdOp .status 1)).hostDoes (.access (.regRead 32 0x0C 1)) []
    ∧ (0x0C : BitVec 8).toNat % 4 = 0 :=
  ⟨⟨rfl, rfl⟩, ⟨rfl, rfl⟩, by decide, by decide, ⟨rfl, rfl⟩, by decide⟩

theorem witness_StepFaultsExactlyOnUnsafeAccess :
    (busyBuffers 5 (.access (.memWrite 5 1))).stepSafe = false
    ∧ (busyBuffers 5 (.access (.memWrite 11 1))).stepSafe = true := by decide

theorem witness_HostDmemAccessesRespectActiveRanges :
    (busyBuffers 5 (.access (.memWrite 0x103 1))).hostDoes (.access (.memWrite 0x103 1)) []
    ∧ (busyBuffers 5 (.access (.memWrite 0x103 1))).inActiveDestination 0x103 = true
    ∧ (busyBuffers 5 (.access (.memWrite 10 1))).inActiveSource 10 = true
    ∧ (busyBuffers 5 (.access (.memWrite 0x104 1))).inActiveSource 0x104 = false
    ∧ (busyBuffers 5 (.access (.memWrite 0x104 1))).inActiveDestination 0x104 = false
    ∧ (busyBuffers 5 (.access (.memRead 0x103 1))).hostDoes (.access (.memRead 0x103 1)) []
    ∧ (busyBuffers 5 (.access (.memRead 0x103 1))).inActiveDestination 0x103 = true
    ∧ (busyBuffers 5 (.access (.memRead 10 1))).inActiveDestination 10 = false
    ∧ 0x104 < (busyBuffers 5 (.access (.memRead 10 1))).dmemSize :=
  ⟨⟨rfl, rfl⟩, by decide, by decide, by decide, by decide, ⟨rfl, rfl⟩, by decide, by decide, by decide⟩

theorem witness_OperandsHoldWhileBusy :
    (busyBuffers 5 (.access (.memWrite 11 1))).nextTurn = .host
    ∧ (busyBuffers 5 (.access (.memWrite 11 1))).busy = true
    ∧ (∃ t, step (busyBuffers 5 (.access (.memWrite 11 1))) = .next t ∧ true = true)
    ∧ (busyBuffers 5 (.access (.memWrite 11 1))).inActiveRange 10 = true :=
  ⟨rfl, rfl, next_of_nextHas (p := fun _ => true) (by decide +kernel), by decide⟩

theorem witness_WriteFootprintIsTheOutput :
    (∃ t, exec .pack aaSource = .next t ∧ (t.err == .noError && t.outLen == 2) = true)
    ∧ (∃ t, exec .pack { abSource with codes := aCodes } = .next t ∧ (t.err != .noError) = true) :=
  ⟨next_of_nextHas (p := fun t => t.err == .noError && t.outLen == 2) (by decide +kernel),
    next_of_nextHas (p := fun t => t.err != .noError) (by decide +kernel)⟩

theorem witness_CommandsWriteOnlyTheirResults :
    ∀ i : Instr, ∃ t, exec i abSource = .next t ∧ true = true := by
  intro i
  cases i <;> exact next_of_nextHas (p := fun _ => true) (by decide +kernel)

theorem witness_TreeValidChangesOnlyAsNamed :
    (∃ t, step (abSource.withFetchWord 32 7) = .next t ∧ (t.err == .noError) = true)
    ∧ (abSource.withFetchWord 32 7).running = some .compress
    ∧ (∃ t, step (State.reset.withFetchWord 32 3) = .next t ∧ (t.err == .emptyTable) = true)
    ∧ (State.reset.withFetchWord 32 3).running = some .buildTree :=
  ⟨next_of_nextHas (p := fun t => t.err == .noError) (by decide +kernel), by decide,
    next_of_nextHas (p := fun t => t.err == .emptyTable) (by decide +kernel), by decide⟩

theorem witness_AnalyzeCountsTheSource :
    RangeOk abSource.dmemSize abSource.srcAddr abSource.srcLen
    ∧ RangeOk State.reset.dmemSize 0xFFFFFFFF State.reset.srcLen
    ∧ ¬ RangeOk State.reset.dmemSize 4095 2 ∧ RangeOk State.reset.dmemSize 4095 1 :=
  ⟨.inr (by decide), .inl rfl, by unfold RangeOk; decide, .inr (by decide)⟩

theorem witness_CountsAreExactAndSumToTheLength :
    (∃ t, exec .analyze abSource = .next t ∧ (t.err == .noError) = true)
    ∧ (∃ t, exec .compress abSource = .next t ∧ (t.err == .noError) = true) :=
  ⟨next_of_nextHas (p := fun t => t.err == .noError) (by decide +kernel),
    next_of_nextHas (p := fun t => t.err == .noError) (by decide +kernel)⟩

theorem witness_AlphabetIsTheSourceBytes :
    ∃ t, exec .analyze abSource = .next t ∧ (t.err == .noError && t.nsym == 2) = true :=
  next_of_nextHas (p := fun t => t.err == .noError && t.nsym == 2) (by decide +kernel)

theorem sum_helloFreq : ∑ x : Symbol, (lookup helloFreq x).toNat = 5 := by
  have h : ∀ x : Symbol, (lookup helloFreq x).toNat =
      (if x = 0x65 then 1 else 0) + (if x = 0x68 then 1 else 0) + (if x = 0x6C then 2 else 0)
        + (if x = 0x6F then 1 else 0) := by
    intro x
    simp only [helloFreq, lookup_assign, lookup_zeroFreq]
    split
    · rename_i h; subst h; decide
    · split
      · rename_i h; subst h; decide
      · split
        · rename_i h; subst h; decide
        · split
          · rename_i h; subst h; decide
          · simp_all
  simp only [h, Finset.sum_add_distrib, Finset.sum_ite_eq', Finset.mem_univ, if_true]

theorem witness_BuildTreeBuildsATree :
    (∃ x, lookup helloFreq x ≠ 0) ∧ ∑ x : Symbol, (lookup helloFreq x).toNat ≤ 2 ^ 32 - 1 :=
  ⟨⟨0x6F, by decide +kernel⟩, by rw [sum_helloFreq]; decide⟩

theorem witness_TreeCommandsCheckTheirInput :
    (∀ x, lookup State.reset.freq x = 0)
    ∧ 2 ^ 32 - 1 < ∑ x : Symbol, (lookup (assign (assign zeroFreq 0 0xFFFFFFFF) 1 1) x).toNat
    ∧ State.reset.treeValid = false := by
  refine ⟨fun x => lookup_zeroFreq x, ?_, rfl⟩
  have h : ∀ x : Symbol, (lookup (assign (assign zeroFreq 0 0xFFFFFFFF) 1 1) x).toNat =
      (if x = 0 then 2 ^ 32 - 1 else 0) + (if x = 1 then 1 else 0) := by
    intro x
    simp only [lookup_assign, lookup_zeroFreq]
    split
    · rename_i h; subst h; decide
    · split
      · rename_i h; subst h; decide
      · simp
  simp only [h, Finset.sum_add_distrib, Finset.sum_ite_eq', Finset.mem_univ, if_true]
  decide

theorem witness_BuiltTreeReachesEveryNodeOnce :
    ∃ t, exec .buildTree { State.reset with freq := helloFreq } = .next t
      ∧ (t.err == .noError) = true :=
  next_of_nextHas (p := fun t => t.err == .noError) (by decide +kernel)

/-- With the merge of R156 at its boundary indices: 4 = NSYM and 6 = NODE_COUNT - 1. -/
theorem witness_MergesTakeTheTwoLeast :
    (∃ t, exec .buildTree { State.reset with freq := helloFreq } = .next t
      ∧ (t.err == .noError && t.nodeCount.toNat == 7) = true)
    ∧ ({ State.reset with freq := helloFreq } : State).nsym = 4
    ∧ ([(1, 3), (2, 2), (2, 4)] : List QEntry).Pairwise
      (fun a b => a.1 < b.1 ∨ (a.1 = b.1 ∧ a.2 ≤ b.2)) :=
  ⟨next_of_nextHas (p := fun t => t.err == .noError && t.nodeCount.toNat == 7) (by decide +kernel),
    by decide +kernel, by decide⟩

theorem witness_ResultsDependOnInputsAlone :
    (∃ t, exec .buildTree { State.reset with freq := helloFreq } = .next t
      ∧ (t.err == .noError) = true)
    ∧ (∃ t, exec .buildTree { abSource with freq := helloFreq } = .next t
      ∧ (t.err == .noError) = true)
    ∧ abTree.treeValid = true ∧ abTree.TreeOk
    ∧ (∃ t, exec .genCodes abTree = .next t ∧ true = true)
    ∧ (∃ t, exec .compress abSource = .next t ∧ (t.err == .noError) = true)
    ∧ (∃ t, exec .compress { abSource with dstAddr := 0x20, codes := aCodes } = .next t
      ∧ (t.err == .noError) = true)
    ∧ abSource.sourceBytes = ({ abSource with dstAddr := 0x20, codes := aCodes } : State).sourceBytes :=
  ⟨next_of_nextHas (p := fun t => t.err == .noError) (by decide +kernel),
    next_of_nextHas (p := fun t => t.err == .noError) (by decide +kernel), rfl, abTree_treeOk,
    next_of_nextHas (p := fun _ => true) (by decide +kernel),
    next_of_nextHas (p := fun t => t.err == .noError) (by decide +kernel),
    next_of_nextHas (p := fun t => t.err == .noError) (by decide +kernel), rfl⟩

/-- The reset machine holding the one-leaf tree of "a". -/
def aTree : State :=
  { State.reset with
    arena := tabulate 511 fun _ => { kind := .leaf, sym := 0x61, weight := 4, left := 0, right := 0 }
    nodeCount := 1, root := 0, treeValid := true }

theorem aTree_holdsTree : aTree.HoldsTree 1 := by
  have hn : ∀ i, i < 511 → nodeAt aTree.arena i
      = { kind := .leaf, sym := 0x61, weight := 4, left := 0, right := 0 } :=
    fun i hi => nodeAt_tabulate _ i hi
  refine ⟨by decide, by decide, by decide, by decide, ?_, ?_, ?_, ?_⟩
  · intro i hi; rw [LeafOk, hn i (by omega)]; decide
  · intro i j hij hj; omega
  · intro i h₁ h₂; omega
  · intro j hj; omega

theorem witness_GenCodesAssignsThePaths :
    (abTree.treeValid = true ∧ abTree.TreeOk ∧ abTree.nodeCount ≠ 1)
    ∧ (nextHas (exec .genCodes abTree)
        (fun t => (lookup t.codes 0x62).len.toNat == 1 && (lookup t.codes 0x63).len.toNat == 0) = true)
    ∧ (aTree.treeValid = true ∧ aTree.TreeOk ∧ aTree.nodeCount = 1) :=
  ⟨⟨rfl, abTree_treeOk, by decide⟩, by decide +kernel, rfl,
    ⟨fun _ => ⟨1, aTree_holdsTree⟩, fun h => by cases h⟩, rfl⟩

theorem witness_CodeLengthsAreLeafDepths :
    (∃ t, exec .genCodes abTree = .next t ∧ ((lookup t.codes 0x61).len != 0) = true)
    ∧ abTree.treeValid = true ∧ abTree.HoldsTree 2
    ∧ (∃ t, exec .genCodes aTree = .next t ∧ ((lookup t.codes 0x61).len != 0) = true)
    ∧ aTree.treeValid = true ∧ aTree.HoldsTree 1 :=
  ⟨next_of_nextHas (p := fun t => (lookup t.codes 0x61).len != 0) (by decide +kernel), rfl,
    abTree_holdsTree,
    next_of_nextHas (p := fun t => (lookup t.codes 0x61).len != 0) (by decide +kernel), rfl,
    aTree_holdsTree⟩

theorem witness_GeneratedCodesArePrefixFree :
    abTree.treeValid = true ∧ abTree.HoldsTree 2
    ∧ ∃ t, exec .genCodes abTree = .next t ∧ true = true :=
  ⟨rfl, abTree_holdsTree, next_of_nextHas (p := fun _ => true) (by decide +kernel)⟩

theorem aaSource_sourceByte (k : Nat) (h : k < 2) : aaSource.sourceByte k = 0x61 := by
  interval_cases k <;> decide

theorem aaSource_hasCodes (k : Nat) (h : k < aaSource.srcLen.toNat) :
    HasCode aaSource.codes (aaSource.sourceByte k) := by
  rw [aaSource_sourceByte k h]
  exact (hasCode_aCodes 0x61).2 rfl

theorem witness_PackWritesThePackedForm :
    aaSource.BuffersOk ∧ aaSource.srcLen ≠ 0 ∧ Memory.wf aaSource.dmem = true
    ∧ (∀ k, k < aaSource.srcLen.toNat → HasCode aaSource.codes (aaSource.sourceByte k))
    ∧ [false, false] = (List.range aaSource.srcLen.toNat).flatMap
        (fun k => codeOf aaSource.codes (aaSource.sourceByte k))
    ∧ 6 = (8 - [false, false].length % 8) % 8 ∧ 1 = ([false, false].length + 6) / 8
    ∧ 1 + 1 ≤ aaSource.dstCap.toNat :=
  ⟨aaSource_buffersOk, by decide, by decide, aaSource_hasCodes, by decide +kernel, by decide,
    by decide, by decide⟩

theorem witness_PackErrorsAreInOrder :
    (let s := { abSource with codes := aCodes }
     s.BuffersOk ∧ s.srcLen ≠ 0 ∧ 1 < s.srcLen.toNat ∧ ¬ HasCode s.codes (s.sourceByte 1)
      ∧ ∀ j, j < 1 → HasCode s.codes (s.sourceByte j))
    ∧ (let s := { aaSource with dstCap := 1 }
       s.BuffersOk ∧ s.srcLen ≠ 0 ∧ (∀ k, k < s.srcLen.toNat → HasCode s.codes (s.sourceByte k))
        ∧ 2 = 1 + (((List.range s.srcLen.toNat).map
            fun k => (lookup s.codes (s.sourceByte k)).len.toNat).sum + 7) / 8
        ∧ s.dstCap.toNat < 2) := by
  refine ⟨⟨buffersOk_of (by decide) (by decide) (by decide), by decide, by decide, ?_, ?_⟩,
    buffersOk_of (by decide) (by decide) (by decide), by decide, aaSource_hasCodes,
    by decide +kernel, by decide⟩
  · show ¬ HasCode aCodes _
    rw [hasCode_aCodes]; decide
  · intro j hj
    have : j = 0 := by omega
    subst this
    show HasCode aCodes _
    rw [hasCode_aCodes]; decide

theorem witness_EmptySourcePacksAndUnpacksToNothing :
    State.reset.srcLen = 0 ∧ RangeOk State.reset.dmemSize State.reset.dstAddr State.reset.dstCap :=
  ⟨rfl, .inl rfl⟩

theorem witness_PaddingReachesAByteBoundary : [true] ≠ ([] : Bits) := by decide

/-- The packed form of "aa" at 0 as the source of an UNPACK with 'a' = "0". -/
def aaPacked : State :=
  { State.launch 4096 [(0, 6)] with srcLen := 2, dstAddr := 0x10, dstCap := 8, codes := aCodes }

theorem aaPacked_buffersOk : aaPacked.BuffersOk := buffersOk_of (by decide) (by decide) (by decide)

theorem witness_UnpackWritesTheDecodedBytes :
    aaPacked.BuffersOk ∧ aaPacked.srcLen ≠ 0 ∧ Memory.wf aaPacked.dmem = true
    ∧ (aaPacked.sourceByte 0).toNat ≤ 7
    ∧ (aaPacked.sourceByte 0).toNat ≤ 8 * (aaPacked.srcLen.toNat - 1)
    ∧ ConflictFree aaPacked.codes
    ∧ greedy (codeBook aaPacked.codes) [] aaPacked.keptBits = ([0x61, 0x61], [])
    ∧ [0x61, 0x61].length ≤ aaPacked.dstCap.toNat :=
  ⟨aaPacked_buffersOk, by decide, by decide, by decide, by decide, aCodes_conflictFree,
    by decide +kernel, by decide⟩

theorem witness_UnpackErrorsAreInOrder :
    (let s := { aaPacked with dmem := [(0, 8)] }
     s.BuffersOk ∧ s.srcLen ≠ 0 ∧ 7 < (s.sourceByte 0).toNat)
    ∧ (let s := { aaPacked with srcLen := 1 }
       s.BuffersOk ∧ s.srcLen ≠ 0 ∧ 8 * (s.srcLen.toNat - 1) < (s.sourceByte 0).toNat)
    ∧ (let s := { aaPacked with codes := assign aCodes 0x62 { len := 1, bits := 0 } }
       s.BuffersOk ∧ (s.sourceByte 0).toNat ≤ 7 ∧ HasCode s.codes 0x61 ∧ HasCode s.codes 0x62
        ∧ codeOf s.codes 0x61 = codeOf s.codes 0x62)
    ∧ (let s := { aaPacked with dmem := [(0, 6), (1, 0x40)] }
       s.BuffersOk ∧ ConflictFree s.codes
        ∧ greedy (codeBook s.codes) [] s.keptBits = ([0x61], [true]))
    ∧ (let s := { aaPacked with dstCap := 1 }
       s.BuffersOk ∧ ConflictFree s.codes ∧ s.dstCap.toNat < 2
        ∧ greedy (codeBook s.codes) [] s.keptBits = ([0x61, 0x61], [])) := by
  refine ⟨⟨buffersOk_of (by decide) (by decide) (by decide), by decide, by decide⟩,
    ⟨buffersOk_of (by decide) (by decide) (by decide), by decide, by decide⟩,
    ⟨buffersOk_of (by decide) (by decide) (by decide), by decide, ?_, ?_, by decide +kernel⟩,
    ⟨buffersOk_of (by decide) (by decide) (by decide), aCodes_conflictFree, by decide +kernel⟩,
    buffersOk_of (by decide) (by decide) (by decide), aCodes_conflictFree, by decide,
    by decide +kernel⟩ <;> unfold HasCode <;> decide +kernel

theorem least_conflict_of_two (ct : CodeTable)
    (h : ∀ x, HasCode ct x ↔ x = 0x61 ∨ x = 0x62) :
    ∀ x' y' : Symbol, x'.toNat < y'.toNat → HasCode ct x' → HasCode ct y' →
      codeOf ct x' = codeOf ct y' →
      (0x61 : Symbol).toNat < x'.toNat ∨ ((0x61 : Symbol) = x' ∧ (0x62 : Symbol).toNat ≤ y'.toNat) := by
  intro x' y' hlt hx hy _
  rw [h] at hx hy
  rcases hx with rfl | rfl <;> rcases hy with rfl | rfl <;> revert hlt <;> decide

/-- The conflict clause of UnpackErrorsAreInOrder: (0x61, 0x62) is the least pair of its table. -/
theorem witness_UnpackErrorsAreInOrder_conflict :
    (0x61 : Symbol).toNat < (0x62 : Symbol).toNat
    ∧ ∀ x' y' : Symbol, x'.toNat < y'.toNat →
      HasCode (assign aCodes 0x62 { len := 1, bits := 0 }) x' →
      HasCode (assign aCodes 0x62 { len := 1, bits := 0 }) y' →
      codeOf (assign aCodes 0x62 { len := 1, bits := 0 }) x'
        = codeOf (assign aCodes 0x62 { len := 1, bits := 0 }) y' →
      (0x61 : Symbol).toNat < x'.toNat ∨ ((0x61 : Symbol) = x' ∧ (0x62 : Symbol).toNat ≤ y'.toNat) := by
  refine ⟨by decide, least_conflict_of_two _ fun x => ?_⟩
  have ha := hasCode_aCodes x
  unfold HasCode at ha ⊢
  rw [lookup_assign]
  split
  · rename_i h; simp [h]
  · rename_i h; rw [ha]; exact ⟨.inl, fun hx => hx.resolve_right h⟩

/-- The code table 'a' = "0", 'b' = "01", 'c' = "1": not prefix-free. -/
def shortFirstCodes : CodeTable :=
  assign (assign aCodes 0x62 (CodeEntry.ofBits [false, true])) 0x63 (CodeEntry.ofBits [true])

/-- R194: the shorter code matches first and the longer one is never decoded: "01" reads as "ac". -/
theorem test_greedy_shorter_first :
    greedy (codeBook shortFirstCodes) [] [false, true] = ([0x61, 0x63], []) := by decide +kernel

theorem witness_GreedyWalkSpellsItsInput :
    greedy (codeBook aCodes) [] [false, true] = ([0x61], [true])
    ∧ greedy (codeBook shortFirstCodes) [] [false, true] = ([0x61, 0x63], [])
    ∧ HasCode shortFirstCodes 0x61 ∧ codeOf shortFirstCodes 0x61 <+: codeOf shortFirstCodes 0x62 := by
  refine ⟨by decide +kernel, by decide +kernel, ?_, by decide +kernel⟩
  unfold HasCode; decide +kernel

theorem witness_PaddingBitsAreIgnored :
    (1 : Byte).toNat ≤ 7 ∧ (0xDC : Byte).toNat / 2 ^ (1 : Byte).toNat
      = (0xDD : Byte).toNat / 2 ^ (1 : Byte).toNat := by decide

/-- The UNPACK that reads what `t` wrote at 0x10 and writes to 0x40. -/
def unpackAfter (t : State) : State :=
  { t with srcAddr := 0x10, srcLen := t.outLen, dstAddr := 0x40, dstCap := 8 }

theorem unpackAfter_buffersOk {t : State} (h₁ : t.outLen = 2) (h₂ : t.dmemSize = 4096) :
    (unpackAfter t).BuffersOk := by
  refine buffersOk_of ?_ ?_ ?_ <;> simp [unpackAfter, h₁, h₂]

theorem witness_PackThenUnpackRestoresTheSource :
    ∃ t, exec .pack aaSource = .next t ∧ t.err = .noError ∧ ConflictFree t.codes
      ∧ PrefixFree t.codes
      ∧ Memory.wf aaSource.dmem = true ∧ Memory.wf (unpackAfter t).dmem = true
      ∧ (unpackAfter t).codes = t.codes ∧ (unpackAfter t).srcAddr = aaSource.dstAddr
      ∧ (unpackAfter t).srcLen = t.outLen ∧ (unpackAfter t).dmem = t.dmem
      ∧ (unpackAfter t).BuffersOk ∧ aaSource.srcLen.toNat ≤ (unpackAfter t).dstCap.toNat := by
  obtain ⟨t, ht, hp⟩ := next_of_nextHas (r := exec .pack aaSource)
    (p := fun t => decide (t.err = .noError ∧ Memory.wf t.dmem = true ∧ t.outLen = 2
      ∧ t.dmemSize = 4096)) (by decide +kernel)
  obtain ⟨h₁, h₂, h₃, h₄⟩ := of_decide_eq_true hp
  have hc : t.codes = aaSource.codes := by
    have : exec .pack aaSource = .next t := ht
    have h : nextHas (exec .pack aaSource) (fun t => decide (t.codes = aaSource.codes)) = true := by
      decide +kernel
    rw [this] at h
    exact of_decide_eq_true h
  exact ⟨t, ht, h₁, hc ▸ aCodes_conflictFree, hc ▸ aCodes_prefixFree, by decide, h₂, rfl, rfl, rfl, rfl,
    unpackAfter_buffersOk h₃ h₄, (by decide : (2 : Word).toNat ≤ (8 : Word).toNat)⟩

theorem witness_CompressThenUnpackRestoresTheSource :
    ∃ t, exec .compress abSource = .next t ∧ t.err = .noError
      ∧ Memory.wf abSource.dmem = true ∧ Memory.wf (unpackAfter t).dmem = true
      ∧ (unpackAfter t).codes = t.codes ∧ (unpackAfter t).srcAddr = abSource.dstAddr
      ∧ (unpackAfter t).srcLen = t.outLen ∧ (unpackAfter t).dmem = t.dmem
      ∧ (unpackAfter t).BuffersOk ∧ abSource.srcLen.toNat ≤ (unpackAfter t).dstCap.toNat := by
  obtain ⟨t, ht, hp⟩ := next_of_nextHas (r := exec .compress abSource)
    (p := fun t => decide (t.err = .noError ∧ Memory.wf t.dmem = true ∧ t.outLen = 2
      ∧ t.dmemSize = 4096)) (by decide +kernel)
  obtain ⟨h₁, h₂, h₃, h₄⟩ := of_decide_eq_true hp
  exact ⟨t, ht, h₁, by decide, h₂, rfl, rfl, rfl, rfl, unpackAfter_buffersOk h₃ h₄,
    (by decide : (2 : Word).toNat ≤ (8 : Word).toNat)⟩

/-- The pipeline of R210 on `s`, as one outcome. -/
def pipeline (s : State) : Result :=
  match exec .analyze s with
  | .next s₁ => match exec .buildTree s₁ with
    | .next s₂ => match exec .genCodes s₂ with
      | .next s₃ => exec .pack s₃
      | r => r
    | r => r
  | r => r

theorem witness_CompressIsThePipeline :
    abSource.BuffersOk ∧ abSource.srcLen ≠ 0
    ∧ ∃ t, pipeline abSource = .next t ∧ (t.err == .noError) = true :=
  ⟨abSource_buffersOk, by decide,
    next_of_nextHas (p := fun t => t.err == .noError) (by decide +kernel)⟩

theorem witness_CompressCompletes :
    abSource.BuffersOk ∧ abSource.srcLen ≠ 0 ∧ Memory.wf abSource.dmem = true
    ∧ { abSource with dstCap := 65 }.BuffersOk
    ∧ 1 + (255 * abSource.srcLen.toNat + 7) / 8 ≤ ({ abSource with dstCap := 65 } : State).dstCap.toNat :=
  ⟨abSource_buffersOk, by decide, by decide, buffersOk_of (by decide) (by decide) (by decide),
    by decide⟩

theorem witness_CompressOfNothingEmptiesTheTables :
    abTree.srcLen = 0 ∧ RangeOk abTree.dmemSize abTree.dstAddr abTree.dstCap := ⟨rfl, .inl rfl⟩

theorem witness_HostStatementsAreTheirAccesses :
    (Stmt.setcode 0x78 33 0x80000000 [0x80000000]).wf = true := by decide

/-- R107: MEMW @0x10, 0xAA 0xBB is two byte writes, at 0x10 and 0x11. -/
theorem test_memw : programOps [.memw 0x10 [0xAA, 0xBB]]
    = [.access (.memWrite 0x10 0xAA), .access (.memWrite 0x11 0xBB)] := by decide

theorem witness_WaitPollsUntilIdleThenTheRunEnds :
    ((hostNext .wait).hostDoes .wait [] ∧ (hostNextBusy 7 .wait).hostDoes .wait [])
    ∧ (State.reset.hostProg = [] ∧ State.reset.busy = false ∧ State.reset.nextTurn ≠ .reset
      ∧ ∃ t, step State.reset = .next t ∧ true = true)
    ∧ ((hostNext .wait).hostProg ≠ [] ∧ ∃ t, step (hostNext .wait) = .next t ∧ true = true)
    ∧ ((turnNext .engine (some 0)).hostProg = [] ∧ (turnNext .engine (some 0)).busy = true)
    ∧ ((busyBuffers 5 (.access (.memWrite 5 1))).hostProg ≠ []
      ∧ step (busyBuffers 5 (.access (.memWrite 5 1))) = .fault .hostRangeConflict) :=
  ⟨⟨⟨rfl, rfl⟩, ⟨rfl, rfl⟩⟩,
    ⟨rfl, rfl, by decide, next_of_nextHas (p := fun _ => true) (by decide +kernel)⟩,
    ⟨by decide, next_of_nextHas (p := fun _ => true) (by decide +kernel)⟩, ⟨rfl, rfl⟩,
    ⟨by decide, rfl⟩⟩

theorem witness_EveryStepKeepsTheInvariant :
    State.reset.Inv ∧ (∃ t, step State.reset = .next t ∧ true = true)
    ∧ ({ abTree with sched := [.host] } : State).Inv
    ∧ (∃ t, step { abTree with sched := [.host] } = .next t ∧ true = true) := by
  have hr : State.reset.Inv :=
    ⟨by constructor <;> decide, ⟨rfl, by intro c hc; cases hc⟩, fun h => (by cases h), fun _ => ⟨rfl, rfl⟩⟩
  refine ⟨hr, next_of_nextHas (p := fun _ => true) (by decide +kernel),
    ⟨by constructor <;> decide, ⟨rfl, by intro c hc; cases hc⟩, abTree_treeOk⟩,
    next_of_nextHas (p := fun _ => true) (by decide +kernel)⟩

end Sys2Proof.Tests
end

/-! # Launch and invariant: O6 and O60

`State.Inv` speaks of DMEM_SIZE, DMEM and the tree alone. So the proof needs one rule per named
operation of the model: what touches none of the three keeps the invariant as it stands, a write of
bytes that exist keeps the DMEM part, and storing or dropping a tree establishes the tree part. -/

namespace Sys2Proof.Machine

/-! ### The reset state (R250) -/

theorem alphabet_zeroFreq : alphabet zeroFreq = [] := by
  refine List.eq_nil_iff_forall_not_mem.2 fun p hp => ?_
  obtain ⟨hcount, hne⟩ := (mem_alphabet zeroFreq p).1 hp
  exact hne (by rw [hcount, lookup_zeroFreq])

theorem codedSymbols_emptyCodes : codedSymbols emptyCodes = [] := by
  refine List.eq_nil_iff_forall_not_mem.2 fun p hp => ?_
  obtain ⟨hentry, hne⟩ := (mem_codedSymbols emptyCodes p).1 hp
  exact hne (by rw [hentry, lookup_emptyCodes]; rfl)

theorem nsym_eq_zero {s : State} (h : s.freq = zeroFreq) : s.nsym = 0 := by
  rw [State.nsym, h, alphabet_zeroFreq, List.length_nil]

theorem ncode_eq_zero {s : State} (h : s.codes = emptyCodes) : s.ncode = 0 := by
  rw [State.ncode, h, codedSymbols_emptyCodes, List.length_nil]

/-- R250 holds of a launch whatever its arguments are: no register of the reset state reads DMEM, and
the two live counts are those of empty tables. -/
theorem State.atReset_launch (size : Nat) (m : Memory) : (State.launch size m).AtReset := by
  have hctrl : readReg .ctrl (State.launch size m) = 0 := by simp [readReg, State.launch, bit]
  have hstatus : readReg .status (State.launch size m) = 0 := by
    simp [readReg, State.statusWord, State.launch, State.busy, State.errf, ErrCode.value, bit]
  have hnsym : readReg .nsym (State.launch size m) = 0 := by
    rw [readReg, nsym_eq_zero rfl]; rfl
  have hncode : readReg .ncode (State.launch size m) = 0 := by
    rw [readReg, ncode_eq_zero rfl]; rfl
  exact ⟨rfl, hctrl, hstatus, rfl, rfl, rfl, rfl, rfl, rfl, rfl, rfl, rfl, rfl, rfl, rfl,
    lookup_zeroFreq, hnsym, lookup_emptyCodes, hncode, rfl, rfl, rfl⟩

/-! ### The DMEM part of the invariant -/

/-- Bytes written where bytes exist keep DMEM canonical and within DMEM_SIZE. -/
theorem State.MemoryOk.writeRange {s t : State} {a : Nat} {bs : List Byte} (h : s.MemoryOk)
    (hsize : t.dmemSize = s.dmemSize) (hdmem : t.dmem = Memory.writeRange s.dmem a bs)
    (hin : ∀ x, a ≤ x → x < a + bs.length → x < s.dmemSize) : t.MemoryOk := by
  obtain ⟨hwf, hlisted⟩ := h
  rw [State.MemoryOk, hsize, hdmem]
  refine ⟨Memory.writeRange_wf hwf a bs, fun c hc => ?_⟩
  rcases Memory.mem_writeRange hc with hold | ⟨hge, hlt⟩
  · exact hlisted c hold
  · exact hin c.1 hge hlt

/-- Every byte of a valid range exists (R86). -/
theorem lt_size_of_rangeValid {size x : Nat} {a n : Word} (h : rangeValid size a n = true)
    (hge : a.toNat ≤ x) (hlt : x < a.toNat + n.toNat) : x < size := by
  have hn : n ≠ 0 := by rintro rfl; simp at hlt; omega
  exact hlt.trans_le (le_size_of_rangeValid h hn)

/-- Every byte that a reset while busy makes free exists (R251). -/
theorem State.lt_size_of_activeDestinationBytes {s : State} {x : Nat} (hge : s.dstAddr.toNat ≤ x)
    (hlt : x < s.dstAddr.toNat + s.activeDestinationBytes) : x < s.dmemSize := by
  unfold State.activeDestinationBytes at hlt
  split at hlt <;> omega

/-! ### The tree part of the invariant -/

/-- Without a tree, ROOT and NODE_COUNT are 0 and nothing is asked of the arena (R44). -/
theorem State.treeOk_of_no_tree {s : State} (hvalid : s.treeValid = false) (hroot : s.root = 0)
    (hcount : s.nodeCount = 0) : s.TreeOk :=
  ⟨fun htrue => absurd (hvalid.symm.trans htrue) Bool.false_ne_true, fun _ => ⟨hroot, hcount⟩⟩

theorem State.treeOk_of_holdsTree {s : State} {n : Nat} (hvalid : s.treeValid = true)
    (h : s.HoldsTree n) : s.TreeOk :=
  ⟨fun _ => ⟨n, h⟩, fun hfalse => absurd (hvalid.symm.trans hfalse) Bool.false_ne_true.symm⟩

theorem childOf_congr {node node' : Nat → Node} {i j : Nat} (he : node' i = node i) :
    ChildOf node' j i ↔ ChildOf node j i := by
  rw [ChildOf, ChildOf, he]

/-- An internal record is sound by itself and the weights of its two children, which lie below it. -/
theorem InternalOk.congr {node node' : Nat → Node} {i : Nat} (h : InternalOk node i)
    (he : ∀ k, k ≤ i → node' k = node k) : InternalOk node' i := by
  obtain ⟨hkind, hsym, hleft, hright, hne, hweight⟩ := h
  rw [InternalOk, he i le_rfl, he _ hleft.le, he _ hright.le]
  exact ⟨hkind, hsym, hleft, hright, hne, hweight⟩

/-- Whether the records below `2n - 1` are a built tree depends on those records alone (R153). -/
theorem TreeShape.congr {node node' : Nat → Node} {n root : Nat} (h : TreeShape node n root)
    (he : ∀ k, k < 2 * n - 1 → node' k = node k) : TreeShape node' n root where
  leaves_pos := h.leaves_pos
  leaves_le := h.leaves_le
  root_eq := h.root_eq
  leaf i hi := by rw [he i (by omega)]; exact h.leaf i hi
  ascending i j hij hj := by rw [he i (by omega), he j (by omega)]; exact h.ascending i j hij hj
  internal i hn hi := (h.internal i hn hi).congr fun k hk => he k (by omega)
  one_parent j hj := by
    obtain ⟨i, ⟨hi, hchild⟩, hunique⟩ := h.one_parent j hj
    exact ⟨i, ⟨hi, (childOf_congr (he i hi)).2 hchild⟩,
      fun i' hi' hchild' => hunique i' hi' ((childOf_congr (he i' hi')).1 hchild')⟩

/-- Storing what the tree builder makes leaves a built tree in the arena, with one leaf per symbol of
the alphabet: NODE_COUNT and ROOT fit their 9 bits (R44, R150, R153). -/
theorem State.holdsTree_storeTree (s : State) {f : FreqTable} {tr : Tree}
    (h : buildTree f = .ok tr) : (s.storeTree tr).HoldsTree (alphabet f).length := by
  obtain ⟨hshape, hlen, -, -⟩ := buildTree_ok h
  have hpos := hshape.leaves_pos
  have hle := hshape.leaves_le
  have hcount : (s.storeTree tr).nodeCount.toNat = 2 * (alphabet f).length - 1 := by
    simp; omega
  have hroot : (s.storeTree tr).root.toNat = tr.root := by
    have hre := hshape.root_eq
    simp; omega
  refine ⟨hcount, ?_⟩
  rw [hroot]
  exact hshape.congr fun k hk => nodeAt_storeTree s tr k (by omega) (by omega)

/-! ### What each operation of the model does to the invariant

The invariant is stated of six fields: DMEM_SIZE, DMEM, TREE_VALID, NODE, ROOT and NODE_COUNT. An update
of other fields leaves the very same statement. -/

section
variable {s : State}

@[simp] theorem State.inv_finish (e : ErrCode) (i : Word) : (s.finish e i).Inv ↔ s.Inv := Iff.rfl
@[simp] theorem State.inv_setFreq (f : FreqTable) : (s.setFreq f).Inv ↔ s.Inv := Iff.rfl
@[simp] theorem State.inv_setCodes (c : CodeTable) : (s.setCodes c).Inv ↔ s.Inv := Iff.rfl
@[simp] theorem State.inv_record (n : Nat) (v : Word) : (s.record n v).Inv ↔ s.Inv := Iff.rfl
@[simp] theorem State.inv_recordFreeWord (n : Nat) : (s.recordFreeWord n).Inv ↔ s.Inv := Iff.rfl
@[simp] theorem State.inv_recordFreeByte (n : Nat) : (s.recordFreeByte n).Inv ↔ s.Inv := Iff.rfl
@[simp] theorem State.inv_setProg (p : List HostOp) : (s.setProg p).Inv ↔ s.Inv := Iff.rfl
@[simp] theorem State.inv_dropTurn : s.dropTurn.Inv ↔ s.Inv := Iff.rfl

/-- The output of no byte writes no byte. -/
@[simp] theorem State.inv_deliver_nil (p : BitVec 3) : (s.deliver [] p).Inv ↔ s.Inv := Iff.rfl

@[simp] theorem State.inv_writeReg (r : RegName) (v : Word) : (writeReg r v s).Inv ↔ s.Inv := by
  obtain ⟨harena, hroot, hcount, hvalid, -, -, hdmem, hsize, -⟩ := writeReg_frame r v s
  simp only [State.Inv, State.SizeOk, State.MemoryOk, State.TreeOk, State.HoldsTree, harena, hroot,
    hcount, hvalid, hdmem, hsize]

/-- A discarded tree leaves ROOT and NODE_COUNT 0 (R131). -/
theorem State.Inv.clearTables (h : s.Inv) : s.clearTables.Inv := by
  obtain ⟨hsize, hmem, -⟩ := h
  exact ⟨hsize, hmem, State.treeOk_of_no_tree rfl rfl rfl⟩

theorem State.Inv.storeTree {f : FreqTable} {tr : Tree} (h : s.Inv) (hb : buildTree f = .ok tr) :
    (s.storeTree tr).Inv := by
  obtain ⟨hsize, hmem, -⟩ := h
  exact ⟨hsize, hmem, State.treeOk_of_holdsTree rfl (s.holdsTree_storeTree hb)⟩

/-- An output that fits a valid destination range lies on bytes that exist (R86, R89). -/
theorem State.Inv.deliver {out : List Byte} (h : s.Inv) (p : BitVec 3)
    (hvalid : rangeValid s.dmemSize s.dstAddr s.dstCap = true)
    (hfits : out.length ≤ s.dstCap.toNat) : (s.deliver out p).Inv := by
  obtain ⟨hsize, hmem, htree⟩ := h
  exact ⟨hsize,
    hmem.writeRange rfl rfl fun _ hge hlt => lt_size_of_rangeValid hvalid hge (by omega), htree⟩

/-- A host write of a byte that exists (R81, R84). -/
theorem State.Inv.writeByte {x : Nat} (h : s.Inv) (v : Byte) (hx : x < s.dmemSize) :
    ({ s with dmem := Memory.write s.dmem x v } : State).Inv := by
  obtain ⟨hsize, hmem, htree⟩ := h
  exact ⟨hsize, hmem.writeRange (bs := [v]) rfl rfl fun y _ hlt => by simp at hlt; omega, htree⟩

/-- Hardware reset discards the tree and makes free only bytes that exist (R250, R251). -/
theorem State.Inv.hardReset (h : s.Inv) : s.hardReset.Inv := by
  obtain ⟨hsize, hmem, -⟩ := h
  exact ⟨hsize,
    hmem.writeRange rfl rfl fun _ hge hlt =>
      State.lt_size_of_activeDestinationBytes hge (by simpa using hlt),
    State.treeOk_of_no_tree rfl rfl rfl⟩

end

/-! ### The commands -/

section
variable {s t : State}

theorem execAnalyze_keeps_inv (h : s.Inv) (he : execAnalyze s = .next t) : t.Inv := by
  rcases execAnalyze_cases he with ⟨e, -, rfl⟩ | ⟨-, rfl⟩
  · simpa using h
  · simpa using h

theorem execBuildTree_keeps_inv (h : s.Inv) (he : execBuildTree s = .next t) : t.Inv := by
  rcases execBuildTree_cases he with ⟨e, -, rfl⟩ | ⟨tr, hb, rfl⟩
  · simpa using h
  · simpa using h.storeTree hb

theorem execGenCodes_keeps_inv (h : s.Inv) (he : execGenCodes s = .next t) : t.Inv := by
  rcases execGenCodes_cases he with ⟨-, rfl⟩ | ⟨-, rfl⟩
  · simpa using h
  · simpa using h

theorem execPack_keeps_inv (h : s.Inv) (he : execPack s = .next t) : t.Inv := by
  rcases execPack_cases he with ⟨e, -, rfl⟩ | ⟨-, -, rfl⟩ | ⟨-, -, e, -, rfl⟩
    | ⟨hbuf, -, out, p, hp, rfl⟩
  · simpa using h
  · simpa using h
  · simpa using h
  · simpa using h.deliver p (bufferError_none hbuf).2.1 (length_le_of_packWith hp)

theorem execUnpack_keeps_inv (h : s.Inv) (he : execUnpack s = .next t) : t.Inv := by
  rcases execUnpack_cases he with ⟨e, -, rfl⟩ | ⟨-, -, rfl⟩ | ⟨-, b, body, e, -, -, rfl⟩
    | ⟨hbuf, b, body, out, p, -, hu, rfl⟩
  · simpa using h
  · simpa using h
  · simpa using h
  · simpa using h.deliver p (bufferError_none hbuf).2.1 (length_le_of_unpackWith hu)

/-- What a successful composition holds: the builder's tree of its own counts, and an output that fits. -/
theorem compressWith_ok {bytes : List Byte} {cap : Word} {r : Compressed}
    (h : compressWith bytes cap = .ok r) :
    buildTree r.freq = .ok r.tree ∧ r.out.length ≤ cap.toNat := by
  rcases compressWith_cases bytes cap with ⟨e, -, h'⟩ | ⟨tr, e, -, -, h'⟩ | ⟨tr, out, p, hb, hp, h'⟩
  · rw [h'] at h; cases h
  · rw [h'] at h; cases h
  · rw [h'] at h; cases h
    exact ⟨hb, length_le_of_packWith hp⟩

theorem execCompress_keeps_inv (h : s.Inv) (he : execCompress s = .next t) : t.Inv := by
  rcases execCompress_cases he with ⟨e, -, rfl⟩ | ⟨-, -, rfl⟩ | ⟨-, -, e, -, rfl⟩
    | ⟨hbuf, -, r, hr, rfl⟩
  · simpa using h
  · simpa using h.clearTables
  · simpa using h
  · obtain ⟨hb, hfits⟩ := compressWith_ok hr
    have htree : ((s.setFreq r.freq).storeTree r.tree).Inv := ((State.inv_setFreq _).2 h).storeTree hb
    exact (State.inv_finish _ _).2
      (((State.inv_setCodes _).2 htree).deliver r.pad (bufferError_none hbuf).2.1 hfits)

theorem exec_keeps_inv {i : Instr} (h : s.Inv) (he : exec i s = .next t) : t.Inv := by
  cases i with
  | nop => cases he; simpa using h
  | clear => cases he; simpa using h.clearTables
  | analyze => exact execAnalyze_keeps_inv h he
  | buildTree => exact execBuildTree_keeps_inv h he
  | genCodes => exact execGenCodes_keeps_inv h he
  | pack => exact execPack_keeps_inv h he
  | unpack => exact execUnpack_keeps_inv h he
  | compress => exact execCompress_keeps_inv h he

/-! ### The turns -/

theorem engineTurn_keeps_inv (h : s.Inv) (he : engineTurn s = .next t) : t.Inv := by
  rcases engineTurn_cases he with ⟨-, rfl⟩ | ⟨w, v, -, -, rfl⟩ | ⟨w, i, -, -, hx⟩
  · exact h
  · simpa using h
  · exact exec_keeps_inv h hx

theorem hostAccess_keeps_inv {a : HostAccess} (h : s.Inv) (he : hostAccess a s = .next t) :
    t.Inv := by
  rcases hostAccess_cases he with ⟨n, v, rfl⟩ | ⟨n, rfl⟩ | ⟨n, rfl⟩ | ⟨r, v, rfl⟩
    | ⟨x, v, hx, -, rfl⟩
  · simpa using h
  · simpa using h
  · simpa using h
  · simpa using h
  · exact h.writeByte v hx

/-- A poll records the STATUS word and, when BUSY = 0, moves the program on (R107). -/
theorem hostPoll_keeps_inv {rest : List HostOp} (h : s.Inv) (he : hostPoll rest s = .next t) :
    t.Inv := by
  unfold hostPoll at he
  split at he
  · cases he; simpa using h
  · cases he; simpa using h

theorem hostTurn_keeps_inv (h : s.Inv) (he : hostTurn s = .next t) : t.Inv := by
  rcases hostTurn_cases he with ⟨-, rfl⟩ | ⟨a, rest, -, ha⟩ | ⟨rest, -, hp⟩
  · exact h
  · exact hostAccess_keeps_inv ((State.inv_setProg rest).2 h) ha
  · exact hostPoll_keeps_inv h hp

theorem step_keeps_inv (h : s.Inv) (hs : step s = .next t) : t.Inv := by
  have hd : s.dropTurn.Inv := State.inv_dropTurn.2 h
  cases hturn : s.nextTurn with
  | host => exact hostTurn_keeps_inv hd (step_host hturn ▸ hs)
  | engine => exact engineTurn_keeps_inv hd (step_engine hturn ▸ hs)
  | reset =>
    rw [step_reset hturn] at hs
    cases hs
    exact hd.hardReset

end

/-- The invariant at launch: DMEM is the launch argument, and TREE_VALID, ROOT and NODE_COUNT are 0. -/
theorem State.inv_launch {size : Nat} {m : Memory} (hpos : 1 ≤ size) (hle : size ≤ 2 ^ 32)
    (hwf : Memory.wf m = true) (hin : ∀ c ∈ m, c.1 < size) : (State.launch size m).Inv :=
  ⟨⟨hpos, hle⟩, ⟨hwf, hin⟩, State.treeOk_of_no_tree rfl rfl rfl⟩

/-- Settles O6: the base case of the invariant; State.reset is the launch with 4096 bytes and no listed
byte. -/
theorem launchMeetsTheInvariant : Obligations.LaunchMeetsTheInvariant := by
  refine ⟨fun size m hpos hle hwf hin => ?_, ?_, ?_⟩
  · exact ⟨State.atReset_launch size m, rfl, State.inv_launch hpos hle hwf hin⟩
  · exact State.atReset_launch _ _
  · exact State.inv_launch (by decide) (by decide) rfl (by simp)

/-- Settles O60, by the turn that the step takes and, for the ENGINE's, by the command it runs. -/
theorem everyStepKeepsTheInvariant : Obligations.EveryStepKeepsTheInvariant :=
  fun _ _ h hs => step_keeps_inv h hs

end Sys2Proof.Machine

/-! # The register window: O4 and O14 to O23, and O31

A host register access is `readReg` or `writeReg` of the register at its offset. So the rules below say
once what a read or write step does when BUSY lets it through and when it does not; what a field of a
register word holds is then a fact about bit vectors, and what a table window reaches one about tables. -/

namespace Sys2Proof.Machine

/-! ### Host register accesses, by what BUSY does to them (R56, R57) -/

section
variable {s : State} {r : RegName} {v : Word} {n : Nat} {rest : List HostOp}

theorem writeReg_of_idle (hb : s.busy = false) : writeReg r v s = storeReg r v s := by
  simp [writeReg, hb]

theorem writeReg_of_unlocked (hr : busyLocked r = false) : writeReg r v s = storeReg r v s := by
  simp [writeReg, hr]

theorem writeReg_of_locked (hb : s.busy = true) (hr : busyLocked r = true) :
    writeReg r v s = { s with wrIgn := true } := by
  simp [writeReg, hb, hr]

/-- A write of a register that no busy lock guards has its effect at all times. -/
theorem step_regWrite_of_unlocked (hr : busyLocked r = false)
    (h : s.hostDoes (.access (.regWrite 32 r.offset v)) rest) :
    step s = .next (storeReg r v (s.afterHost rest)) := by
  rw [step_regWrite h, writeReg_of_unlocked hr]

theorem step_regWrite_of_locked (hb : s.busy = true) (hr : busyLocked r = true)
    (h : s.hostDoes (.access (.regWrite 32 r.offset v)) rest) :
    step s = .next { s.afterHost rest with wrIgn := true } := by
  rw [step_regWrite h, writeReg_of_locked (s := s.afterHost rest) hb hr]

/-- A CMD write while BUSY = 1 is dropped (R122). -/
theorem step_cmdWrite_of_busy (hb : s.busy = true)
    (h : s.hostDoes (.access (.regWrite 32 RegName.cmd.offset v)) rest) :
    step s = .next { s.afterHost rest with cmdOvr := true } := by
  rw [step_regWrite_of_unlocked rfl h]
  exact congrArg _ (if_pos hb)

/-- A register that R57 does not free reads its defined value at all times. -/
theorem step_regRead_of_not_free (hr : freeWhileBusy r = false)
    (h : s.hostDoes (.access (.regRead 32 r.offset n)) rest) :
    step s = .next ((s.afterHost rest).record n (readReg r s)) := by
  simp [step_regRead h, hr]

theorem step_regRead_of_idle (hb : s.busy = false)
    (h : s.hostDoes (.access (.regRead 32 r.offset n)) rest) :
    step s = .next ((s.afterHost rest).record n (readReg r s)) := by
  simp [step_regRead h, hb]

theorem step_regRead_of_free (hb : s.busy = true) (hr : freeWhileBusy r = true)
    (h : s.hostDoes (.access (.regRead 32 r.offset n)) rest) :
    step s = .next ((s.afterHost rest).recordFreeWord n) := by
  simp [step_regRead h, hb, hr]

end

/-! ### The register map (R23) -/

theorem toNat_offset_ctBits (k : BitVec 3) :
    (RegName.ctBits k).offset.toNat = 0x60 + 4 * k.toNat := by
  simp [RegName.offset]; omega

theorem toNat_offset_reserved (k : BitVec 5) :
    (RegName.reserved k).offset.toNat = 0x80 + 4 * k.toNat := by
  simp [RegName.offset]; omega

theorem offset_ofOffset : ∀ off : BitVec 8, off.toNat % 4 = 0 → (RegName.ofOffset off).offset = off := by
  decide

/-- Settles O4: the table by evaluation; the map and its inverse are each other's inverses. -/
theorem registerMapIsOneToOne : Obligations.RegisterMapIsOneToOne := by
  refine ⟨by decide, toNat_offset_ctBits, toNat_offset_reserved, fun r => ?_, offset_ofOffset⟩
  obtain ⟨hadmitted, hreaches⟩ := regAccess_offset r
  exact ⟨by simpa [regAccessWf] using hadmitted, hreaches⟩

/-- Settles O14: neither register is free while busy, and a write of either stores nothing. -/
theorem identityRegistersReadTheirConstants : Obligations.IdentityRegistersReadTheirConstants := by
  intro s v w rest
  refine ⟨fun h => ?_, fun h => ?_, fun h => ?_, fun h => ?_⟩
  · exact step_regRead_of_not_free (r := .id) rfl h
  · exact step_regRead_of_not_free (r := .version) rfl h
  · exact step_regWrite_of_unlocked (r := .id) rfl h
  · exact step_regWrite_of_unlocked (r := .version) rfl h

/-! ### The STATUS word (R27, R30) -/

theorem State.errf_iff (s : State) : s.errf = true ↔ s.err ≠ .noError := by
  rw [State.errf]
  cases s.err <;> decide

/-- The one-bit fields of STATUS and their places. -/
theorem State.statusWord_flags (s : State) :
    s.statusWord.getLsbD 1 = s.done ∧ s.statusWord.getLsbD 2 = s.errf
      ∧ s.statusWord.getLsbD 3 = s.cmdOvr ∧ s.statusWord.getLsbD 4 = s.wrIgn
      ∧ s.statusWord.getLsbD 5 = s.treeValid := by
  refine ⟨?_, ?_, ?_, ?_, ?_⟩ <;>
  · rw [State.statusWord]
    repeat rw [BitVec.getLsbD_append]
    simp [bit]

/-- ERR stands in bits 15:8 of STATUS, between reserved bits that are 0. -/
theorem State.statusWord_fields (s : State) :
    s.statusWord.extractLsb' 6 2 = 0 ∧ s.statusWord.extractLsb' 8 8 = s.err.value
      ∧ s.statusWord.extractLsb' 16 16 = 0 := by
  refine ⟨?_, ?_, ?_⟩ <;> rw [State.statusWord] <;>
    repeat rw [BitVec.extractLsb'_append_eq_of_le (by decide)]
  · exact BitVec.extractLsb'_append_eq_right
  · exact BitVec.extractLsb'_append_eq_right
  · exact BitVec.extractLsb'_zero
theorem and_not_eq_ite (b c : Bool) : (b && !c) = if c then false else b := by
  cases c <;> simp

/-- Settles O15: STATUS is neither free while busy nor busy-locked, so both steps are the register's own. -/
theorem statusReadsAndClears : Obligations.StatusReadsAndClears := by
  refine fun s rest => ⟨fun v h => ?_, fun w h => ?_⟩
  · obtain ⟨hdone, herrf, hovr, hign, htree⟩ := s.statusWord_flags
    exact ⟨s.statusWord, step_regRead_of_not_free (r := .status) rfl h, statusWord_bit0 s, hdone,
      by rw [herrf, s.errf_iff], hovr, hign, htree, s.statusWord_fields⟩
  · rw [step_regWrite_of_unlocked (r := .status) rfl h]
    simp only [storeReg, State.clearStatus, and_not_eq_ite]
    rfl

/-! ### The write rules (R56 and R23 to R55) -/

/-- Settles O16, register by register: locked, always effective, or without a stored value. -/
theorem busyLockStopsOperandWrites : Obligations.BusyLockStopsOperandWrites := by
  intro s r v rest h
  cases r with
  | srcAddr | srcLen | dstAddr | dstCap | fqData | ctLen | ctBits k =>
    exact fun hb => step_regWrite_of_locked hb rfl h
  | cmd => exact fun hb => step_cmdWrite_of_busy hb h
  | status => exact ⟨_, _, _, step_regWrite_of_unlocked rfl h, rfl, rfl, rfl⟩
  | fqSel | nodeSel | ctSel =>
    simpa [storeReg, BitVec.setWidth_eq_extractLsb'] using step_regWrite_of_unlocked rfl h
  | ctrl | id | version | outLen | pad | errInfo | nsym | ncode | root | nodeCount | nodeInfo
  | nodeWeight | nodeChild | reserved k => exact step_regWrite_of_unlocked rfl h

/-- A field of the low `n` bits reads as the written word under the mask of those bits. -/
theorem setWidth_setWidth_eq_and_mask {n : Nat} (v : Word) (hn : n ≤ 32) :
    (v.setWidth n).setWidth 32 = v &&& BitVec.ofNat 32 (2 ^ n - 1) := by
  have hmask : 2 ^ n - 1 < 2 ^ 32 := by
    have := Nat.pow_le_pow_right (n := 2) (by decide) hn
    omega
  apply BitVec.eq_of_toNat_eq
  rw [BitVec.toNat_and, BitVec.toNat_ofNat, Nat.mod_eq_of_lt hmask, Nat.and_two_pow_sub_one_eq_mod,
    BitVec.toNat_setWidth, BitVec.toNat_setWidth]
  exact Nat.mod_eq_of_lt ((Nat.mod_le _ _).trans_lt v.isLt)

theorem readReg_ctrl (s : State) : readReg .ctrl s = (BitVec.ofBool s.irqEn).setWidth 32 :=
  (BitVec.setWidth_eq_append (by decide)).symm

/-- A read-only register stores nothing. -/
theorem storeReg_of_readOnly {r : RegName} (v : Word) (s : State)
    (hr : r ∈ [RegName.id, .version, .outLen, .pad, .errInfo, .nsym, .ncode, .root, .nodeCount,
      .nodeInfo, .nodeWeight, .nodeChild]) : storeReg r v s = s := by
  simp only [List.mem_cons, List.not_mem_nil, or_false] at hr
  rcases hr with rfl | rfl | rfl | rfl | rfl | rfl | rfl | rfl | rfl | rfl | rfl | rfl <;> rfl

/-- Settles O17: while BUSY = 0 a write is what the register stores. -/
theorem idleWritesReachTheirRegister : Obligations.IdleWritesReachTheirRegister := by
  intro s v hb
  have hstored : ∀ r, writeReg r v s = storeReg r v s := fun r => writeReg_of_idle hb
  simp only [hstored]
  refine ⟨⟨rfl, ?_⟩, ⟨rfl, rfl⟩, ⟨rfl, rfl⟩, ⟨rfl, rfl⟩, ⟨rfl, rfl⟩, ⟨?_, rfl⟩, ⟨?_, rfl⟩, ⟨?_, rfl⟩,
    fun r hr => storeReg_of_readOnly v s hr, fun k => ⟨rfl, rfl⟩, fun r rest h => step_regWrite h⟩
  · rw [readReg_ctrl, storeReg, ← BitVec.setWidth_one]
    exact setWidth_setWidth_eq_and_mask v (by decide)
  · exact setWidth_setWidth_eq_and_mask (n := 8) v (by decide)
  · exact setWidth_setWidth_eq_and_mask (n := 9) v (by decide)
  · exact setWidth_setWidth_eq_and_mask (n := 8) v (by decide)

/-! ### Codes and their words (R50, R51, R55) -/

/-- Settles O18: the code is the first `len` stored bits, and each stands in its word. -/
theorem codeBitsLieInTheirWords : Obligations.CodeBitsLieInTheirWords := by
  intro ct x j
  refine ⟨length_code _, fun hj => ?_⟩
  have hj256 : j < 256 := hj.trans (lookup ct x).len.isLt
  rw [← getMsbD_eq_word _ _ hj256]
  simp [codeOf, CodeEntry.code, hj]

/-- The stored bits of word `k` after it was written (R51, R55). -/
theorem getLsbD_setWord_inside (e : CodeEntry) (k : BitVec 3) (v : Word) {j : Nat} (hj : j < 32) :
    (e.setWord k v).bits.getLsbD (224 - 32 * k.toNat + j) = v.getLsbD j := by
  have hin : 224 - 32 * k.toNat + j < 256 := by omega
  simp [CodeEntry.setWord, -BitVec.reduceAllOnes, hin, hj]

/-- The stored bits of the other words stay (R55). -/
theorem getLsbD_setWord_outside (e : CodeEntry) (k : BitVec 3) (v : Word) {i : Nat} (hi : i < 256)
    (hout : i < 224 - 32 * k.toNat ∨ 224 - 32 * k.toNat + 32 ≤ i) :
    (e.setWord k v).bits.getLsbD i = e.bits.getLsbD i := by
  rcases hout with hbelow | habove
  · simp [CodeEntry.setWord, hi, hbelow]
  · have hpast : 32 ≤ i - (224 - 32 * k.toNat) := by omega
    simp [CodeEntry.setWord, -BitVec.reduceAllOnes, hi, hpast]

/-- Reading word `k'` after word `k` was written (R55). -/
theorem word_setWord (e : CodeEntry) (k k' : BitVec 3) (v : Word) :
    (e.setWord k v).word k' = if k' = k then v else e.word k' := by
  have hk := k.isLt
  have hk' := k'.isLt
  split
  · next h =>
    subst h
    apply BitVec.eq_of_getLsbD_eq
    intro i hi
    rw [CodeEntry.word, BitVec.getLsbD_extractLsb', getLsbD_setWord_inside _ _ _ hi]
    simp [hi]
  · next h =>
    have hne : k'.toNat ≠ k.toNat := fun he => h (BitVec.eq_of_toNat_eq he)
    apply BitVec.eq_of_getLsbD_eq
    intro i hi
    rw [CodeEntry.word, CodeEntry.word, BitVec.getLsbD_extractLsb', BitVec.getLsbD_extractLsb',
      getLsbD_setWord_outside _ _ _ (by omega) (by omega)]

/-! ### The table windows (R43, R54, R55) -/

/-- Settles O19: a table window is the table's entry at the selector, read with `lookup` and written
with `assign`. -/
theorem tableWindowsReachTheSelectedEntry : Obligations.TableWindowsReachTheSelectedEntry := by
  intro s v k
  refine ⟨rfl, fun hb => ⟨_, writeReg_of_idle hb, fun x => lookup_assign _ _ _ _⟩, rfl, rfl,
    fun hb => ⟨_, writeReg_of_idle hb, fun x hx => ?_, ?_, ?_⟩,
    fun hb => ⟨_, writeReg_of_idle hb, fun x hx => ?_, ?_, fun k' => ?_⟩,
    fun r _ n rest hb => ⟨step_regRead_of_idle hb, step_regWrite⟩⟩
  · rw [lookup_assign, if_neg hx]
  · rw [lookup_assign_self]; rfl
  · rw [lookup_assign_self]; rfl
  · rw [lookup_assign, if_neg hx]
  · rw [lookup_assign_self]; rfl
  · rw [lookup_assign_self]; exact word_setWord _ _ _ _

/-! ### The live counts (R41, R52) -/

/-- How many entries of a table satisfy a test is how many symbols do. -/
theorem length_filter_entries {α : Type} (t : Vector α 256) (p : α → Bool) :
    ((entries t).filter fun q => p q.2).length
      = (Finset.univ.filter fun x : Symbol => p (lookup t x) = true).card := by
  rw [entries_eq_map_lookup, List.filter_map, List.length_map,
    ← List.toFinset_card_of_nodup (allSymbols_nodup.filter _)]
  congr 1
  ext x
  simp

theorem nsym_eq_card (s : State) :
    s.nsym = (Finset.univ.filter fun x : Symbol => lookup s.freq x ≠ 0).card := by
  rw [State.nsym, alphabet, length_filter_entries s.freq (· != 0)]
  simp

theorem ncode_eq_card (s : State) :
    s.ncode = (Finset.univ.filter fun x : Symbol => (lookup s.codes x).len ≠ 0).card := by
  rw [State.ncode, codedSymbols, length_filter_entries s.codes (·.len != 0)]
  simp

/-- A count of symbols loses nothing in 32 bits. -/
theorem toNat_ofNat_of_le_256 {n : Nat} (h : n ≤ 256) : (BitVec.ofNat 32 n).toNat = n :=
  (BitVec.toNat_ofNat n 32).trans (Nat.mod_eq_of_lt (by omega))

theorem toNat_readReg_nsym (s : State) : (readReg .nsym s).toNat = s.nsym :=
  toNat_ofNat_of_le_256 (length_alphabet_le _)

theorem toNat_readReg_ncode (s : State) : (readReg .ncode s).toNat = s.ncode :=
  toNat_ofNat_of_le_256 (length_codedSymbols_le _)

/-- Settles O20: the alphabet and the coded symbols list each symbol of their sets once. -/
theorem liveCountsCountTheTables : Obligations.LiveCountsCountTheTables := by
  refine ⟨fun s => ?_, ?_, ?_⟩
  · rw [toNat_readReg_nsym, toNat_readReg_ncode]
    exact ⟨nsym_eq_card s, length_alphabet_le _, ncode_eq_card s, length_codedSymbols_le _⟩
  · rw [readReg, nsym_eq_zero rfl]; rfl
  · rw [readReg, ncode_eq_zero rfl]; rfl

/-! ### The node windows (R44, R47 to R49) -/

theorem toNat_append_eq_add {n m : Nat} (x : BitVec n) (y : BitVec m) :
    (x ++ y).toNat = 2 ^ m * x.toNat + y.toNat := by
  rw [BitVec.toNat_append, ← Nat.shiftLeft_add_eq_or_of_lt y.isLt, Nat.shiftLeft_eq, Nat.mul_comm]

theorem toNat_nodeInfoWord (nd : Node) :
    (nodeInfoWord nd).toNat = 256 * nd.sym.toNat + (if nd.kind = .internal then 2 else 0) + 1 := by
  rw [nodeInfoWord]
  repeat rw [toNat_append_eq_add]
  by_cases h : nd.kind = .internal
  · simp [h, bit]; omega
  · simp [h, bit]; omega

theorem toNat_nodeChildWord (nd : Node) :
    (nodeChildWord nd).toNat = 65536 * nd.right.toNat + nd.left.toNat := by
  rw [nodeChildWord]
  repeat rw [toNat_append_eq_add]
  simp; omega

theorem toNat_readReg_nodeCount (s : State) : (readReg .nodeCount s).toNat = s.nodeCountReg.toNat :=
  BitVec.toNat_setWidth_of_le (by decide)

theorem toNat_readReg_root (s : State) : (readReg .root s).toNat = s.rootReg.toNat :=
  BitVec.toNat_setWidth_of_le (by decide)

/-- Settles O21: the windows show the selected record, and there is one below NODE_COUNT. -/
theorem nodeWindowsShowTheArena : Obligations.NodeWindowsShowTheArena := by
  intro s
  rw [toNat_readReg_nodeCount, toNat_readReg_root]
  refine ⟨apply_ite BitVec.toNat _ _ _, apply_ite BitVec.toNat _ _ _, fun hlt => ?_, fun hle => ?_⟩
  · have hsel : s.selectedNode = some (nodeAt s.arena s.nodeSel.toNat) := if_pos hlt
    rw [readReg, readReg, readReg, hsel]
    exact ⟨toNat_nodeInfoWord _, rfl, toNat_nodeChildWord _⟩
  · have hsel : s.selectedNode = none := if_neg (Nat.not_lt.2 hle)
    simp [readReg, hsel]

/-! ### Reads while busy (R35, R37 to R39, R57) -/

theorem readReg_pad (s : State) : readReg .pad s = 0#29 ++ s.pad :=
  BitVec.setWidth_eq_append (by decide)

/-- Settles O22: BUSY = 0 gives every register its value; BUSY = 1 all but those of R57's list. -/
theorem readsAreDefinedUnlessBusy : Obligations.ReadsAreDefinedUnlessBusy := by
  refine ⟨fun s r v rest h => ⟨fun hb => step_regRead_of_idle hb h, fun hb => ?_⟩,
    fun s => ⟨rfl, rfl, rfl, ?_, ?_⟩⟩
  · cases r with
    | outLen | pad | errInfo | nsym | ncode | root | nodeCount | fqData | nodeInfo | nodeWeight
    | nodeChild | ctLen | ctBits k => exact step_regRead_of_free hb rfl h
    | id | version | ctrl | status | cmd | srcAddr | srcLen | dstAddr | dstCap | fqSel | nodeSel
    | ctSel | reserved k => exact step_regRead_of_not_free rfl h
  · rw [readReg_pad]; exact BitVec.extractLsb'_append_eq_right
  · rw [readReg_pad]; exact BitVec.extractLsb'_append_eq_left

/-! ### How a command ends (R124, R221)

A command fails, and then only its STATUS changes; or it succeeds on a state that holds its results. No
result is a control register, so both endings keep the controls. -/

section
variable {s t : State} {e : CmdError}

theorem sourceError_code_ne (h : s.sourceError = some e) : e.code ≠ .noError := by
  rcases sourceError_cases s with h' | h' <;> rw [h'] at h <;> cases h
  simp

theorem bufferError_code_ne (h : s.bufferError = some e) : e.code ≠ .noError := by
  rcases bufferError_cases s with h' | h' | h' | h' <;> rw [h'] at h <;> cases h <;> simp

theorem buildTree_code_ne {f : FreqTable} (h : buildTree f = .error e) : e.code ≠ .noError := by
  rcases buildTree_cases f with ⟨-, h'⟩ | ⟨-, -, h'⟩ | ⟨-, -, h'⟩ <;> rw [h'] at h <;> cases h <;> simp

theorem packWith_code_ne {ct : CodeTable} {bytes : List Byte} {cap : Word}
    (h : packWith ct bytes cap = .error e) : e.code ≠ .noError := by
  rcases packWith_cases ct bytes cap with ⟨i, -, h'⟩ | ⟨-, -, h'⟩ | ⟨-, -, h'⟩ <;>
    rw [h'] at h <;> cases h <;> simp

theorem unpackWith_code_ne {ct : CodeTable} {p : Byte} {body : List Byte} {cap : Word}
    (h : unpackWith ct p body cap = .error e) : e.code ≠ .noError := by
  unfold unpackWith at h
  simp only at h
  split at h
  · cases h; simp
  · split at h
    · cases h; simp
    · split at h
      · cases h; simp
      · split at h <;> cases h
        simp

theorem compressWith_code_ne {bytes : List Byte} {cap : Word}
    (h : compressWith bytes cap = .error e) : e.code ≠ .noError := by
  rcases compressWith_cases bytes cap with ⟨e', hb, h'⟩ | ⟨tr, e', -, hp, h'⟩ | ⟨tr, out, p, -, -, h'⟩
  · rw [h'] at h; cases h; exact buildTree_code_ne hb
  · rw [h'] at h; cases h; exact packWith_code_ne hp
  · rw [h'] at h; cases h

/-- How a command that ran in `s` ended in `t`: with an error and nothing else, or with results that
touch neither the controls nor the HOST. -/
inductive EndsFrom (s : State) : State → Prop where
  | failed (e : CmdError) (he : e.code ≠ .noError) : EndsFrom s (s.finish e.code e.info)
  | succeeded (u : State) (hkeep : KeepsControls s u ∧ KeepsHost s u) :
    EndsFrom s (u.finish .noError 0)

theorem exec_endsFrom {i : Instr} (h : exec i s = .next t) : EndsFrom s t := by
  cases i with
  | nop => cases h; exact .succeeded s (by simp [KeepsControls, KeepsHost])
  | clear => cases h; exact .succeeded _ (by simp [KeepsControls, KeepsHost])
  | analyze =>
    rcases execAnalyze_cases h with ⟨e, he, rfl⟩ | ⟨-, rfl⟩
    · exact .failed e (sourceError_code_ne he)
    · exact .succeeded _ (by simp [KeepsControls, KeepsHost])
  | buildTree =>
    rcases execBuildTree_cases h with ⟨e, he, rfl⟩ | ⟨tr, -, rfl⟩
    · exact .failed e (buildTree_code_ne he)
    · exact .succeeded _ (by simp [KeepsControls, KeepsHost])
  | genCodes =>
    rcases execGenCodes_cases h with ⟨-, rfl⟩ | ⟨-, rfl⟩
    · exact .failed { code := .noTree, info := 0 } (by simp)
    · exact .succeeded _ (by simp [KeepsControls, KeepsHost])
  | pack =>
    rcases execPack_cases h with ⟨e, he, rfl⟩ | ⟨-, -, rfl⟩ | ⟨-, -, e, he, rfl⟩
      | ⟨-, -, out, p, -, rfl⟩
    · exact .failed e (bufferError_code_ne he)
    · exact .succeeded _ (by simp [KeepsControls, KeepsHost])
    · exact .failed e (packWith_code_ne he)
    · exact .succeeded _ (by simp [KeepsControls, KeepsHost])
  | unpack =>
    rcases execUnpack_cases h with ⟨e, he, rfl⟩ | ⟨-, -, rfl⟩ | ⟨-, b, body, e, -, he, rfl⟩
      | ⟨-, b, body, out, p, -, -, rfl⟩
    · exact .failed e (bufferError_code_ne he)
    · exact .succeeded _ (by simp [KeepsControls, KeepsHost])
    · exact .failed e (unpackWith_code_ne he)
    · exact .succeeded _ (by simp [KeepsControls, KeepsHost])
  | compress =>
    rcases execCompress_cases h with ⟨e, he, rfl⟩ | ⟨-, -, rfl⟩ | ⟨-, -, e, he, rfl⟩
      | ⟨-, -, r, -, rfl⟩
    · exact .failed e (bufferError_code_ne he)
    · exact .succeeded _ (by simp [KeepsControls, KeepsHost])
    · exact .failed e (compressWith_code_ne he)
    · exact .succeeded _ (by simp [KeepsControls, KeepsHost])

/-! ### The interrupt output (R59, R225) -/

/-- A completion sets DONE, so IRQ is what enables it. -/
@[simp] theorem State.irq_finish (s : State) (c : ErrCode) (i : Word) :
    (s.finish c i).irq = s.irqEn := by
  simp [State.irq]

theorem exec_irq {i : Instr} (h : exec i s = .next t) : t.irq = s.irqEn := by
  cases exec_endsFrom h with
  | failed e _ => simp
  | succeeded u hkeep =>
    obtain ⟨⟨hirqEn, -⟩, -⟩ := hkeep
    rw [State.irq_finish, hirqEn]

/-- The ENGINE's turn while BUSY = 1 completes the accepted word, legal or not. -/
theorem engineTurn_irq (hb : s.busy = true) (h : engineTurn s = .next t) : t.irq = s.irqEn := by
  rcases engineTurn_cases h with ⟨hp, -⟩ | ⟨w, v, -, -, rfl⟩ | ⟨w, i, -, -, hx⟩
  · simp [State.busy, hp] at hb
  · simp
  · exact exec_irq hx

end

/-- Settles O23: a completion sets DONE and keeps IRQ_EN; the two host writes clear DONE. -/
theorem irqFollowsCompletion : Obligations.IrqFollowsCompletion := by
  refine ⟨fun i s t h => exec_irq h, fun s t hturn hb h => ?_, fun s w hw => ?_, fun s w hb => ?_,
    fun s hen => ?_, rfl⟩
  · rw [step_engine hturn] at h
    exact engineTurn_irq (s := s.dropTurn) hb h
  · rw [writeReg_of_unlocked rfl]
    simp [storeReg, State.irq, hw]
  · rw [writeReg_of_idle hb]
    simp [storeReg, State.irq, hb]
  · simp [State.irq, hen]

/-! ### TREE_VALID (R33) -/

section
variable {s t : State}

theorem execBuildTree_treeValid (h : execBuildTree s = .next t) :
    t.treeValid = if t.err = .noError then true else s.treeValid := by
  rcases execBuildTree_cases h with ⟨e, he, rfl⟩ | ⟨tr, -, rfl⟩
  · simp [buildTree_code_ne he]
  · simp

theorem execCompress_treeValid (h : execCompress s = .next t) :
    t.treeValid = if t.err = .noError then s.srcLen != 0 else s.treeValid := by
  rcases execCompress_cases h with ⟨e, he, rfl⟩ | ⟨-, h0, rfl⟩ | ⟨-, -, e, he, rfl⟩
    | ⟨-, h0, r, -, rfl⟩
  · simp [bufferError_code_ne he]
  · simp [h0]
  · simp [compressWith_code_ne he]
  · simpa using h0

/-- The five commands that R33 does not name leave TREE_VALID alone. -/
theorem exec_treeValid {i : Instr} (hi : i ∉ [Instr.clear, .buildTree, .compress])
    (h : exec i s = .next t) : t.treeValid = s.treeValid := by
  cases i with
  | nop => cases h; simp
  | clear | buildTree | compress => simp at hi
  | analyze => rcases execAnalyze_cases h with ⟨e, -, rfl⟩ | ⟨-, rfl⟩ <;> simp
  | genCodes => rcases execGenCodes_cases h with ⟨-, rfl⟩ | ⟨-, rfl⟩ <;> simp
  | pack =>
    rcases execPack_cases h with ⟨e, -, rfl⟩ | ⟨-, -, rfl⟩ | ⟨-, -, e, -, rfl⟩
      | ⟨-, -, out, p, -, rfl⟩ <;> simp
  | unpack =>
    rcases execUnpack_cases h with ⟨e, -, rfl⟩ | ⟨-, -, rfl⟩ | ⟨-, b, body, e, -, -, rfl⟩
      | ⟨-, b, body, out, p, -, -, rfl⟩ <;> simp

theorem hostAccess_treeValid {a : HostAccess} (h : hostAccess a s = .next t) :
    t.treeValid = s.treeValid := by
  rcases hostAccess_cases h with ⟨n, v, rfl⟩ | ⟨n, rfl⟩ | ⟨n, rfl⟩ | ⟨r, v, rfl⟩ | ⟨x, v, -, -, rfl⟩
  · simp
  · simp
  · simp
  · obtain ⟨-, -, -, hvalid, -⟩ := writeReg_frame r v s
    exact hvalid
  · rfl

theorem hostPoll_treeValid {rest : List HostOp} (h : hostPoll rest s = .next t) :
    t.treeValid = s.treeValid := by
  unfold hostPoll at h
  split at h <;> cases h <;> simp

theorem hostTurn_treeValid (h : hostTurn s = .next t) : t.treeValid = s.treeValid := by
  rcases hostTurn_cases h with ⟨-, rfl⟩ | ⟨a, rest, -, ha⟩ | ⟨rest, -, hp⟩
  · rfl
  · exact hostAccess_treeValid (s := s.setProg rest) ha
  · exact hostPoll_treeValid hp

/-- The ENGINE's turn by the command that runs: without one, it is idle or reports an illegal word. -/
theorem engineTurn_running (h : engineTurn s = .next t) :
    (s.running = none ∧ (t = s ∨ ∃ v, t = s.finish .illegalCmd v))
    ∨ ∃ i, s.running = some i ∧ exec i s = .next t := by
  rcases engineTurn_cases h with ⟨hp, rfl⟩ | ⟨w, v, hp, hd, rfl⟩ | ⟨w, i, hp, hd, hx⟩
  · exact .inl ⟨by simp [State.running, hp], .inl rfl⟩
  · exact .inl ⟨by simp [State.running, hp, hd, Decoded.command?], .inr ⟨v, rfl⟩⟩
  · exact .inr ⟨i, by simp [State.running, hp, hd, Decoded.command?], hx⟩

end

/-- Settles O31, by the turn that the step takes and, for the ENGINE's, by the command that runs. -/
theorem treeValidChangesOnlyAsNamed : Obligations.TreeValidChangesOnlyAsNamed := by
  intro s t h
  cases hturn : s.nextTurn with
  | reset =>
    rw [step_reset hturn] at h
    cases h
    rfl
  | host =>
    rw [step_host hturn] at h
    exact hostTurn_treeValid (s := s.dropTurn) h
  | engine =>
    rw [step_engine hturn] at h
    rcases engineTurn_running h with ⟨hrun, ht⟩ | ⟨i, hrun, hx⟩
    · rw [show s.running = none from hrun]
      rcases ht with rfl | ⟨v, rfl⟩ <;> rfl
    · rw [show s.running = some i from hrun]
      cases i with
      | clear => cases hx; rfl
      | buildTree => exact execBuildTree_treeValid (s := s.dropTurn) hx
      | compress => exact execCompress_treeValid (s := s.dropTurn) hx
      | nop | analyze | genCodes | pack | unpack =>
        exact exec_treeValid (s := s.dropTurn) (by decide) hx

end Sys2Proof.Machine

/-! # Memory and the two agents: O24 and O26 to O29

The HOST's side is one rule per access: what is admitted, and what it then does. While BUSY = 1 none of
them reaches an operand of the running command. The ENGINE's side is one fact per command that delivers
output: the bytes it writes fit the destination range and are counted by OUT_LEN. -/

namespace Sys2Proof.Machine

/-! ### Register accesses that are admitted (R85) -/

section
variable {s : State} {width : Nat} {off : BitVec 8} {a : HostAccess}

theorem regAccessWf_iff : regAccessWf width off = true ↔ width = 32 ∧ off.toNat % 4 = 0 := by
  simp [regAccessWf]

theorem hostRegAccess_of_not_wf (ha : (∃ v, a = .regRead width off v) ∨ ∃ w, a = .regWrite width off w)
    (hwf : ¬ regAccessWf width off = true) : hostAccess a s = .fault .badRegAccess := by
  rcases ha with ⟨v, rfl⟩ | ⟨w, rfl⟩
  · exact if_neg hwf
  · exact if_neg hwf

theorem hostRegAccess_of_wf (ha : (∃ v, a = .regRead width off v) ∨ ∃ w, a = .regWrite width off w)
    (hwf : regAccessWf width off = true) : ∃ t, hostAccess a s = .next t := by
  rcases ha with ⟨v, rfl⟩ | ⟨w, rfl⟩
  · rw [hostAccess, hostRegRead, if_pos hwf]
    simp only
    split
    · exact ⟨_, rfl⟩
    · exact ⟨_, rfl⟩
  · exact ⟨_, if_pos hwf⟩

end

/-- Settles O24: the fault is decided by the form of the access alone, in every state. -/
theorem badRegisterAccessFaults : Obligations.BadRegisterAccessFaults := by
  intro s width off rest a ha h
  rw [step_access h]
  exact ⟨fun hbad => hostRegAccess_of_not_wf ha (mt regAccessWf_iff.1 (not_and_or.2 hbad)),
    fun hwidth halign => hostRegAccess_of_wf ha (regAccessWf_iff.2 ⟨hwidth, halign⟩)⟩

/-! ### The active ranges and the HOST's DMEM accesses (R88, R99) -/

theorem inRange_iff {a n : Word} {x : Nat} :
    inRange a n x = true ↔ a.toNat ≤ x ∧ x < a.toNat + n.toNat := by
  simp [inRange]

theorem any_usesSource_iff (c : Option Instr) : c.any usesSource = true
    ↔ c ∈ [some Instr.analyze, some .pack, some .unpack, some .compress] := by
  cases c with
  | none => decide
  | some i => cases i <;> decide

theorem any_usesDestination_iff (c : Option Instr) : c.any usesDestination = true
    ↔ c ∈ [some Instr.pack, some .unpack, some .compress] := by
  cases c with
  | none => decide
  | some i => cases i <;> decide

theorem State.inActiveSource_iff (s : State) (x : Nat) : s.inActiveSource x = true
    ↔ s.running ∈ [some Instr.analyze, some .pack, some .unpack, some .compress]
      ∧ s.srcAddr.toNat ≤ x ∧ x < s.srcAddr.toNat + s.srcLen.toNat := by
  rw [State.inActiveSource, Bool.and_eq_true, any_usesSource_iff, inRange_iff]

theorem State.inActiveDestination_iff (s : State) (x : Nat) : s.inActiveDestination x = true
    ↔ s.running ∈ [some Instr.pack, some .unpack, some .compress]
      ∧ s.dstAddr.toNat ≤ x ∧ x < s.dstAddr.toNat + s.dstCap.toNat := by
  rw [State.inActiveDestination, Bool.and_eq_true, any_usesDestination_iff, inRange_iff]

section
variable {s : State} {x n : Nat} {v : Byte}

theorem hostMemWrite_of_active (hx : x < s.dmemSize)
    (h : s.inActiveSource x = true ∨ s.inActiveDestination x = true) :
    hostMemWrite x v s = .fault .hostRangeConflict := by
  have hactive : s.inActiveRange x = true := Bool.or_eq_true_iff.2 h
  rw [hostMemWrite, if_pos hx, if_pos hactive]

theorem hostMemWrite_of_inactive (hx : x < s.dmemSize) (hsrc : s.inActiveSource x = false)
    (hdst : s.inActiveDestination x = false) :
    hostMemWrite x v s = .next { s with dmem := Memory.write s.dmem x v } := by
  have hactive : ¬ s.inActiveRange x = true := by simp [State.inActiveRange, hsrc, hdst]
  rw [hostMemWrite, if_pos hx, if_neg hactive]

theorem hostMemRead_of_destination (hx : x < s.dmemSize) (h : s.inActiveDestination x = true) :
    hostMemRead x n s = .next (s.recordFreeByte n) := by
  rw [hostMemRead, if_pos hx, if_pos h]

theorem hostMemRead_of_not_destination (hx : x < s.dmemSize) (h : s.inActiveDestination x = false) :
    hostMemRead x n s = .next (s.record n ((Memory.read s.dmem x).setWidth 32)) := by
  rw [hostMemRead, if_pos hx, if_neg (Bool.eq_false_iff.1 h)]

end

/-- Settles O26: using up the HOST's turn moves no active range, so each access is its own rule. -/
theorem hostDmemAccessesRespectActiveRanges : Obligations.HostDmemAccessesRespectActiveRanges := by
  intro s a rest ha
  refine ⟨s.inActiveSource_iff a, s.inActiveDestination_iff a, fun b h => ?_, fun v h => ?_⟩
  · rw [step_access h]
    exact ⟨hostMemWrite_of_active (s := s.afterHost rest) ha,
      hostMemWrite_of_inactive (s := s.afterHost rest) ha⟩
  · rw [step_access h]
    exact ⟨hostMemRead_of_destination (s := s.afterHost rest) ha,
      hostMemRead_of_not_destination (s := s.afterHost rest) ha⟩

/-! ### What a running command reads (R97) -/

/-- What the command that runs in `s` reads is the same in `t`: PENDING, the buffer registers, the tables,
the tree, and the bytes of its active ranges. -/
def KeepsOperands (s t : State) : Prop :=
  t.pending = s.pending ∧ t.srcAddr = s.srcAddr ∧ t.srcLen = s.srcLen ∧ t.dstAddr = s.dstAddr
    ∧ t.dstCap = s.dstCap ∧ t.freq = s.freq ∧ t.codes = s.codes ∧ KeepsTree s t
    ∧ ∀ a, s.inActiveRange a = true → Memory.read t.dmem a = Memory.read s.dmem a

section
variable {s t : State}

/-- The operands of a state are its own. As they are named field by field, this is the statement too for
an update of any other field. -/
theorem KeepsOperands.refl (s : State) : KeepsOperands s s :=
  ⟨rfl, rfl, rfl, rfl, rfl, rfl, rfl, ⟨rfl, rfl, rfl, rfl⟩, fun _ _ => rfl⟩

/-- While BUSY = 1 the registers that hold operands are locked, and a write to CMD is dropped (R56, R122). -/
theorem writeReg_keepsOperands (hb : s.busy = true) (r : RegName) (v : Word) :
    KeepsOperands s (writeReg r v s) := by
  cases hr : busyLocked r with
  | true => rw [writeReg_of_locked hb hr]; exact .refl s
  | false =>
    rw [writeReg_of_unlocked hr]
    cases r with
    | srcAddr | srcLen | dstAddr | dstCap | fqData | ctLen | ctBits k => cases hr
    | cmd => rw [storeReg, if_pos hb]; exact .refl s
    | id | version | ctrl | status | outLen | pad | errInfo | nsym | ncode | root | nodeCount | fqSel
    | nodeSel | nodeInfo | nodeWeight | nodeChild | ctSel | reserved k => exact .refl s

/-- A byte written outside the active ranges is no operand (R99). -/
theorem writeByte_keepsOperands {x : Nat} (v : Byte) (hx : s.inActiveRange x = false) :
    KeepsOperands s { s with dmem := Memory.write s.dmem x v } := by
  refine ⟨rfl, rfl, rfl, rfl, rfl, rfl, rfl, ⟨rfl, rfl, rfl, rfl⟩, fun a ha => ?_⟩
  have hne : a ≠ x := by rintro rfl; exact Bool.false_ne_true (hx.symm.trans ha)
  exact Memory.read_write_of_ne v hne

theorem hostAccess_keepsOperands {a : HostAccess} (hb : s.busy = true)
    (h : hostAccess a s = .next t) : KeepsOperands s t := by
  rcases hostAccess_cases h with ⟨n, v, rfl⟩ | ⟨n, rfl⟩ | ⟨n, rfl⟩ | ⟨r, v, rfl⟩ | ⟨x, v, -, hx, rfl⟩
  · exact .refl s
  · exact .refl s
  · exact .refl s
  · exact writeReg_keepsOperands hb r v
  · exact writeByte_keepsOperands v hx

/-- A poll records the STATUS word, and the program moves on or stays (R107). -/
theorem hostPoll_cases {rest : List HostOp} (h : hostPoll rest s = .next t) :
    t = s.record waitVar s.statusWord ∨ t = (s.record waitVar s.statusWord).setProg rest := by
  unfold hostPoll at h
  split at h
  · cases h; exact .inl rfl
  · cases h; exact .inr rfl

theorem hostTurn_keepsOperands (hb : s.busy = true) (h : hostTurn s = .next t) :
    KeepsOperands s t := by
  rcases hostTurn_cases h with ⟨-, rfl⟩ | ⟨a, rest, -, ha⟩ | ⟨rest, -, hp⟩
  · exact .refl t
  · exact hostAccess_keepsOperands (s := s.setProg rest) hb ha
  · rcases hostPoll_cases hp with rfl | rfl
    · exact .refl s
    · exact .refl s

end

/-- Settles O27, by what the HOST does in its turn. -/
theorem operandsHoldWhileBusy : Obligations.OperandsHoldWhileBusy := by
  intro s t hturn hb h
  rw [step_host hturn] at h
  exact hostTurn_keepsOperands (s := s.dropTurn) hb h

/-! ### The range formulas (R86, R87) -/

section
variable {size : Nat} {a n b m : Word}

theorem rangeValid_iff : rangeValid size a n = true ↔ RangeOk size a n := by
  simp [rangeValid, RangeOk]

/-- A range that is not empty is valid when its last byte exists. -/
theorem rangeValid_iff_bytes_exist :
    rangeValid size a n = true ↔ ∀ x, inRange a n x = true → x < size := by
  refine ⟨fun h x hx => ?_, fun h => rangeValid_iff.2 ?_⟩
  · obtain ⟨hge, hlt⟩ := inRange_iff.1 hx
    exact lt_size_of_rangeValid h hge hlt
  · by_cases hn : n = 0
    · exact .inl hn
    · have hpos : 0 < n.toNat := by bv_omega
      have hlast := h (a.toNat + n.toNat - 1) (inRange_iff.2 ⟨by omega, by omega⟩)
      exact .inr (by omega)

theorem rangesOverlap_iff : rangesOverlap a n b m = true
    ↔ n ≠ 0 ∧ m ≠ 0 ∧ a.toNat < b.toNat + m.toNat ∧ b.toNat < a.toNat + n.toNat := by
  simp [rangesOverlap, and_assoc]

/-- Two ranges that meet share the larger of their first addresses. -/
theorem rangesOverlap_iff_meet : rangesOverlap a n b m = true ↔ RangesMeet a n b m := by
  rw [rangesOverlap_iff]
  constructor
  · rintro ⟨hn, hm, hab, hba⟩
    have hnpos : 0 < n.toNat := by bv_omega
    have hmpos : 0 < m.toNat := by bv_omega
    exact ⟨max a.toNat b.toNat, by omega, by omega⟩
  · rintro ⟨x, ⟨hax, hxn⟩, hbx, hxm⟩
    refine ⟨?_, ?_, by omega, by omega⟩
    · rintro rfl; simp at hxn; omega
    · rintro rfl; simp at hxm; omega

end

/-- Settles O28: the last byte of a range, and the larger first address of two, are the bytes that decide. -/
theorem rangeFormulasMatchTheirBytes : Obligations.RangeFormulasMatchTheirBytes :=
  ⟨fun _ _ _ => ⟨rangeValid_iff, rangeValid_iff_bytes_exist⟩, fun _ _ _ _ => rangesOverlap_iff_meet⟩

/-! ### The write footprint (R88, R89) -/

/-- `t` holds the output `out` of a command that ran in `s`: it fits, OUT_LEN is its length, and DMEM
differs by it alone. -/
structure HoldsOutput (s t : State) (out : List Byte) : Prop where
  fits : out.length ≤ s.dstCap.toNat
  outLen_eq : t.outLen = BitVec.ofNat 32 out.length
  dmem_eq : t.dmem = Memory.writeRange s.dmem s.dstAddr.toNat out

section
variable {s t : State} {out : List Byte}

/-- The length of an output that fits a 32-bit capacity is what OUT_LEN holds. -/
theorem HoldsOutput.toNat_outLen (h : HoldsOutput s t out) : t.outLen.toNat = out.length := by
  have hfits := h.fits
  rw [h.outLen_eq, BitVec.toNat_ofNat, Nat.mod_eq_of_lt (by omega)]

theorem HoldsOutput.footprint (h : HoldsOutput s t out) : t.outLen.toNat ≤ s.dstCap.toNat
    ∧ KeepsMemoryOutside s.dstAddr.toNat t.outLen.toNat s t := by
  rw [h.toNat_outLen]
  refine ⟨h.fits, fun x hx => ?_⟩
  rw [h.dmem_eq, Memory.read_writeRange_of_outside hx]

theorem holdsOutput_nil (hlen : t.outLen = 0) (hdmem : t.dmem = s.dmem) : HoldsOutput s t [] :=
  ⟨Nat.zero_le _, hlen, hdmem⟩

theorem execPack_output (h : execPack s = .next t) (herr : t.err = .noError) :
    ∃ out, HoldsOutput s t out := by
  rcases execPack_cases h with ⟨e, he, rfl⟩ | ⟨-, -, rfl⟩ | ⟨-, -, e, he, rfl⟩ | ⟨-, -, out, p, hp, rfl⟩
  · exact absurd herr (bufferError_code_ne he)
  · exact ⟨[], holdsOutput_nil rfl rfl⟩
  · exact absurd herr (packWith_code_ne he)
  · exact ⟨out, length_le_of_packWith hp, rfl, rfl⟩

theorem execUnpack_output (h : execUnpack s = .next t) (herr : t.err = .noError) :
    ∃ out, HoldsOutput s t out := by
  rcases execUnpack_cases h with ⟨e, he, rfl⟩ | ⟨-, -, rfl⟩ | ⟨-, b, body, e, -, he, rfl⟩
    | ⟨-, b, body, out, p, -, hu, rfl⟩
  · exact absurd herr (bufferError_code_ne he)
  · exact ⟨[], holdsOutput_nil rfl rfl⟩
  · exact absurd herr (unpackWith_code_ne he)
  · exact ⟨out, length_le_of_unpackWith hu, rfl, rfl⟩

theorem execCompress_output (h : execCompress s = .next t) (herr : t.err = .noError) :
    ∃ out, HoldsOutput s t out := by
  rcases execCompress_cases h with ⟨e, he, rfl⟩ | ⟨-, -, rfl⟩ | ⟨-, -, e, he, rfl⟩ | ⟨-, -, r, hr, rfl⟩
  · exact absurd herr (bufferError_code_ne he)
  · exact ⟨[], holdsOutput_nil rfl rfl⟩
  · exact absurd herr (compressWith_code_ne he)
  · obtain ⟨-, hfits⟩ := compressWith_ok hr
    exact ⟨r.out, hfits, rfl, rfl⟩

theorem exec_output {i : Instr} (hi : i ∈ [Instr.pack, .unpack, .compress]) (h : exec i s = .next t)
    (herr : t.err = .noError) : ∃ out, HoldsOutput s t out := by
  cases i with
  | pack => exact execPack_output h herr
  | unpack => exact execUnpack_output h herr
  | compress => exact execCompress_output h herr
  | nop | clear | analyze | buildTree | genCodes => simp at hi

/-- A command that fails writes no byte (R221). -/
theorem exec_dmem_of_failed {i : Instr} (h : exec i s = .next t) (herr : t.err ≠ .noError) :
    t.dmem = s.dmem := by
  cases exec_endsFrom h with
  | failed e _ => rfl
  | succeeded u _ => exact absurd rfl herr

/-- The five commands without a destination range write no byte (R88). -/
theorem exec_dmem_of_no_destination {i : Instr} (hi : i ∉ [Instr.pack, .unpack, .compress])
    (h : exec i s = .next t) : t.dmem = s.dmem := by
  cases i with
  | nop => cases h; rfl
  | clear => cases h; rfl
  | analyze => rcases execAnalyze_cases h with ⟨e, -, rfl⟩ | ⟨-, rfl⟩ <;> rfl
  | buildTree => rcases execBuildTree_cases h with ⟨e, -, rfl⟩ | ⟨tr, -, rfl⟩ <;> rfl
  | genCodes => rcases execGenCodes_cases h with ⟨-, rfl⟩ | ⟨-, rfl⟩ <;> rfl
  | pack | unpack | compress => simp at hi

end

/-- Settles O29: success delivers an output that fits; failure, and any other command, delivers none. -/
theorem writeFootprintIsTheOutput : Obligations.WriteFootprintIsTheOutput := by
  refine fun i s t h => ⟨fun hi herr => ?_, fun hnone => ?_⟩
  · obtain ⟨out, hout⟩ := exec_output hi h herr
    exact hout.footprint
  · rcases hnone with hi | herr
    · exact exec_dmem_of_no_destination hi h
    · exact exec_dmem_of_failed h herr

end Sys2Proof.Machine

/-! # Encoding and the host statements: O1 to O3, O30, O58 and O59

The decoder is one fact: a word decodes to a command exactly when it is that command's encoding. A command
is one fact too: which of the named updates it may have made before it ended. A host statement is the list
of its accesses, and a run that has ended only uses up its schedule. -/

namespace Sys2Proof

/-! ### The decoder and the encoder (R100 to R106) -/

/-- A word is its two fields (R100). -/
theorem rsvField_append_opField (w : Word) : rsvField w ++ opField w = w :=
  BitVec.extractLsb'_append_extractLsb'_eq_extractLsb' (by decide) |>.trans
    BitVec.extractLsb'_eq_self

theorem Laws.Encoding.statement (i : Instr) : Laws.Encoding.Statement i := by
  cases i with
  | nop => exact Laws.Encoding.nop
  | clear => exact Laws.Encoding.clear
  | analyze => exact Laws.Encoding.analyze
  | buildTree => exact Laws.Encoding.buildTree
  | genCodes => exact Laws.Encoding.genCodes
  | pack => exact Laws.Encoding.pack
  | unpack => exact Laws.Encoding.unpack
  | compress => exact Laws.Encoding.compress

/-- The fields of a command's word tell it from every other word (R103). -/
theorem eq_encode_iff {w : Word} {i : Instr} :
    w = encode i ↔ rsvField w = 0 ∧ opField w = opOf i := by
  obtain ⟨-, -, hrsv, hop⟩ := Laws.Encoding.statement i
  constructor
  · rintro rfl
    exact ⟨hrsv, hop⟩
  · rintro ⟨hr, ho⟩
    rw [← rsvField_append_opField w, hr, ho]
    rfl

theorem commandOfOp_eq_some_iff {op : BitVec 8} {i : Instr} :
    commandOfOp op = some i ↔ op = opOf i := by
  revert op
  cases i <;> decide

theorem commandOfOp_eq_none_iff : ∀ {op : BitVec 8}, commandOfOp op = none ↔ 8 ≤ op.toNat := by
  decide

/-- The decoder inverts the encoder, and no other word decodes to a command (R103, R106). -/
theorem decode_eq_command_iff {w : Word} {i : Instr} : decode w = .command i ↔ w = encode i := by
  rw [eq_encode_iff, ← commandOfOp_eq_some_iff, decode]
  split
  · next hrsv => cases hop : commandOfOp (opField w) <;> simp [hrsv]
  · next hrsv => exact iff_of_false Decoded.noConfusion fun h => hrsv h.1

theorem decode_encode (i : Instr) : decode (encode i) = .command i :=
  decode_eq_command_iff.2 rfl

/-- What an illegal word is (R104); it carries itself (R106). -/
theorem decode_eq_illegal_iff {w v : Word} :
    decode w = .illegal v ↔ v = w ∧ (rsvField w ≠ 0 ∨ 8 ≤ (opField w).toNat) := by
  rw [← commandOfOp_eq_none_iff, decode]
  split
  · next hrsv => cases hop : commandOfOp (opField w) <;> simp [hrsv, eq_comm]
  · next hrsv =>
    exact ⟨fun h => ⟨(Decoded.illegal.inj h).symm, .inl hrsv⟩, fun ⟨hv, _⟩ => hv ▸ rfl⟩

/-- Settles O1: the rows of the opcode map are the commands with their encodings. -/
theorem opcodeMapSelectsTheCommands : Obligations.OpcodeMapSelectsTheCommands := by
  intro w i
  rw [decode_eq_command_iff]
  cases i <;> simp [encode, opOf]

/-- Settles O2: both directions are one equivalence, so a word that is some command's encoding cannot
decode as illegal. -/
theorem decodeInvertsEncode : Obligations.DecodeInvertsEncode := by
  refine ⟨fun i => ?_, fun w i h => (decode_eq_command_iff.1 h).symm, fun w v h => ?_⟩
  · obtain ⟨hwf, -⟩ := Laws.Encoding.statement i
    exact ⟨hwf, decode_encode i⟩
  · refine ⟨(decode_eq_illegal_iff.1 h).1, ?_⟩
    rintro i rfl
    exact Decoded.noConfusion ((decode_encode i).symm.trans h)

end Sys2Proof

namespace Sys2Proof.Machine

/-! ### Illegal words (R104) -/

/-- A CMD write while BUSY = 0 is accepted, whatever the word is (R121). -/
theorem step_cmdWrite_of_idle {s : State} {w : Word} {rest : List HostOp} (hb : s.busy = false)
    (h : s.hostDoes (.access (.regWrite 32 RegName.cmd.offset w)) rest) :
    step s = .next ((s.afterHost rest).accept w) := by
  rw [step_regWrite_of_unlocked rfl h]
  exact congrArg _ (if_neg (Bool.eq_false_iff.1 hb))

theorem engineTurn_of_illegal {s : State} {w v : Word} (hp : s.pending = some w)
    (hd : decode w = .illegal v) : engineTurn s = .next (s.finish .illegalCmd v) := by
  simp [engineTurn, hp, hd, raise]

theorem State.busy_eq_false_iff {s : State} : s.busy = false ↔ s.pending = none := by
  simp [State.busy]

theorem State.busy_eq_true_iff {s : State} : s.busy = true ↔ s.pending ≠ none := by
  simp [State.busy, Option.isSome_iff_ne_none]

/-- Settles O3: the two writes are those of any word, and the ENGINE reports the word itself. -/
theorem illegalWordIsAcceptedAndReported : Obligations.IllegalWordIsAcceptedAndReported := by
  intro w hillegal
  refine ⟨fun s rest h => ⟨fun hp => ?_, fun hp => ?_⟩, fun s hturn hp => ?_⟩
  · exact step_cmdWrite_of_idle (State.busy_eq_false_iff.2 hp) h
  · exact step_cmdWrite_of_busy (State.busy_eq_true_iff.2 hp) h
  · rw [step_engine hturn]
    exact engineTurn_of_illegal hp (decode_eq_illegal_iff.2 ⟨rfl, hillegal⟩)

/-! ### What a command writes (R102) -/

/-- What a command that ran in `s` may have written when it ends: nothing, as when it fails, or its
results. -/
inductive Writes (s : State) : Instr → State → Prop where
  | nothing (i : Instr) : Writes s i s
  | cleared : Writes s .clear (s.clearTables.deliver [] 0)
  | counted (f : FreqTable) : Writes s .analyze (s.setFreq f)
  | built (tr : Tree) : Writes s .buildTree (s.storeTree tr)
  | coded (ct : CodeTable) : Writes s .genCodes (s.setCodes ct)
  | packed (out : List Byte) (p : BitVec 3) : Writes s .pack (s.deliver out p)
  | unpacked (out : List Byte) (p : BitVec 3) : Writes s .unpack (s.deliver out p)
  | emptied : Writes s .compress (s.clearTables.deliver [] 0)
  | compressed (r : Compressed) : Writes s .compress
      ((((s.setFreq r.freq).storeTree r.tree).setCodes r.codes).deliver r.out r.pad)

section
variable {s t u : State} {i : Instr}

theorem exec_writes (h : exec i s = .next t) : ∃ u e info, Writes s i u ∧ t = u.finish e info := by
  cases i with
  | nop => cases h; exact ⟨_, _, _, .nothing _, rfl⟩
  | clear => cases h; exact ⟨_, _, _, .cleared, rfl⟩
  | analyze =>
    rcases execAnalyze_cases h with ⟨e, -, rfl⟩ | ⟨-, rfl⟩
    · exact ⟨_, _, _, .nothing _, rfl⟩
    · exact ⟨_, _, _, .counted _, rfl⟩
  | buildTree =>
    rcases execBuildTree_cases h with ⟨e, -, rfl⟩ | ⟨tr, -, rfl⟩
    · exact ⟨_, _, _, .nothing _, rfl⟩
    · exact ⟨_, _, _, .built tr, rfl⟩
  | genCodes =>
    rcases execGenCodes_cases h with ⟨-, rfl⟩ | ⟨-, rfl⟩
    · exact ⟨_, _, _, .nothing _, rfl⟩
    · exact ⟨_, _, _, .coded _, rfl⟩
  | pack =>
    rcases execPack_cases h with ⟨e, -, rfl⟩ | ⟨-, -, rfl⟩ | ⟨-, -, e, -, rfl⟩
      | ⟨-, -, out, p, -, rfl⟩
    · exact ⟨_, _, _, .nothing _, rfl⟩
    · exact ⟨_, _, _, .packed [] 0, rfl⟩
    · exact ⟨_, _, _, .nothing _, rfl⟩
    · exact ⟨_, _, _, .packed out p, rfl⟩
  | unpack =>
    rcases execUnpack_cases h with ⟨e, -, rfl⟩ | ⟨-, -, rfl⟩ | ⟨-, b, body, e, -, -, rfl⟩
      | ⟨-, b, body, out, p, -, -, rfl⟩
    · exact ⟨_, _, _, .nothing _, rfl⟩
    · exact ⟨_, _, _, .unpacked [] 0, rfl⟩
    · exact ⟨_, _, _, .nothing _, rfl⟩
    · exact ⟨_, _, _, .unpacked out p, rfl⟩
  | compress =>
    rcases execCompress_cases h with ⟨e, -, rfl⟩ | ⟨-, -, rfl⟩ | ⟨-, -, e, -, rfl⟩
      | ⟨-, -, r, -, rfl⟩
    · exact ⟨_, _, _, .nothing _, rfl⟩
    · exact ⟨_, _, _, .emptied, rfl⟩
    · exact ⟨_, _, _, .nothing _, rfl⟩
    · exact ⟨_, _, _, .compressed r, rfl⟩

theorem exec_keepsControls_keepsHost (h : exec i s = .next t) : KeepsControls s t ∧ KeepsHost s t := by
  cases exec_endsFrom h with
  | failed e _ => simp [KeepsControls, KeepsHost]
  | succeeded u hkeep => exact hkeep

theorem Writes.freq (h : Writes s i u) (hi : i ∉ [Instr.clear, .analyze, .compress]) :
    u.freq = s.freq := by
  cases h with
  | cleared | counted | emptied | compressed => simp at hi
  | nothing | built | coded | packed | unpacked => rfl

theorem Writes.tree (h : Writes s i u) (hi : i ∉ [Instr.clear, .buildTree, .compress]) :
    KeepsTree s u := by
  cases h with
  | cleared | built | emptied | compressed => simp at hi
  | nothing | counted | coded | packed | unpacked => exact ⟨rfl, rfl, rfl, rfl⟩

theorem Writes.codes (h : Writes s i u) (hi : i ∉ [Instr.clear, .genCodes, .compress]) :
    u.codes = s.codes := by
  cases h with
  | cleared | coded | emptied | compressed => simp at hi
  | nothing | counted | built | packed | unpacked => rfl

theorem Writes.output (h : Writes s i u) (hi : i ∉ [Instr.clear, .pack, .unpack, .compress]) :
    KeepsOutput s u := by
  cases h with
  | cleared | packed | unpacked | emptied | compressed => simp at hi
  | nothing | counted | built | coded => exact ⟨rfl, rfl⟩

end

/-- Settles O30: completing a command adds none of its results, so what it wrote before decides. -/
theorem commandsWriteOnlyTheirResults : Obligations.CommandsWriteOnlyTheirResults := by
  intro i s t h
  obtain ⟨hcontrols, hhost⟩ := exec_keepsControls_keepsHost h
  obtain ⟨u, e, info, hu, ht⟩ := exec_writes h
  subst ht
  exact ⟨hcontrols, hhost, hu.freq, hu.tree, hu.codes, hu.output,
    fun hi a => congrArg (Memory.read · a) (exec_dmem_of_no_destination hi h)⟩

/-! ### Host statements (R107, R108) -/

theorem programOps_singleton (st : Stmt) : programOps [st] = st.ops := by
  simp [programOps]

@[simp] theorem programOps_cons (st : Stmt) (p : List Stmt) :
    programOps (st :: p) = st.ops ++ programOps p := rfl

@[simp] theorem programOps_append (p q : List Stmt) :
    programOps (p ++ q) = programOps p ++ programOps q :=
  List.flatMap_append

/-- A row of register writes is their accesses in order. -/
theorem programOps_map_wr (ks : List Nat) (r : Nat → RegName) (v : Nat → Word) :
    programOps (ks.map fun k => .wr (r k) (v k)) = ks.map fun k => wrOp (r k) (v k) := by
  induction ks with
  | nil => rfl
  | cons k ks ih => simpa [Stmt.ops] using ih

/-- A list with its positions is the positions with their elements. -/
theorem map_zipIdx_eq_map_range {α β : Type} (l : List α) (d : α) (f : α × Nat → β) :
    l.zipIdx.map f = (List.range l.length).map fun k => f (l[k]?.getD d, k) := by
  apply List.ext_getElem
  · simp
  · intro k hk hk'
    have hlt : k < l.length := by simpa using hk
    simp [hlt]

/-- SETCODE writes its words to CT_BITS0, CT_BITS1, and so on (R108). -/
theorem ops_setcode (sym : Symbol) (len w0 : Word) (more : List Word) :
    (Stmt.setcode sym len w0 more).ops = programOps ([.wr .ctSel (sym.setWidth 32)]
      ++ (List.range (more.length + 1)).map
          (fun k => .wr (.ctBits (BitVec.ofNat 3 k)) (((w0 :: more)[k]?).getD 0))
      ++ [.wr .ctLen len]) := by
  rw [programOps_append, programOps_append, programOps_map_wr, Stmt.ops,
    map_zipIdx_eq_map_range (w0 :: more) 0]
  rfl

theorem getElem?_ops_memw (a : Nat) (bytes : List Byte) (k : Nat) :
    (Stmt.memw a bytes).ops[k]? = (bytes[k]?).map fun b => .access (.memWrite (a + k) b) := by
  simp [Stmt.ops, Option.map_map, Function.comp_def]

theorem getElem?_ops_memr (a n t k : Nat) :
    (Stmt.memr a n t).ops[k]? = if k < n then some (.access (.memRead (a + k) t)) else none := by
  rw [Stmt.ops, List.getElem?_map]
  split
  · next h => rw [List.getElem?_range h]; rfl
  · next h => rw [List.getElem?_eq_none (by simpa using h)]; rfl

/-- Settles O58: a statement alone is its own accesses, and each row of R107 and R108 lists them. -/
theorem hostStatementsAreTheirAccesses : Obligations.HostStatementsAreTheirAccesses := by
  refine ⟨fun r v => rfl, fun r t => rfl, fun i => rfl, rfl, fun a bytes k => ?_, fun a n t k => ?_,
    programOps_append, fun i => rfl, fun a n b m => rfl, fun sym len w0 more _ => ?_,
    fun sym tL tw => rfl, fun sym n => rfl⟩
  · rw [programOps_singleton, getElem?_ops_memw]
  · rw [programOps_singleton, getElem?_ops_memr]
  · rw [programOps_singleton, ops_setcode]

/-! ### WAIT and the end of a run (R107, R128) -/

/-- One poll of WAIT: the STATUS word is logged, and BUSY decides whether the loop goes on. -/
theorem step_wait {s : State} {rest : List HostOp} (h : s.hostDoes .wait rest) :
    step s = .next { s.dropTurn with
      hostProg := if s.busy then .wait :: rest else rest
      hostLog := (waitVar, readReg .status s) :: s.hostLog } := by
  obtain ⟨hturn, hprog⟩ := h
  have hpoll : hostTurn s.dropTurn = hostPoll rest s.dropTurn := by
    rw [hostTurn, State.dropTurn_hostProg, hprog]
  have hbit : (s.dropTurn).statusWord.getLsbD 0 = s.busy := statusWord_bit0 _
  rw [step_host hturn, hpoll, hostPoll, hbit, ← hprog]
  cases s.busy <;> rfl

section
variable {s t : State}

theorem runProgram_of_ended (hp : s.hostProg = []) (hb : s.busy = false) (k : Nat) :
    runProgram k s = .ended (s.finalState []) := by
  have hend : s.runEnded = true := (runEnded_iff s).2 ⟨hp, hb⟩
  cases k with
  | zero => rw [runProgram, if_pos hend]
  | succ k => rw [runProgram, if_pos hend]

theorem not_runEnded (h : s.hostProg ≠ [] ∨ s.busy = true) : ¬ s.runEnded = true := by
  rw [runEnded_iff]
  rintro ⟨hp, hb⟩
  exact h.elim (absurd hp) fun hb' => Bool.false_ne_true (hb.symm.trans hb')

theorem runProgram_zero (h : ¬ s.runEnded = true) : runProgram 0 s = .running s := by
  rw [runProgram, if_neg h]

theorem runProgram_of_next (h : ¬ s.runEnded = true) (hs : step s = .next t) (k : Nat) :
    runProgram (k + 1) s = runProgram k t := by
  rw [runProgram, if_neg h, hs]

theorem runProgram_of_fault {f : Fault} (h : ¬ s.runEnded = true) (hs : step s = .fault f) (k : Nat) :
    runProgram (k + 1) s = .ended (s.finalState [f]) := by
  rw [runProgram, if_neg h, hs]

end

theorem mem_finalState_registers (s : State) (fs : List Fault) (r : RegName) (w : Word) :
    (r, w) ∈ (s.finalState fs).registers ↔ r.offset.toNat < 0x80 ∧ w = readReg r s := by
  rw [← mem_registerFile]
  constructor
  · intro h
    obtain ⟨r', hr', he⟩ := List.mem_map.1 h
    cases he
    exact ⟨hr', rfl⟩
  · rintro ⟨hr, rfl⟩
    exact List.mem_map.2 ⟨r, hr, rfl⟩

theorem length_finalState_nodes (s : State) (fs : List Fault) :
    (s.finalState fs).nodes.length = s.nodeCountReg.toNat := by
  simp [State.finalState]

theorem getElem?_finalState_nodes (s : State) (fs : List Fault) {i : Nat}
    (hi : i < s.nodeCountReg.toNat) : (s.finalState fs).nodes[i]? = some (nodeAt s.arena i) := by
  simp [State.finalState, hi]

/-- The schedule is no part of a final state (R128). -/
theorem finalState_dropTurn (s : State) (fs : List Fault) :
    (s.dropTurn).finalState fs = s.finalState fs := by
  have hread : ∀ r, readReg r s.dropTurn = readReg r s := fun r => by cases r <;> rfl
  simp only [State.finalState, hread]
  rfl

/-- Settles O59: the poll, the run by its end, the final state field by field, and that an idle turn
uses up the schedule alone. -/
theorem waitPollsUntilIdleThenTheRunEnds : Obligations.WaitPollsUntilIdleThenTheRunEnds := by
  refine ⟨fun s rest h => step_wait h, fun s k => ⟨fun hp hb => runProgram_of_ended hp hb k, fun h => ?_⟩,
    fun s fs => ?_, fun s t fs hp hb hturn h => ?_⟩
  · have hgoes := not_runEnded h
    exact ⟨runProgram_zero hgoes, fun t hs => runProgram_of_next hgoes hs k,
      fun f hs => runProgram_of_fault hgoes hs k⟩
  · rw [toNat_readReg_nodeCount]
    exact ⟨rfl, rfl, rfl, rfl, mem_finalState_registers s fs, length_finalState_nodes s fs,
      fun i hi => getElem?_finalState_nodes s fs hi⟩
  · cases step_of_runEnded hp hb hturn h
    exact ⟨hp, hb, finalState_dropTurn s fs⟩

end Sys2Proof.Machine

/-! # The life of a command: O7 to O9, O25 and O32

A command word is accepted or dropped by the HOST's write of CMD, and run by the ENGINE in one turn. Every
path of a command ends in `complete` or `raise`, so that turn always answers a next state; a step that does
not is a host access outside those that the block allows. -/

namespace Sys2Proof.Machine

/-! ### What stands in PENDING is what the ENGINE runs (R121 to R123) -/

section
variable {s : State} {w : Word} {i : Instr}

theorem engineTurn_of_command (hp : s.pending = some w) (hd : decode w = .command i) :
    engineTurn s = exec i s := by
  simp [engineTurn, hp, hd]

/-- A word of the opcode table's 32 bits is that word. -/
theorem tableWord_toNat (w : Word) : tableWord 32 w.toNat = w := by
  simp [tableWord]

end

/-- Settles O7: the two writes are those of the register CMD, at its own offset. -/
theorem cmdWriteIsAcceptedOrDropped : Obligations.CmdWriteIsAcceptedOrDropped :=
  fun _ _ _ h => ⟨fun hb => step_cmdWrite_of_idle hb h, fun hb => step_cmdWrite_of_busy hb h⟩

/-- Settles O8: using up a turn leaves PENDING, and a placed word is the command's own encoding. -/
theorem engineStepRunsTheDecodedCommand : Obligations.EngineStepRunsTheDecodedCommand := by
  refine ⟨fun s w i hturn hp hd => ?_, fun s i => ?_⟩
  · obtain ⟨hwf, -⟩ := Laws.Encoding.statement i
    rw [step_engine hturn]
    exact ⟨hwf, engineTurn_of_command (s := s.dropTurn) hp hd⟩
  · rw [State.withFetchWord, tableWord_toNat, step_engine (nextTurn_placeCommand s _),
      dropTurn_placeCommand]
    exact engineTurn_of_command rfl (decode_encode i)

/-- Settles O32: NOP is `complete` and nothing before it. -/
theorem nopCompletes : Obligations.NopCompletes :=
  execNop_eq

/-! ### Every command completes (R124, R125) -/

section
variable {s t : State}

/-- No command faults and none is refused: each branch of each meaning is a `complete` or a `raise`. -/
theorem exec_next (i : Instr) (s : State) : ∃ t, exec i s = .next t := by
  cases i with
  | nop => exact ⟨_, execNop_eq s⟩
  | clear => exact ⟨_, execClear_eq s⟩
  | analyze | buildTree | genCodes =>
    simp only [exec, execAnalyze, execBuildTree, execGenCodes]
    split <;> exact ⟨_, rfl⟩
  | pack | unpack | compress =>
    simp only [exec, execPack, execUnpack, execCompress]
    split
    · exact ⟨_, rfl⟩
    · split
      · exact ⟨_, rfl⟩
      · split <;> exact ⟨_, rfl⟩

@[simp] theorem State.busy_finish (s : State) (c : ErrCode) (i : Word) :
    (s.finish c i).busy = false := rfl

/-- A command that ended is no longer busy, and without an error it leaves no detail word (R124). -/
theorem EndsFrom.completed (h : EndsFrom s t) :
    t.busy = false ∧ t.done = true ∧ (t.err = .noError → t.errInfo = 0) := by
  cases h with
  | failed e he => simp [he]
  | succeeded u _ => simp

/-- The ENGINE's turn is enabled in every state (R125). -/
theorem engineTurn_next (s : State) : ∃ t, engineTurn s = .next t := by
  cases hp : s.pending with
  | none => exact ⟨s, by simp [engineTurn, hp]⟩
  | some w =>
    cases hd : decode w with
    | illegal v => exact ⟨_, engineTurn_of_illegal hp hd⟩
    | command i => rw [engineTurn_of_command hp hd]; exact exec_next i s

/-- The ENGINE's turn while BUSY = 1 completes the accepted word, legal or not. -/
theorem engineTurn_completes (hb : s.busy = true) (h : engineTurn s = .next t) :
    t.busy = false ∧ t.done = true := by
  rcases engineTurn_cases h with ⟨hp, -⟩ | ⟨w, v, -, -, rfl⟩ | ⟨w, i, -, -, hx⟩
  · exact absurd hp (State.busy_eq_true_iff.1 hb)
  · simp
  · obtain ⟨hbusy, hdone, -⟩ := (exec_endsFrom hx).completed
    exact ⟨hbusy, hdone⟩

end

/-- Settles O9: a command's turn answers a next state, which is one of its endings; PENDING is among the
operands that the HOST leaves alone. -/
theorem acceptedCommandsAlwaysComplete : Obligations.AcceptedCommandsAlwaysComplete := by
  refine ⟨fun i s => ?_, fun s hturn hb => ?_, fun s t hturn hb h => ?_⟩
  · obtain ⟨t, ht⟩ := exec_next i s
    exact ⟨t, ht, (exec_endsFrom ht).completed⟩
  · obtain ⟨t, ht⟩ := engineTurn_next s.dropTurn
    exact ⟨t, (step_engine hturn).trans ht, engineTurn_completes (s := s.dropTurn) hb ht⟩
  · obtain ⟨hpending, -⟩ := operandsHoldWhileBusy s t hturn hb h
    exact hpending

/-! ### The steps that fault (R81, R85, R99, R127) -/

section
variable {s : State} {a : HostAccess}

theorem hostAccess_of_admits (h : s.admits a = true) : ∃ t, hostAccess a s = .next t := by
  cases a with
  | regRead width off n => exact hostRegAccess_of_wf (.inl ⟨n, rfl⟩) h
  | regWrite width off v => exact hostRegAccess_of_wf (.inr ⟨v, rfl⟩) h
  | memRead x n =>
    have hx : x < s.dmemSize := of_decide_eq_true h
    cases hdst : s.inActiveDestination x with
    | true => exact ⟨_, hostMemRead_of_destination hx hdst⟩
    | false => exact ⟨_, hostMemRead_of_not_destination hx hdst⟩
  | memWrite x v =>
    obtain ⟨hx, hactive⟩ : x < s.dmemSize ∧ s.inActiveRange x = false := by
      simpa [State.admits] using h
    obtain ⟨hsrc, hdst⟩ := Bool.or_eq_false_iff.1 hactive
    exact ⟨_, hostMemWrite_of_inactive hx hsrc hdst⟩

theorem hostAccess_of_not_admits (h : s.admits a = false) : ∃ f, hostAccess a s = .fault f := by
  cases a with
  | regRead width off n =>
    exact ⟨_, hostRegAccess_of_not_wf (.inl ⟨n, rfl⟩) (Bool.eq_false_iff.1 h)⟩
  | regWrite width off v =>
    exact ⟨_, hostRegAccess_of_not_wf (.inr ⟨v, rfl⟩) (Bool.eq_false_iff.1 h)⟩
  | memRead x n => exact ⟨_, if_neg (of_decide_eq_false h)⟩
  | memWrite x v =>
    by_cases hx : x < s.dmemSize
    · have hactive : s.inActiveRange x = true := by simpa [State.admits, hx] using h
      exact ⟨_, hostMemWrite_of_active hx (Bool.or_eq_true_iff.1 hactive)⟩
    · exact ⟨_, if_neg hx⟩

/-- A step with an access due is as safe as the access. -/
theorem stepSafe_of_access {rest : List HostOp} (h : s.hostDoes (.access a) rest) :
    s.stepSafe = s.admits a := by
  obtain ⟨hturn, hprog⟩ := h
  simp [State.stepSafe, hturn, hprog]

theorem stepSafe_of_wait {rest : List HostOp} (h : s.hostDoes .wait rest) : s.stepSafe = true := by
  obtain ⟨hturn, hprog⟩ := h
  simp [State.stepSafe, hturn, hprog]

/-- The HOST whose program has ended uses up its turn and does nothing else. -/
theorem step_of_program_ended (hturn : s.nextTurn = .host) (hprog : s.hostProg = []) :
    step s = .next s.dropTurn := by
  rw [step_host hturn, hostTurn, State.dropTurn_hostProg, hprog]

end

/-- A safe step answers a next state, and every other one a fault. -/
theorem step_next_or_fault (s : State) :
    (s.stepSafe = true ∧ ∃ t, step s = .next t) ∨ (s.stepSafe = false ∧ ∃ f, step s = .fault f) := by
  cases hturn : s.nextTurn with
  | engine =>
    rw [step_engine hturn]
    exact .inl ⟨by simp [State.stepSafe, hturn], engineTurn_next s.dropTurn⟩
  | reset => exact .inl ⟨by simp [State.stepSafe, hturn], _, step_reset hturn⟩
  | host =>
    match hprog : s.hostProg with
    | [] => exact .inl ⟨by simp [State.stepSafe, hturn, hprog], _, step_of_program_ended hturn hprog⟩
    | .wait :: rest => exact .inl ⟨stepSafe_of_wait ⟨hturn, hprog⟩, _, step_wait ⟨hturn, hprog⟩⟩
    | .access a :: rest =>
      rw [stepSafe_of_access ⟨hturn, hprog⟩, step_access ⟨hturn, hprog⟩]
      cases ha : s.admits a with
      | true => exact .inl ⟨rfl, hostAccess_of_admits (s := s.afterHost rest) ha⟩
      | false => exact .inr ⟨rfl, hostAccess_of_not_admits (s := s.afterHost rest) ha⟩

/-- Settles O25: an outcome is a next state or a fault, never both, and safety tells which. -/
theorem stepFaultsExactlyOnUnsafeAccess : Obligations.StepFaultsExactlyOnUnsafeAccess := by
  intro s
  rcases step_next_or_fault s with ⟨hsafe, t, ht⟩ | ⟨hbad, f, hf⟩
  · simp [hsafe, ht]
  · simp [hbad, hf]

end Sys2Proof.Machine

/-! # The frequency analyzer: O34 to O36

Both commands that count leave one table, `frequencies` of the source bytes. So what the three statements
say is said of that table and of the source: a count is the multiplicity of a byte in a list of SRC_LEN
bytes, and SRC_LEN fits the 32 bits of an entry (R141). -/

namespace Sys2Proof.Machine

/-! ### The source bytes and their counts -/

section
variable {s t : State}

theorem sourceBytes_eq_map (s : State) :
    s.sourceBytes = (List.range s.srcLen.toNat).map s.sourceByte := rfl

theorem mem_sourceBytes {x : Symbol} :
    x ∈ s.sourceBytes ↔ ∃ k, k < s.srcLen.toNat ∧ s.sourceByte k = x := by
  simp [sourceBytes_eq_map]

theorem count_sourceBytes (s : State) (x : Symbol) : s.sourceBytes.count x = s.sourceCount x := by
  rw [sourceBytes_eq_map, List.count_eq_countP, List.countP_map, List.countP_eq_length_filter]
  rfl

theorem sourceCount_le (s : State) (x : Symbol) : s.sourceCount x ≤ s.srcLen.toNat := by
  rw [← count_sourceBytes, ← length_sourceBytes]
  exact List.count_le_length

theorem sourceCount_ne_zero_iff {x : Symbol} :
    s.sourceCount x ≠ 0 ↔ ∃ k, k < s.srcLen.toNat ∧ s.sourceByte k = x := by
  rw [← count_sourceBytes, ← Nat.pos_iff_ne_zero, List.count_pos_iff, mem_sourceBytes]

/-- Every source byte is counted for one symbol. -/
theorem sum_sourceCount (s : State) : ∑ x : Symbol, s.sourceCount x = s.srcLen.toNat := by
  simp only [← count_sourceBytes, ← Multiset.coe_count]
  rw [Multiset.sum_count_eq_card fun x _ => Finset.mem_univ x, Multiset.coe_card, length_sourceBytes]

/-! ### The table of the counts (R141) -/

/-- No entry wraps: a count is at most SRC_LEN, itself a word. -/
theorem toNat_lookup_frequencies (s : State) (x : Symbol) :
    (lookup (frequencies s.sourceBytes) x).toNat = s.sourceCount x := by
  have hfits : s.sourceCount x < 2 ^ 32 := (sourceCount_le s x).trans_lt s.srcLen.isLt
  rw [frequencies, lookup_symTable, count_sourceBytes, BitVec.toNat_ofNat, Nat.mod_eq_of_lt hfits]

theorem frequencies_nil : frequencies [] = zeroFreq :=
  table_ext fun x => by simp [frequencies]

/-! ### The commands that count (R140, R210) -/

theorem execAnalyze_of_rangeOk (h : RangeOk s.dmemSize s.srcAddr s.srcLen) :
    exec .analyze s = complete (s.setFreq (frequencies s.sourceBytes)) := by
  have hnone : s.sourceError = none := if_pos (rangeValid_iff.2 h)
  simp only [exec, execAnalyze, hnone]

theorem execAnalyze_of_not_rangeOk (h : ¬ RangeOk s.dmemSize s.srcAddr s.srcLen) :
    exec .analyze s = raise { code := .addrRange, info := 0 } s := by
  have hsome : s.sourceError = some { code := .addrRange, info := 0 } :=
    if_neg fun hv => h (rangeValid_iff.1 hv)
  simp only [exec, execAnalyze, hsome]

theorem compressWith_freq {bytes : List Byte} {cap : Word} {r : Compressed}
    (h : compressWith bytes cap = .ok r) : r.freq = frequencies bytes := by
  rcases compressWith_cases bytes cap with ⟨e, -, h'⟩ | ⟨tr, e, -, -, h'⟩ | ⟨tr, out, p, -, -, h'⟩
  · rw [h'] at h; cases h
  · rw [h'] at h; cases h
  · rw [h'] at h; cases h
    rfl

/-- A COMPRESS of nothing counts nothing, so it too leaves the table of its source bytes. -/
theorem exec_freq_of_counts {i : Instr} (hi : i ∈ [Instr.analyze, .compress])
    (h : exec i s = .next t) (herr : t.err = .noError) : t.freq = frequencies s.sourceBytes := by
  cases i with
  | analyze =>
    rcases execAnalyze_cases h with ⟨e, he, rfl⟩ | ⟨-, rfl⟩
    · exact absurd herr (sourceError_code_ne he)
    · rfl
  | compress =>
    rcases execCompress_cases h with ⟨e, he, rfl⟩ | ⟨-, hlen, rfl⟩ | ⟨-, -, e, he, rfl⟩
      | ⟨-, -, r, hr, rfl⟩
    · exact absurd herr (bufferError_code_ne he)
    · have hnil : s.sourceBytes = [] := by simp [sourceBytes_eq_map, hlen]
      rw [hnil, frequencies_nil]
      rfl
    · exact absurd herr (compressWith_code_ne he)
    · exact compressWith_freq hr
  | nop | clear | buildTree | genCodes | pack | unpack => simp at hi

theorem toNat_lookup_freq_of_counts {i : Instr} (hi : i ∈ [Instr.analyze, .compress])
    (h : exec i s = .next t) (herr : t.err = .noError) (x : Symbol) :
    (lookup t.freq x).toNat = s.sourceCount x := by
  rw [exec_freq_of_counts hi h herr, toNat_lookup_frequencies]

end

/-- Settles O34: the range check decides, and the table written does not read the old one. -/
theorem analyzeCountsTheSource : Obligations.AnalyzeCountsTheSource :=
  fun s => ⟨fun hok => ⟨_, execAnalyze_of_rangeOk hok, toNat_lookup_frequencies s⟩,
    execAnalyze_of_not_rangeOk⟩

/-- Settles O35: the counts are those of the source, whose bytes number SRC_LEN. -/
theorem countsAreExactAndSumToTheLength : Obligations.CountsAreExactAndSumToTheLength := by
  intro i s t hi h herr
  have hcount := toNat_lookup_freq_of_counts hi h herr
  simp only [hcount]
  exact ⟨fun x => ⟨trivial, sourceCount_le s x⟩, sum_sourceCount s⟩

/-- Settles O36: a nonzero entry is a nonzero count, and NSYM counts the nonzero entries. -/
theorem alphabetIsTheSourceBytes : Obligations.AlphabetIsTheSourceBytes := by
  intro s t h herr
  have halphabet (x : Symbol) :
      lookup t.freq x ≠ 0 ↔ ∃ k, k < s.srcLen.toNat ∧ s.sourceByte k = x := by
    rw [← sourceCount_ne_zero_iff, ← toNat_lookup_freq_of_counts (by simp) h herr x]
    exact BitVec.toNat_ne_iff_ne.symm
  exact ⟨halphabet, by simp only [nsym_eq_card, halphabet]⟩

end Sys2Proof.Machine

/-! # The tree builder: O37 to O41

BUILD_TREE answers what `buildTree` answers on FREQ, so a statement about the command is one about that
function and about the arena that stores its tree. The shape of the tree and its merges are the forest
lemmas of the model's laws; what is added here is when there is a tree at all, the walk that meets every
record once, and that two successful COMPRESSes of the same bytes deliver the same output. -/

namespace Sys2Proof.Machine

/-! ### When a table has a tree (R151) -/

section
variable {s t : State} {f : FreqTable} {tr : Tree}

/-- The sum that the builder checks is the sum over all symbols. -/
theorem weightSum_eq_sum (f : FreqTable) : weightSum f = ∑ x : Symbol, (lookup f x).toNat := by
  have huniv : allSymbols.toFinset = Finset.univ := by ext x; simp
  rw [weightSum_eq, ← List.sum_toFinset _ allSymbols_nodup, huniv]

theorem leaves_eq_nil_iff : leaves f = [] ↔ ∀ x, lookup f x = 0 := by
  rw [leaves, List.map_eq_nil_iff, List.eq_nil_iff_forall_not_mem]
  simp [mem_alphabet]

theorem buildTree_of_zero (h : ∀ x, lookup f x = 0) :
    buildTree f = .error { code := .emptyTable, info := 0 } := by
  rcases buildTree_cases f with ⟨-, h'⟩ | ⟨hne, -⟩ | ⟨hne, -⟩
  · exact h'
  · exact absurd (leaves_eq_nil_iff.2 h) hne
  · exact absurd (leaves_eq_nil_iff.2 h) hne

/-- A table too heavy for 32 bits is not empty, so the first check does not hide the second. -/
theorem buildTree_of_overflow (h : 2 ^ 32 - 1 < weightSum f) :
    buildTree f = .error { code := .weightOvf, info := 0 } := by
  rcases buildTree_cases f with ⟨hnil, -⟩ | ⟨-, -, h'⟩ | ⟨-, hle, -⟩
  · rw [weightSum_eq_sum] at h
    simp [leaves_eq_nil_iff.1 hnil] at h
  · exact h'
  · exact absurd h hle.not_gt

theorem exists_buildTree (hne : ∃ x, lookup f x ≠ 0) (hle : weightSum f ≤ 2 ^ 32 - 1) :
    ∃ tr, buildTree f = .ok tr := by
  rcases buildTree_cases f with ⟨hnil, -⟩ | ⟨-, hlt, -⟩ | ⟨-, -, h'⟩
  · obtain ⟨x, hx⟩ := hne
    exact absurd (leaves_eq_nil_iff.1 hnil x) hx
  · exact absurd hle hlt.not_ge
  · exact ⟨_, h'⟩

/-! ### The command and the arena it leaves (R150) -/

theorem execBuildTree_of_ok (h : buildTree s.freq = .ok tr) :
    exec .buildTree s = .next ((s.storeTree tr).finish .noError 0) := by
  simp only [exec, execBuildTree, h, complete]

theorem execBuildTree_of_error {e : CmdError} (h : buildTree s.freq = .error e) :
    exec .buildTree s = .next (failedWith s e.code e.info) := by
  simp only [exec, execBuildTree, h]
  rfl

/-- A BUILD_TREE without an error stored the tree of FREQ. -/
theorem execBuildTree_succeeded (h : exec .buildTree s = .next t) (herr : t.err = .noError) :
    ∃ tr, buildTree s.freq = .ok tr ∧ t = (s.storeTree tr).finish .noError 0 := by
  rcases execBuildTree_cases h with ⟨e, he, rfl⟩ | hok
  · exact absurd herr (buildTree_code_ne he)
  · exact hok

theorem nodeAt_storeTree_of_buildTree (s : State) (h : buildTree f = .ok tr) {k : Nat}
    (hk : k < tr.nodes.length) : nodeAt (s.storeTree tr).arena k = tr.node k := by
  obtain ⟨hshape, hlen, -, -⟩ := buildTree_ok h
  have hle := hshape.leaves_le
  exact nodeAt_storeTree s tr k hk (by omega)

/-- NODE_COUNT holds the number of records, at most 511. -/
theorem toNat_nodeCount_storeTree (s : State) (h : buildTree f = .ok tr) :
    (s.storeTree tr).nodeCount.toNat = tr.nodes.length := by
  obtain ⟨-, hlen, -, -⟩ := buildTree_ok h
  obtain ⟨hcount, -⟩ := s.holdsTree_storeTree h
  rw [hcount, hlen]

theorem toNat_root_storeTree (s : State) (h : buildTree f = .ok tr) :
    (s.storeTree tr).root.toNat = tr.root := by
  obtain ⟨hshape, -, -, -⟩ := buildTree_ok h
  obtain ⟨-, hstored⟩ := s.holdsTree_storeTree h
  rw [hstored.root_eq, hshape.root_eq]

/-! ### The leaves are the alphabet (R150, R153) -/

theorem weight_leaf_of_buildTree (h : buildTree f = .ok tr) {k : Nat}
    (hk : k < (alphabet f).length) : (tr.node k).weight = lookup f (tr.node k).sym := by
  obtain ⟨-, -, -, hleaf⟩ := buildTree_ok h
  obtain ⟨hcount, -⟩ := (mem_alphabet f _).1 (List.getElem_mem hk)
  rw [hleaf k hk]
  exact hcount

theorem exists_leaf_of_buildTree (h : buildTree f = .ok tr) {x : Symbol} (hx : lookup f x ≠ 0) :
    ∃ k, k < (alphabet f).length ∧ (tr.node k).sym = x := by
  obtain ⟨-, -, -, hleaf⟩ := buildTree_ok h
  obtain ⟨k, hk, hkx⟩ := List.getElem_of_mem ((mem_alphabet f (x, lookup f x)).2 ⟨rfl, hx⟩)
  exact ⟨k, hk, by rw [hleaf k hk, hkx]⟩

end

/-- Settles O37: the two premises are the builder's two checks, and its tree is stored as it is. -/
theorem buildTreeBuildsATree : Obligations.BuildTreeBuildsATree := by
  intro s hne hsum
  obtain ⟨tr, hb⟩ := exists_buildTree hne ((weightSum_eq_sum s.freq).trans_le hsum)
  obtain ⟨hshape, hlen, -, -⟩ := buildTree_ok hb
  have hpos := hshape.leaves_pos
  have hrun := execBuildTree_of_ok hb
  obtain ⟨hcontrols, hhost⟩ := exec_keepsControls_keepsHost hrun
  have hnode {k : Nat} (hk : k < s.nsym) : nodeAt (s.storeTree tr).arena k = tr.node k := by
    have hk' : k < (alphabet s.freq).length := hk
    exact nodeAt_storeTree_of_buildTree s hb (by omega)
  refine ⟨_, hrun, ⟨rfl, rfl, rfl, rfl⟩, rfl, s.holdsTree_storeTree hb, fun k hk => ?_, fun x hx => ?_,
    hcontrols, hhost, rfl, rfl, ⟨rfl, rfl⟩, rfl⟩
  · rw [State.finish_arena, hnode hk]
    exact weight_leaf_of_buildTree hb hk
  · obtain ⟨k, hk, hkx⟩ := exists_leaf_of_buildTree hb hx
    exact ⟨k, hk, by rw [State.finish_arena, hnode hk, hkx]⟩

/-- Settles O38: each check answers its error, and an error is all that a failed command leaves. -/
theorem treeCommandsCheckTheirInput : Obligations.TreeCommandsCheckTheirInput := by
  refine fun s => ⟨fun hzero => ?_, fun hsum => ?_, fun hvalid => ?_⟩
  · exact execBuildTree_of_error (buildTree_of_zero hzero)
  · exact execBuildTree_of_error (buildTree_of_overflow (weightSum_eq_sum s.freq ▸ hsum))
  · simp only [exec, execGenCodes, hvalid]
    rfl

/-! ### The walk of everything below the root (R154) -/

section
variable {node : Nat → Node} {n root : Nat}

theorem TreeShape.internal_of_kind (h : TreeShape node n root) {i : Nat} (hi : i < 2 * n - 1)
    (hk : (node i).kind = .internal) : InternalOk node i := by
  have hn : ¬ i < n := fun hlt => by
    rw [(h.kind_eq hi).2 hlt] at hk
    cases hk
  exact h.internal i (Nat.not_lt.1 hn) hi

theorem TreeShape.child_lt (h : TreeShape node n root) {i j : Nat} (hi : i < 2 * n - 1)
    (hc : ChildOf node j i) : j < i := by
  obtain ⟨hk, hchild⟩ := hc
  obtain ⟨-, -, hleft, hright, -, -⟩ := h.internal_of_kind hi hk
  rcases hchild with rfl | rfl
  · exact hleft
  · exact hright

/-- Children lie below their parent, so a walk goes down only. -/
theorem TreeShape.le_of_mem_visits (h : TreeShape node n root) {fuel i x : Nat} (hi : i < 2 * n - 1)
    (hx : x ∈ visits node fuel i) : x ≤ i := by
  induction fuel generalizing i with
  | zero => cases hx
  | succ fuel ih =>
    rw [visits] at hx
    split at hx
    · exact (List.mem_singleton.1 hx).le
    · rename_i hk
      obtain ⟨-, -, hleft, hright, -, -⟩ := h.internal_of_kind hi hk
      rw [List.mem_cons, List.mem_append] at hx
      rcases hx with rfl | hx | hx
      · exact le_rfl
      · exact (ih (hleft.trans hi) hx).trans hleft.le
      · exact (ih (hright.trans hi) hx).trans hright.le

/-- A walk meets the record it starts from once: both subtrees lie below it. -/
theorem TreeShape.count_visits_self (h : TreeShape node n root) {i : Nat} (fuel : Nat)
    (hi : i < 2 * n - 1) : (visits node (fuel + 1) i).count i = 1 := by
  rw [visits]
  split
  · simp
  · rename_i hk
    obtain ⟨-, -, hleft, hright, -, -⟩ := h.internal_of_kind hi hk
    have hnotin : i ∉ visits node fuel (node i).left.toNat ++ visits node fuel (node i).right.toNat := by
      rw [List.mem_append, not_or]
      exact ⟨fun hm => (h.le_of_mem_visits (hleft.trans hi) hm).not_gt hleft,
        fun hm => (h.le_of_mem_visits (hright.trans hi) hm).not_gt hright⟩
    rw [List.count_cons_self, List.count_eq_zero_of_not_mem hnotin]

/-- By induction from the root down: a record is met as often as its one parent. -/
theorem TreeShape.count_visits_root (h : TreeShape node n root) {j : Nat} (hj : j < 2 * n - 1) :
    (visits node 511 root).count j = 1 := by
  have hle := h.leaves_le
  have hre := h.root_eq
  obtain ⟨d, hd⟩ : ∃ d, d = 2 * n - 2 - j := ⟨_, rfl⟩
  induction d using Nat.strong_induction_on generalizing j with
  | _ d ih =>
    by_cases hjr : j = root
    · subst hjr
      exact h.count_visits_self 510 hj
    · obtain ⟨p, ⟨hp, hchild⟩, hunique⟩ := h.one_parent j (by omega)
      have hjp := h.child_lt hp hchild
      rw [h.count_visits hp hchild hunique 511 root (by omega) (by omega) hjr]
      exact ih (2 * n - 2 - p) (by omega) hp rfl

/-- Every record of a tree is met exactly once on the walk from its root (R154). -/
theorem TreeShape.visits_perm (h : TreeShape node n root) :
    (visits node 511 root).Perm (List.range (2 * n - 1)) := by
  have hroot : root < 2 * n - 1 := by
    have hre := h.root_eq
    have hpos := h.leaves_pos
    omega
  refine List.perm_iff_count.2 fun j => ?_
  by_cases hj : j < 2 * n - 1
  · rw [h.count_visits_root hj, List.count_eq_one_of_mem List.nodup_range (List.mem_range.2 hj)]
  · have hvisit : j ∉ visits node 511 root := fun hm =>
      hj ((h.le_of_mem_visits hroot hm).trans_lt hroot)
    rw [List.count_eq_zero_of_not_mem hvisit,
      List.count_eq_zero_of_not_mem fun hm => hj (List.mem_range.1 hm)]

end

/-- Settles O39: the stored tree has the shape whose walk meets every record once, and its root weighs
what the builder summed. -/
theorem builtTreeReachesEveryNodeOnce : Obligations.BuiltTreeReachesEveryNodeOnce := by
  intro s t h herr
  obtain ⟨tr, hb, rfl⟩ := execBuildTree_succeeded h herr
  obtain ⟨hshape, hlen, hweight, -⟩ := buildTree_ok hb
  obtain ⟨hcount, hstored⟩ := s.holdsTree_storeTree hb
  have hroot : tr.root < tr.nodes.length := by
    have hre := hshape.root_eq
    have hpos := hshape.leaves_pos
    omega
  refine ⟨⟨hcount, hstored⟩, ?_, ?_⟩
  · rw [State.finish_nodeCount, hcount]
    exact hstored.visits_perm
  · rw [State.finish_root, toNat_root_storeTree s hb, State.finish_arena,
      nodeAt_storeTree_of_buildTree s hb hroot, hweight, weightSum_eq_sum]

/-- Settles O40: a merge reads records up to its own only, and those the arena holds as they were made;
the queue's order is that of the model's own lemmas. -/
theorem mergesTakeTheTwoLeast : Obligations.MergesTakeTheTwoLeast := by
  refine ⟨fun s t h herr i hn hi => ?_, fun e q hsorted => ⟨sorted_enqueue e hsorted, perm_enqueue e q⟩⟩
  obtain ⟨tr, hb, rfl⟩ := execBuildTree_succeeded h herr
  rw [State.finish_nodeCount, toNat_nodeCount_storeTree s hb] at hi
  exact mergesLeast_congr (mergesLeast_of_buildTree hb i hn hi) fun k hk =>
    nodeAt_storeTree_of_buildTree s hb (hk.trans_lt hi)

/-! ### Results as functions of the inputs (R155, R174, R215) -/

section
variable {s s' t t' : State}

/-- Both runs answer what the builder answers on the one table. -/
theorem execBuildTree_agree (h : exec .buildTree s = .next t) (h' : exec .buildTree s' = .next t')
    (hfreq : s.freq = s'.freq) : t.err = t'.err ∧ (t.err = .noError →
      t.root = t'.root ∧ t.nodeCount = t'.nodeCount
        ∧ ∀ k, k < t.nodeCount.toNat → nodeAt t.arena k = nodeAt t'.arena k) := by
  cases hb : buildTree s.freq with
  | error e =>
    rw [execBuildTree_of_error hb] at h
    rw [execBuildTree_of_error (hfreq ▸ hb)] at h'
    cases h
    cases h'
    exact ⟨rfl, fun herr => absurd herr (buildTree_code_ne hb)⟩
  | ok tr =>
    rw [execBuildTree_of_ok hb] at h
    rw [execBuildTree_of_ok (hfreq ▸ hb)] at h'
    cases h
    cases h'
    refine ⟨rfl, fun _ => ⟨rfl, rfl, fun k hk => ?_⟩⟩
    rw [State.finish_nodeCount, toNat_nodeCount_storeTree s hb] at hk
    exact (nodeAt_storeTree_of_buildTree s hb hk).trans (nodeAt_storeTree_of_buildTree s' hb hk).symm

theorem execGenCodes_codes (hvalid : s.treeValid = true) (h : exec .genCodes s = .next t) :
    t.codes = codeTable (nodeAt s.arena) s.root.toNat := by
  rcases execGenCodes_cases h with ⟨hfalse, -⟩ | ⟨-, rfl⟩
  · exact absurd (hvalid.symm.trans hfalse) Bool.false_ne_true.symm
  · rfl

/-- The walk reads the records below NODE_COUNT alone. -/
theorem codeTable_agree (hvalid : s.treeValid = true) (hok : s.TreeOk) (hroot : s.root = s'.root)
    (hnode : ∀ k, k < s.nodeCount.toNat → nodeAt s.arena k = nodeAt s'.arena k) :
    codeTable (nodeAt s.arena) s.root.toNat = codeTable (nodeAt s'.arena) s'.root.toNat := by
  obtain ⟨hheld, -⟩ := hok
  obtain ⟨n, hcount, hshape⟩ := hheld hvalid
  rw [← hroot]
  exact (hshape.codeTable_congr fun k hk => (hnode k (hcount ▸ hk)).symm).symm

/-- The capacity decides only whether the packer answers its packed form. -/
theorem packWith_ok {ct : CodeTable} {bytes out : List Byte} {cap : Word} {p : BitVec 3}
    (h : packWith ct bytes cap = .ok (out, p)) :
    out = packedBytes (payload ct bytes) ∧ p = padOf (payload ct bytes) := by
  rcases packWith_cases ct bytes cap with ⟨i, -, h'⟩ | ⟨-, -, h'⟩ | ⟨-, -, h'⟩ <;> rw [h'] at h <;> cases h
  exact ⟨rfl, rfl⟩

/-- What a successful composition computes is written out of the source bytes; the capacity is not in it. -/
theorem compressWith_ok_results {bytes : List Byte} {cap : Word} {r : Compressed}
    (h : compressWith bytes cap = .ok r) : ∃ tr, buildTree (frequencies bytes) = .ok tr ∧ r =
      { freq := frequencies bytes
        tree := tr
        codes := codeTable tr.node tr.root
        out := packedBytes (payload (codeTable tr.node tr.root) bytes)
        pad := padOf (payload (codeTable tr.node tr.root) bytes) } := by
  rcases compressWith_cases bytes cap with ⟨e, -, h'⟩ | ⟨tr, e, -, -, h'⟩ | ⟨tr, out, p, hb, hp, h'⟩
  · rw [h'] at h; cases h
  · rw [h'] at h; cases h
  · rw [h'] at h; cases h
    obtain ⟨rfl, rfl⟩ := packWith_ok hp
    exact ⟨tr, hb, rfl⟩

theorem compressWith_unique {bytes : List Byte} {cap cap' : Word} {r r' : Compressed}
    (h : compressWith bytes cap = .ok r) (h' : compressWith bytes cap' = .ok r') : r = r' := by
  obtain ⟨tr, hb, rfl⟩ := compressWith_ok_results h
  obtain ⟨tr', hb', rfl⟩ := compressWith_ok_results h'
  cases hb.symm.trans hb'
  rfl

/-- A COMPRESS without an error: empty tables for an empty source, else the composition's results. -/
theorem execCompress_succeeded (h : exec .compress s = .next t) (herr : t.err = .noError) :
    (s.srcLen = 0 ∧ t = (s.clearTables.deliver [] 0).finish .noError 0)
    ∨ (s.srcLen ≠ 0 ∧ ∃ r, compressWith s.sourceBytes s.dstCap = .ok r
      ∧ t = ((((s.setFreq r.freq).storeTree r.tree).setCodes r.codes).deliver r.out r.pad).finish
          .noError 0) := by
  rcases execCompress_cases h with ⟨e, he, rfl⟩ | ⟨-, hempty⟩ | ⟨-, -, e, he, rfl⟩ | ⟨-, hresults⟩
  · exact absurd herr (bufferError_code_ne he)
  · exact .inl hempty
  · exact absurd herr (compressWith_code_ne he)
  · exact .inr hresults

theorem srcLen_eq_of_sourceBytes (h : s.sourceBytes = s'.sourceBytes) : s.srcLen = s'.srcLen := by
  apply BitVec.eq_of_toNat_eq
  rw [← length_sourceBytes, h, length_sourceBytes]

/-- Two COMPRESSes of the same bytes that succeed deliver one output and leave one table each of counts
and codes (R215). -/
theorem execCompress_agree (h : exec .compress s = .next t) (h' : exec .compress s' = .next t')
    (herr : t.err = .noError) (herr' : t'.err = .noError) (hsrc : s.sourceBytes = s'.sourceBytes) :
    t.pad = t'.pad ∧ t.codes = t'.codes ∧ t.freq = t'.freq
      ∧ ∃ out, HoldsOutput s t out ∧ HoldsOutput s' t' out := by
  have hlen := srcLen_eq_of_sourceBytes hsrc
  rcases execCompress_succeeded h herr with ⟨h0, rfl⟩ | ⟨h0, r, hr, rfl⟩ <;>
    rcases execCompress_succeeded h' herr' with ⟨h0', rfl⟩ | ⟨h0', r', hr', rfl⟩
  · exact ⟨rfl, rfl, rfl, [], holdsOutput_nil rfl rfl, holdsOutput_nil rfl rfl⟩
  · exact absurd (hlen ▸ h0) h0'
  · exact absurd (hlen ▸ h0') h0
  · obtain ⟨-, hfits⟩ := compressWith_ok hr
    obtain ⟨-, hfits'⟩ := compressWith_ok hr'
    obtain rfl := compressWith_unique hr (hsrc ▸ hr')
    exact ⟨rfl, rfl, rfl, r.out, ⟨hfits, rfl, rfl⟩, ⟨hfits', rfl, rfl⟩⟩

/-- On a canonical memory the output stands at DST_ADDR, OUT_LEN bytes of it. -/
theorem HoldsOutput.readRange {out : List Byte} (h : HoldsOutput s t out)
    (hwf : Memory.wf s.dmem = true) :
    Memory.readRange t.dmem s.dstAddr.toNat t.outLen.toNat = out := by
  rw [h.toNat_outLen, h.dmem_eq, Memory.readRange_writeRange hwf]

end

/-- Settles O41, command by command. -/
theorem resultsDependOnInputsAlone : Obligations.ResultsDependOnInputsAlone := by
  refine fun s s' t t' => ⟨execBuildTree_agree, fun h h' hvalid hvalid' hok hroot _ hnode => ?_,
    fun h h' herr herr' hsrc => ?_⟩
  · rw [execGenCodes_codes hvalid h, execGenCodes_codes hvalid' h']
    exact codeTable_agree hvalid hok hroot hnode
  · obtain ⟨hpad, hcodes, hfreq, out, hout, hout'⟩ := execCompress_agree h h' herr herr' hsrc
    have hoc : t.outLen = t'.outLen := hout.outLen_eq.trans hout'.outLen_eq.symm
    refine ⟨hoc, hpad, hcodes, hfreq, fun hwf hwf' => ?_⟩
    rw [hout.readRange hwf, hoc, hout'.readRange hwf']

end Sys2Proof.Machine

/-! # The code-table generator: O42 to O44

GEN_CODES stores `codeTable` of the arena, and the model's laws give each entry of that table over a built
tree. The rules below say it through `HasCode` and `codeOf`, as the statements do; that no code begins
another is then that no path leads on from a leaf. -/

namespace Sys2Proof.Machine

/-! ### The table of a built tree (R170, R171) -/

/-- An entry that stores a code of 1 to 255 bits has that code (R51, R172). -/
theorem hasCode_of_lookup_ofBits {ct : CodeTable} {x : Symbol} {c : Bits}
    (h : lookup ct x = CodeEntry.ofBits c) (hpos : 1 ≤ c.length) (hle : c.length ≤ 255) :
    HasCode ct x ∧ codeOf ct x = c := by
  have hcode : codeOf ct x = c := by rw [codeOf, h, code_ofBits c hle]
  refine ⟨fun hzero => ?_, hcode⟩
  have hlen : (codeOf ct x).length = (lookup ct x).len.toNat := length_code _
  rw [hcode, hzero] at hlen
  exact absurd (hlen ▸ hpos) (by decide)

theorem not_hasCode_of_lookup_noCode {ct : CodeTable} {x : Symbol} (h : lookup ct x = noCode) :
    ¬ HasCode ct x := fun hx => hx (by rw [h]; rfl)

section
variable {node : Nat → Node} {n root : Nat} {x : Symbol}

/-- The leaves are in ascending symbol order, so no two have one symbol (R153). -/
theorem TreeShape.sym_injective (h : TreeShape node n root) {j k : Nat} (hj : j < n) (hk : k < n)
    (he : (node j).sym = (node k).sym) : j = k := by
  rcases Nat.lt_trichotomy j k with hlt | heq | hlt
  · exact absurd (congrArg BitVec.toNat he) (h.ascending j k hlt hk).ne
  · exact heq
  · exact absurd (congrArg BitVec.toNat he) (h.ascending k j hlt hj).ne'

/-- Exactly the leaf symbols have a code (R173). -/
theorem TreeShape.hasCode_iff (h : TreeShape node n root) :
    HasCode (codeTable node root) x ↔ ∃ k, k < n ∧ (node k).sym = x := by
  rcases h.codeTable_cases x with ⟨c, k, hentry, hk, hsym, hpos, hle, -, -⟩ | ⟨hentry, hnone⟩
  · exact iff_of_true (hasCode_of_lookup_ofBits hentry hpos hle).1 ⟨k, hk, hsym⟩
  · exact iff_of_false (not_hasCode_of_lookup_noCode hentry) fun ⟨k, hk, hsym⟩ => hnone k hk hsym

/-- A symbol that no leaf has keeps the entry the table began with (R170). -/
theorem TreeShape.lookup_of_not_hasCode (h : TreeShape node n root)
    (hx : ¬ HasCode (codeTable node root) x) : lookup (codeTable node root) x = noCode := by
  rcases h.codeTable_cases x with ⟨c, k, hentry, -, -, hpos, hle, -, -⟩ | ⟨hentry, -⟩
  · exact absurd (hasCode_of_lookup_ofBits hentry hpos hle).1 hx
  · exact hentry

/-- A root that is a leaf gets the code "0" (R171). -/
theorem TreeShape.codeOf_of_single (h : TreeShape node n root) (hn : n = 1)
    (hx : HasCode (codeTable node root) x) : codeOf (codeTable node root) x = [false] := by
  rcases h.codeTable_cases x with ⟨c, k, hentry, -, -, hpos, hle, hone, -⟩ | ⟨hentry, -⟩
  · rw [(hasCode_of_lookup_ofBits hentry hpos hle).2, hone hn]
  · exact absurd hx (not_hasCode_of_lookup_noCode hentry)

/-- In a tree of two leaves or more a code is the path to its symbol's leaf, of 1 to n - 1 steps (R171,
R172). -/
theorem TreeShape.reach_codeOf (h : TreeShape node n root) (hn : n ≠ 1)
    (hx : HasCode (codeTable node root) x) :
    ∃ k, k < n ∧ (node k).sym = x ∧ reach node root (codeOf (codeTable node root) x) = some k
      ∧ 1 ≤ (codeOf (codeTable node root) x).length
      ∧ (codeOf (codeTable node root) x).length + 1 ≤ n := by
  rcases h.codeTable_cases x with ⟨c, k, hentry, hk, hsym, hpos, hle, -, hpath⟩ | ⟨hentry, -⟩
  · obtain ⟨hreach, hlen⟩ := hpath hn
    rw [(hasCode_of_lookup_ofBits hentry hpos hle).2]
    exact ⟨k, hk, hsym, hreach, hpos, hlen⟩
  · exact absurd hx (not_hasCode_of_lookup_noCode hentry)

/-- Every stored bit past an entry's length is 0 (R170). -/
theorem TreeShape.getMsbD_past_len (h : TreeShape node n root) {j : Nat}
    (hlen : (lookup (codeTable node root) x).len.toNat ≤ j) (hj : j < 256) :
    (lookup (codeTable node root) x).bits.getMsbD j = false := by
  rcases h.codeTable_cases x with ⟨c, k, hentry, -, -, hpos, hle, -, -⟩ | ⟨hentry, -⟩
  · have hcode : (codeOf (codeTable node root) x).length = (lookup (codeTable node root) x).len.toNat :=
      length_code _
    rw [(hasCode_of_lookup_ofBits hentry hpos hle).2] at hcode
    rw [hentry]
    exact getMsbD_ofBits_past c (by omega) (hcode.trans_le hlen) hj
  · simp [hentry, noCode]

/-! ### The codes as a set (R173) -/

/-- One code per leaf: the coded symbols are the image of the leaves, which no two share. -/
theorem TreeShape.card_hasCode (h : TreeShape node n root) :
    (Finset.univ.filter fun x : Symbol => (lookup (codeTable node root) x).len ≠ 0).card = n := by
  have himage : (Finset.univ.filter fun x : Symbol => (lookup (codeTable node root) x).len ≠ 0)
      = (Finset.range n).image fun k => (node k).sym := by
    ext x
    simp only [Finset.mem_filter, Finset.mem_univ, true_and, Finset.mem_image, Finset.mem_range]
    exact h.hasCode_iff
  rw [himage, Finset.card_image_of_injOn, Finset.card_range]
  intro j hj k hk he
  exact h.sym_injective (Finset.mem_range.1 hj) (Finset.mem_range.1 hk) he

/-- A code that another extends ends at a leaf, from which no path leads on: the two are one path. -/
theorem TreeShape.prefixFree (h : TreeShape node n root) : PrefixFree (codeTable node root) := by
  intro x y hx hy hne hbegins
  by_cases hn : n = 1
  · obtain ⟨j, hj, hjx⟩ := h.hasCode_iff.1 hx
    obtain ⟨k, hk, hky⟩ := h.hasCode_iff.1 hy
    have hjk : j = k := by omega
    exact hne (by rw [← hjx, ← hky, hjk])
  · obtain ⟨j, hj, hjx, hreachx, -⟩ := h.reach_codeOf hn hx
    obtain ⟨k, hk, hky, hreachy, -⟩ := h.reach_codeOf hn hy
    obtain ⟨d, hd⟩ := hbegins
    have hon : reach node j d = some k := by
      rw [← hd, reach_append, hreachx] at hreachy
      exact hreachy
    rw [reach_leaf (h.leaf j hj).1] at hon
    split at hon
    · exact hne (by rw [← hjx, ← hky, Option.some.inj hon])
    · cases hon

end

/-! ### The command over a built tree -/

theorem execGenCodes_of_valid {s : State} (hvalid : s.treeValid = true) :
    exec .genCodes s
      = .next ((s.setCodes (codeTable (nodeAt s.arena) s.root.toNat)).finish .noError 0) := by
  simp only [exec, execGenCodes, hvalid]
  rfl

/-- NODE_COUNT tells a tree of one leaf from a larger one. -/
theorem State.HoldsTree.nodeCount_eq_one_iff {s : State} {n : Nat} (h : s.HoldsTree n) :
    s.nodeCount = 1 ↔ n = 1 := by
  obtain ⟨hcount, hshape⟩ := h
  have hpos := hshape.leaves_pos
  rw [← BitVec.toNat_inj, hcount]
  change 2 * n - 1 = 1 ↔ n = 1
  omega

/-- Settles O42: the table written is that of the arena's tree, whose leaves are the records of kind Leaf
below NODE_COUNT. -/
theorem genCodesAssignsThePaths : Obligations.GenCodesAssignsThePaths := by
  intro s hvalid hok
  obtain ⟨hheld, -⟩ := hok
  obtain ⟨n, hcount, hshape⟩ := hheld hvalid
  have hone := State.HoldsTree.nodeCount_eq_one_iff ⟨hcount, hshape⟩
  have hpos := hshape.leaves_pos
  refine ⟨codeTable (nodeAt s.arena) s.root.toNat, execGenCodes_of_valid hvalid, fun x => ?_,
    fun hcount1 => ?_, fun hmany x hx => ?_, fun x => hshape.lookup_of_not_hasCode, fun x j hlen hj => ?_⟩
  · rw [hshape.hasCode_iff, hcount]
    constructor
    · rintro ⟨k, hk, hsym⟩
      exact ⟨k, by omega, (hshape.leaf k hk).1, hsym⟩
    · rintro ⟨k, hk, hkind, hsym⟩
      exact ⟨k, (hshape.kind_eq hk).1 hkind, hsym⟩
  · have hn := hone.1 hcount1
    have hroot := hshape.root_eq
    exact hshape.codeOf_of_single hn (hshape.hasCode_iff.2 ⟨_, by omega, rfl⟩)
  · obtain ⟨k, hk, hsym, hreach, -⟩ := hshape.reach_codeOf (mt hone.2 hmany) hx
    exact ⟨k, hreach, (hshape.leaf k hk).1, hsym⟩
  · rw [← getMsbD_eq_word _ _ hj]
    exact hshape.getMsbD_past_len hlen hj

/-- Settles O43: the code of a leaf's symbol is a path to a leaf with that symbol, which is that leaf. -/
theorem codeLengthsAreLeafDepths : Obligations.CodeLengthsAreLeafDepths := by
  intro s t n k len hvalid hheld h hk hlen
  obtain ⟨-, hshape⟩ := hheld
  have hcoded := hshape.hasCode_iff.2 ⟨k, hk, rfl⟩
  rw [execGenCodes_codes hvalid h] at hlen
  have hlength : (codeOf (codeTable (nodeAt s.arena) s.root.toNat) (nodeAt s.arena k).sym).length
      = len := (length_code _).trans hlen.symm
  constructor
  · intro hn
    have hle := hshape.leaves_le
    obtain ⟨j, hj, hsym, hreach, hpos, hbound⟩ := hshape.reach_codeOf (by omega) hcoded
    obtain rfl := hshape.sym_injective hj hk hsym
    exact ⟨by omega, by omega, by omega, _, hlength, hreach⟩
  · intro hn
    rw [← hlength, hshape.codeOf_of_single hn hcoded]
    rfl

/-- Settles O44: NCODE counts the coded symbols, and equal codes begin one another. -/
theorem generatedCodesArePrefixFree : Obligations.GeneratedCodesArePrefixFree := by
  intro s t n hvalid hheld h
  obtain ⟨-, hshape⟩ := hheld
  rw [ncode_eq_card, execGenCodes_codes hvalid h]
  exact ⟨fun x => hshape.hasCode_iff, hshape.card_hasCode,
    conflictFree_of_prefixFree hshape.prefixFree, hshape.prefixFree⟩

end Sys2Proof.Machine

/-! # The bit packer: O45 to O48

PACK answers what `packWith` answers on the source bytes, so a statement about the command is one about
`packedBytes` of the payload. Its bytes split where the payload's bits do: whole bytes of code bits, then
one byte that ends with the padding. -/

namespace Sys2Proof.Machine

/-! ### Bit-strings and their bytes (R11, R82) -/

theorem natOfBits_append (c d : Bits) :
    natOfBits (c ++ d) = natOfBits c * 2 ^ d.length + natOfBits d := by
  rw [← natOfBits_foldl, natOfBits, natOfBits, List.foldl_append]

theorem natOfBits_replicate_false (n : Nat) : natOfBits (List.replicate n false) = 0 := by
  induction n with
  | zero => rfl
  | succ n ih => rw [List.replicate_succ, natOfBits_cons, ih]; simp

theorem toNat_byte8 {c : Bits} (h : c.length = 8) : (byte8 c).toNat = natOfBits c := by
  have hlt := natOfBits_lt c
  rw [h] at hlt
  exact Nat.mod_eq_of_lt hlt

theorem bytesOfBits_bits8_append (x : Byte) (d : Bits) :
    bytesOfBits (bits8 x ++ d) = x :: bytesOfBits d := by
  have hbyte : bytesOfBits (bits8 x ++ d) = byte8 (bits8 x) :: bytesOfBits d := rfl
  rw [hbyte, byte8_bits8]

theorem bytesOfBits_bitsOfBytes_append (bs : List Byte) (d : Bits) :
    bytesOfBits (bitsOfBytes bs ++ d) = bs ++ bytesOfBits d := by
  induction bs with
  | nil => rfl
  | cons b bs ih =>
    rw [bitsOfBytes_cons, List.append_assoc, bytesOfBits_bits8_append, ih, List.cons_append]

/-- Bit-strings split into bytes one after the other when the first ends on a byte boundary. -/
theorem bytesOfBits_append {c : Bits} (h : 8 ∣ c.length) (d : Bits) :
    bytesOfBits (c ++ d) = bytesOfBits c ++ bytesOfBits d := by
  rw [← bytesOfBits_bitsOfBytes_append, bitsOfBytes_bytesOfBits c h]

theorem bytesOfBits_of_length_eight {c : Bits} (h : c.length = 8) : bytesOfBits c = [byte8 c] := by
  have hone := bytesOfBits_bits8_append (byte8 c) []
  rwa [bits8_byte8 c h, List.append_nil] at hone

/-! ### The packed form of a bit-string (R183) -/

theorem toNat_padOf (bits : Bits) : (padOf bits).toNat = padCount bits.length :=
  Nat.mod_eq_of_lt (padCount_lt bits.length)

theorem toNat_padOf_byte (bits : Bits) : ((padOf bits).setWidth 8).toNat = padCount bits.length := by
  rw [BitVec.toNat_setWidth_of_le (by decide), toNat_padOf]

theorem add_padCount_div_eight (n : Nat) : (n + padCount n) / 8 = (n + 7) / 8 := by
  unfold padCount; omega

theorem length_packed_body (bits : Bits) :
    (bytesOfBits (bits ++ List.replicate (padCount bits.length) false)).length
      = (bits.length + padCount bits.length) / 8 := by
  rw [length_bytesOfBits, List.length_append, List.length_replicate]

theorem length_packedBytes (bits : Bits) :
    (packedBytes bits).length = 1 + (bits.length + padCount bits.length) / 8 := by
  rw [packedBytes, List.length_cons, length_packed_body, Nat.add_comm]

/-- The body of the packed form is the padded bit-string. -/
theorem bitsOfBytes_packed_body (bits : Bits) :
    bitsOfBytes (bytesOfBits (bits ++ List.replicate (padCount bits.length) false))
      = bits ++ List.replicate (padCount bits.length) false :=
  bitsOfBytes_bytesOfBits _ (by simpa using padCount_dvd bits.length)

/-- The whole bytes of a nonempty bit-string but its last, and the rest, which the padding fills up to
one byte. -/
theorem exists_split_last_byte {bits : Bits} (h : bits ≠ []) : ∃ full rest : Bits, bits = full ++ rest
    ∧ 8 ∣ full.length ∧ (rest ++ List.replicate (padCount bits.length) false).length = 8 := by
  have hpos := List.length_pos_of_ne_nil h
  have hlt := padCount_lt bits.length
  obtain ⟨m, hm⟩ := padCount_dvd bits.length
  refine ⟨bits.take (8 * (m - 1)), bits.drop (8 * (m - 1)), (List.take_append_drop _ _).symm, ?_, ?_⟩
  · exact ⟨m - 1, by rw [List.length_take]; omega⟩
  · rw [List.length_append, List.length_drop, List.length_replicate]; omega

/-- The zeros a bit-string of 8 ends with are low zero bits of its byte. -/
theorem toNat_byte8_padded_mod {c : Bits} {p : Nat} (h : (c ++ List.replicate p false).length = 8) :
    (byte8 (c ++ List.replicate p false)).toNat % 2 ^ p = 0 := by
  rw [toNat_byte8 h, natOfBits_append, natOfBits_replicate_false, List.length_replicate, Nat.add_zero,
    Nat.mul_mod_left]

/-- Settles O48: the padding falls into the one byte after the whole bytes of the bit-string. -/
theorem paddingReachesAByteBoundary : Obligations.PaddingReachesAByteBoundary := by
  intro bits hne
  obtain ⟨full, rest, hbits, hfull, hlast⟩ := exists_split_last_byte hne
  have hpacked : packedBytes bits = (padOf bits).setWidth 8
      :: (bytesOfBits full ++ [byte8 (rest ++ List.replicate (padCount bits.length) false)]) := by
    rw [← bytesOfBits_of_length_eight hlast, ← bytesOfBits_append hfull, ← List.append_assoc, ← hbits]
    rfl
  have hlength : (bytesOfBits full).length + 1 = (bits.length + padCount bits.length) / 8 := by
    have htotal := length_packedBytes bits
    simp only [hpacked, List.length_cons, List.length_append, List.length_nil] at htotal
    omega
  refine ⟨_, _, _, hpacked, ?_⟩
  rw [toNat_padOf_byte]
  exact ⟨rfl, Nat.le_of_lt_succ (padCount_lt _), Nat.mod_eq_zero_of_dvd (padCount_dvd _), hlength,
    hlength.trans (add_padCount_div_eight _), toNat_byte8_padded_mod hlast⟩

/-! ### The source and its payload (R180, R182) -/

section
variable {s t : State}

theorem payload_sourceBytes (s : State) : payload s.codes s.sourceBytes
    = (List.range s.srcLen.toNat).flatMap fun k => codeOf s.codes (s.sourceByte k) := by
  rw [payload, sourceBytes_eq_map, List.flatMap_map]

theorem length_payload_sourceBytes (s : State) : (payload s.codes s.sourceBytes).length
    = ((List.range s.srcLen.toNat).map fun k => (lookup s.codes (s.sourceByte k)).len.toNat).sum := by
  simp only [payload_sourceBytes, List.length_flatMap, codeOf, length_code]

theorem firstMissing_sourceBytes_none
    (h : ∀ k, k < s.srcLen.toNat → HasCode s.codes (s.sourceByte k)) :
    firstMissing s.codes s.sourceBytes = none := by
  refine firstMissing_none.2 fun b hb => ?_
  obtain ⟨k, hk, rfl⟩ := mem_sourceBytes.1 hb
  exact h k hk

theorem firstMissing_sourceBytes_some {k : Nat} (hk : k < s.srcLen.toNat)
    (hmissing : ¬ HasCode s.codes (s.sourceByte k))
    (hbefore : ∀ j, j < k → HasCode s.codes (s.sourceByte j)) :
    firstMissing s.codes s.sourceBytes = some k := by
  rw [firstMissing, List.findIdx?_eq_some_iff_getElem]
  refine ⟨by simpa using hk, ?_, fun j hj => ?_⟩
  · simpa [sourceBytes_eq_map, HasCode] using hmissing
  · simpa [sourceBytes_eq_map, HasCode] using hbefore j hj

/-! ### The packer's answer (R180) -/

theorem packWith_of_missing {ct : CodeTable} {bytes : List Byte} {k : Nat} (cap : Word)
    (h : firstMissing ct bytes = some k) :
    packWith ct bytes cap = .error { code := .missingCode, info := BitVec.ofNat 32 k } := by
  simp only [packWith, h]

theorem packWith_of_overflow {ct : CodeTable} {bytes : List Byte} {cap : Word}
    (h : firstMissing ct bytes = none) (hcap : cap.toNat < (packedBytes (payload ct bytes)).length) :
    packWith ct bytes cap = .error
      { code := .dstOverflow, info := saturate (packedBytes (payload ct bytes)).length } := by
  simp only [packWith, h, gt_iff_lt, hcap, if_true]

theorem packWith_of_fits {ct : CodeTable} {bytes : List Byte} {cap : Word}
    (h : firstMissing ct bytes = none) (hcap : (packedBytes (payload ct bytes)).length ≤ cap.toNat) :
    packWith ct bytes cap = .ok (packedBytes (payload ct bytes), padOf (payload ct bytes)) := by
  simp only [packWith, h, gt_iff_lt, Nat.not_lt.2 hcap, if_false]

/-! ### The buffer checks (R222) -/

theorem bufferError_eq_none_iff : s.bufferError = none ↔ s.BuffersOk := by
  rw [State.BuffersOk, ← rangeValid_iff, ← rangeValid_iff, ← rangesOverlap_iff_meet,
    Bool.not_eq_true]
  refine ⟨bufferError_none, fun ⟨hsrc, hdst, hapart⟩ => ?_⟩
  simp [State.bufferError, hsrc, hdst, hapart]

/-- An empty source range is valid wherever it is, and meets nothing (R86, R87). -/
theorem buffersOk_of_empty_source (h0 : s.srcLen = 0) (hdst : RangeOk s.dmemSize s.dstAddr s.dstCap) :
    s.BuffersOk := by
  refine ⟨.inl h0, hdst, fun ⟨_, ⟨hge, hlt⟩, _⟩ => ?_⟩
  rw [h0] at hlt
  exact absurd hge (Nat.not_le.2 hlt)

/-! ### The command by cases (R180, R181) -/

theorem execPack_of_empty (hok : s.BuffersOk) (h0 : s.srcLen = 0) :
    exec .pack s = complete (s.deliver [] 0) := by
  simp only [exec, execPack, bufferError_eq_none_iff.2 hok, h0, if_true]

theorem execUnpack_of_empty (hok : s.BuffersOk) (h0 : s.srcLen = 0) :
    exec .unpack s = complete (s.deliver [] 0) := by
  have hnil : s.sourceBytes = [] := by simp [sourceBytes_eq_map, h0]
  simp only [exec, execUnpack, bufferError_eq_none_iff.2 hok, hnil]

theorem execPack_of_error {e : CmdError} (hok : s.BuffersOk) (hne : s.srcLen ≠ 0)
    (h : packWith s.codes s.sourceBytes s.dstCap = .error e) :
    exec .pack s = .next (failedWith s e.code e.info) := by
  simp only [exec, execPack, bufferError_eq_none_iff.2 hok, if_neg hne, h]
  rfl

theorem execPack_of_ok {out : List Byte} {p : BitVec 3} (hok : s.BuffersOk) (hne : s.srcLen ≠ 0)
    (h : packWith s.codes s.sourceBytes s.dstCap = .ok (out, p)) :
    exec .pack s = complete (s.deliver out p) := by
  simp only [exec, execPack, bufferError_eq_none_iff.2 hok, if_neg hne, h]

/-! ### An output read back (R89) -/

theorem HoldsOutput.read_head {b : Byte} {body : List Byte} (h : HoldsOutput s t (b :: body))
    (hwf : Memory.wf s.dmem = true) : Memory.read t.dmem s.dstAddr.toNat = b := by
  rw [h.dmem_eq]
  exact Memory.read_writeRange_inside (i := 0) hwf (by simp)

theorem HoldsOutput.readRange_tail {b : Byte} {body : List Byte} (h : HoldsOutput s t (b :: body))
    (hwf : Memory.wf s.dmem = true) :
    Memory.readRange t.dmem (s.dstAddr.toNat + 1) body.length = body := by
  rw [h.dmem_eq]
  exact Memory.readRange_writeRange (Memory.write_wf hwf _ _) _ _

end

/-- Settles O47: an empty source passes the checks, and what is delivered is no byte. -/
theorem emptySourcePacksAndUnpacksToNothing : Obligations.EmptySourcePacksAndUnpacksToNothing := by
  intro i s hi h0 hdst
  have hok := buffersOk_of_empty_source h0 hdst
  cases i with
  | pack => exact execPack_of_empty hok h0
  | unpack => exact execUnpack_of_empty hok h0
  | nop | clear | analyze | buildTree | genCodes | compress => simp at hi

/-- Settles O46: the packer looks for a missing code first, and then at the length of the packed form. -/
theorem packErrorsAreInOrder : Obligations.PackErrorsAreInOrder := by
  refine fun s hok hne => ⟨fun k hk hmissing hbefore => ?_, fun need hcoded hneed hcap => ?_⟩
  · have hfirst := firstMissing_sourceBytes_some hk hmissing hbefore
    exact execPack_of_error hok hne (packWith_of_missing _ hfirst)
  · have hlength : (packedBytes (payload s.codes s.sourceBytes)).length = need := by
      rw [length_packedBytes, add_padCount_div_eight, length_payload_sourceBytes, hneed]
    subst hlength
    exact execPack_of_error hok hne
      (packWith_of_overflow (firstMissing_sourceBytes_none hcoded) hcap)

/-- Settles O45: the output is the packed form of the payload, read back as its first byte and its body. -/
theorem packWritesThePackedForm : Obligations.PackWritesThePackedForm := by
  intro s bits p m hok hne hwf hcoded hbits hp hm hcap
  rw [← payload_sourceBytes] at hbits
  obtain rfl : p = padCount bits.length := hp
  have hlength : (packedBytes bits).length = 1 + m := by rw [length_packedBytes, hm]
  have hpack : packWith s.codes s.sourceBytes s.dstCap = .ok (packedBytes bits, padOf bits) := by
    subst hbits
    exact packWith_of_fits (firstMissing_sourceBytes_none hcoded) (hlength.trans_le hcap)
  have hexec := execPack_of_ok hok hne hpack
  have hout : HoldsOutput s ((s.deliver (packedBytes bits) (padOf bits)).finish .noError 0)
      (packedBytes bits) := ⟨hlength.trans_le hcap, rfl, rfl⟩
  have houtLen := hout.toNat_outLen.trans hlength
  obtain ⟨-, houtside⟩ := hout.footprint
  have hbody := hout.readRange_tail hwf
  rw [length_packed_body, ← hm] at hbody
  obtain ⟨hcontrols, hhost, hfreq, htree, hcodes, -⟩ := commandsWriteOnlyTheirResults .pack s _ hexec
  refine ⟨_, hexec, ⟨rfl, rfl, rfl, rfl⟩, houtLen, toNat_padOf bits, ?_, ?_, houtLen ▸ houtside,
    hcontrols, hhost, htree (by decide), hfreq (by decide), hcodes (by decide)⟩
  · rw [hout.read_head hwf, toNat_padOf_byte]
  · rw [hbody, bitsOfBytes_packed_body]

end Sys2Proof.Machine

/-! # The bit unpacker: O49 to O53 and O57

UNPACK answers what `unpackWith` answers on its first source byte and the rest, so a statement about the
command is one about the kept bits and the greedy walk over them. The walk keeps one thing of its
candidate: no code begins it. Over a prefix-free table it undoes the packer code by code, which is the
round trip. -/

namespace Sys2Proof.Machine

/-! ### The greedy walk (R192, R194) -/

/-- No code is a prefix of `c`, as holds of the walk's candidate at every turn. -/
def NoCodeBegins (ct : CodeTable) (c : Bits) : Prop := ∀ x, HasCode ct x → ¬ codeOf ct x <+: c

/-- `x` has a code, and it is the least of the codes that begin it. -/
def HasShortestCode (ct : CodeTable) (x : Symbol) : Prop :=
  HasCode ct x ∧ ∀ y, HasCode ct y → codeOf ct y <+: codeOf ct x → codeOf ct y = codeOf ct x

section
variable {ct : CodeTable} {book : List (Symbol × Bits)} {cand bits : Bits} {b : Bool} {x : Symbol}

theorem greedy_cons_of_match (h : matchCode book (cand ++ [b]) = some x) :
    greedy book cand (b :: bits) = (x :: (greedy book [] bits).1, (greedy book [] bits).2) := by
  simp only [greedy, h]

theorem greedy_cons_of_no_match (h : matchCode book (cand ++ [b]) = none) :
    greedy book cand (b :: bits) = greedy book (cand ++ [b]) bits := by
  simp only [greedy, h]

/-- A code has at least one bit (R50). -/
theorem noCodeBegins_nil (ct : CodeTable) : NoCodeBegins ct [] := by
  intro x hx hbegins
  have hlen : (codeOf ct x).length = (lookup ct x).len.toNat := length_code _
  rw [List.prefix_nil.1 hbegins] at hlen
  exact hx (BitVec.eq_of_toNat_eq hlen.symm)

theorem NoCodeBegins.concat_of_no_match (h : NoCodeBegins ct cand)
    (hm : matchCode (codeBook ct) (cand ++ [b]) = none) : NoCodeBegins ct (cand ++ [b]) := by
  intro x hx hbegins
  rcases List.prefix_concat_iff.1 hbegins with he | hshort
  · exact matchCode_none.1 hm x hx he
  · exact h x hx hshort

theorem NoCodeBegins.hasShortestCode_of_match (h : NoCodeBegins ct cand)
    (hm : matchCode (codeBook ct) (cand ++ [b]) = some x) : HasShortestCode ct x := by
  obtain ⟨hx, hcode⟩ := matchCode_some hm
  refine ⟨hx, fun y hy hbegins => ?_⟩
  rw [hcode] at hbegins ⊢
  exact (List.prefix_concat_iff.1 hbegins).resolve_right (h y hy)

/-- The walk from a candidate on loses no bit. -/
theorem payload_greedy (ct : CodeTable) (cand bits : Bits) :
    payload ct (greedy (codeBook ct) cand bits).1 ++ (greedy (codeBook ct) cand bits).2
      = cand ++ bits := by
  induction bits generalizing cand with
  | nil => simp [greedy, payload]
  | cons b bits ih =>
    cases hm : matchCode (codeBook ct) (cand ++ [b]) with
    | none => rw [greedy_cons_of_no_match hm, ih, List.append_assoc, List.singleton_append]
    | some x =>
      obtain ⟨-, hcode⟩ := matchCode_some hm
      rw [greedy_cons_of_match hm, payload, List.flatMap_cons, List.append_assoc, ← payload, ih, hcode]
      simp

/-- What the walk emits has been matched at its first chance, and it ends with an unmatched candidate. -/
theorem NoCodeBegins.shortest_codes_and_left (h : NoCodeBegins ct cand) :
    (∀ x ∈ (greedy (codeBook ct) cand bits).1, HasShortestCode ct x)
      ∧ NoCodeBegins ct (greedy (codeBook ct) cand bits).2 := by
  induction bits generalizing cand with
  | nil => exact ⟨by simp [greedy], h⟩
  | cons b bits ih =>
    cases hm : matchCode (codeBook ct) (cand ++ [b]) with
    | none =>
      rw [greedy_cons_of_no_match hm]
      exact ih (h.concat_of_no_match hm)
    | some x =>
      rw [greedy_cons_of_match hm]
      obtain ⟨hemitted, hleft⟩ := ih (noCodeBegins_nil ct)
      exact ⟨List.forall_mem_cons.2 ⟨h.hasShortestCode_of_match hm, hemitted⟩, hleft⟩

/-- Over a prefix-free table the walk undoes the packer. -/
theorem greedy_payload (hpf : PrefixFree ct) {bytes : List Byte} (hcoded : ∀ x ∈ bytes, HasCode ct x) :
    greedy (codeBook ct) [] (payload ct bytes) = (bytes, []) := by
  induction bytes with
  | nil => rfl
  | cons x bytes ih =>
    obtain ⟨hx, hrest⟩ := List.forall_mem_cons.1 hcoded
    rw [payload, List.flatMap_cons, ← payload, greedy_code hpf hx, ih hrest]

end

/-- Settles O51: the walk starts from the empty candidate, which no code begins. -/
theorem greedyWalkSpellsItsInput : Obligations.GreedyWalkSpellsItsInput := by
  intro ct bits out left h
  have hspells := payload_greedy ct [] bits
  obtain ⟨hemitted, hleft⟩ := (noCodeBegins_nil ct).shortest_codes_and_left (bits := bits)
  rw [h] at hspells hemitted hleft
  exact ⟨hspells, fun x hx => (hemitted x hx).1, fun x hx => (hemitted x hx).2, hleft⟩

/-! ### The least conflict (R193) -/

/-- `x` and `y`, in ascending order, have the same code in the book. -/
def ShareCode (book : List (Symbol × Bits)) (x y : Symbol) : Prop :=
  x.toNat < y.toNat ∧ ∃ c, (x, c) ∈ book ∧ (y, c) ∈ book

section
variable {ct : CodeTable} {book : List (Symbol × Bits)} {x y : Symbol}

theorem shareCode_codeBook_iff : ShareCode (codeBook ct) x y
    ↔ x.toNat < y.toNat ∧ HasCode ct x ∧ HasCode ct y ∧ codeOf ct x = codeOf ct y := by
  simp only [ShareCode, mem_codeBook]
  constructor
  · rintro ⟨hlt, c, ⟨hx, hcx⟩, hy, hcy⟩
    exact ⟨hlt, hx, hy, hcx.trans hcy.symm⟩
  · rintro ⟨hlt, hx, hy, hcode⟩
    exact ⟨hlt, _, ⟨hx, rfl⟩, hy, hcode.symm⟩

/-- The first hit in an ascending book has the least symbol of all hits. -/
theorem le_of_find?_eq_some (hbook : book.Pairwise fun p q => p.1.toNat < q.1.toNat)
    {f : Symbol × Bits → Bool} {q r : Symbol × Bits} (hq : book.find? f = some q) (hr : r ∈ book)
    (hfr : f r = true) : q.1.toNat ≤ r.1.toNat := by
  obtain ⟨-, before, after, rfl, hbefore⟩ := List.find?_eq_some_iff_append.1 hq
  rcases List.mem_append.1 hr with hr | hr
  · exact absurd (hbefore r hr) (by simp [hfr])
  · obtain ⟨-, hafter, -⟩ := List.pairwise_append.1 hbook
    rcases List.mem_cons.1 hr with rfl | hr
    · exact le_rfl
    · exact ((List.pairwise_cons.1 hafter).1 r hr).le

theorem ShareCode.cons (h : ShareCode book x y) (p : Symbol × Bits) : ShareCode (p :: book) x y := by
  obtain ⟨hlt, c, hx, hy⟩ := h
  exact ⟨hlt, c, List.mem_cons_of_mem p hx, List.mem_cons_of_mem p hy⟩

/-- In an ascending book the greater of two symbols is never the first one. -/
theorem ShareCode.cases_cons {p : Symbol × Bits} (hhead : ∀ q ∈ book, p.1.toNat < q.1.toNat)
    (h : ShareCode (p :: book) x y) :
    (x = p.1 ∧ (y, p.2) ∈ book) ∨ (p.1.toNat < x.toNat ∧ ShareCode book x y) := by
  obtain ⟨hlt, c, hx, hy⟩ := h
  rcases List.mem_cons.1 hx with rfl | hx' <;> rcases List.mem_cons.1 hy with hyp | hy'
  · cases hyp
    exact absurd hlt (Nat.lt_irrefl _)
  · exact .inl ⟨rfl, hy'⟩
  · subst hyp
    have hyx : y.toNat < x.toNat := hhead (x, c) hx'
    exact absurd hlt hyx.not_gt
  · exact .inr ⟨hhead _ hx', hlt, c, hx', hy'⟩

/-- What a conflict found means: it is the least of all. -/
theorem conflictIn_some (hbook : book.Pairwise fun p q => p.1.toNat < q.1.toNat)
    (h : conflictIn book = some (x, y)) : ShareCode book x y
      ∧ ∀ x' y', ShareCode book x' y' → x.toNat < x'.toNat ∨ (x = x' ∧ y.toNat ≤ y'.toNat) := by
  induction book with
  | nil => cases h
  | cons p rest ih =>
    obtain ⟨hhead, hrest⟩ := List.pairwise_cons.1 hbook
    cases hf : rest.find? fun q => q.2 == p.2 with
    | some q =>
      simp only [conflictIn, hf, Option.some.injEq, Prod.mk.injEq] at h
      obtain ⟨rfl, rfl⟩ := h
      have hq := List.mem_of_find?_eq_some hf
      have hcode : q.2 = p.2 := by simpa using List.find?_some hf
      refine ⟨⟨hhead q hq, p.2, by simp, hcode ▸ List.mem_cons_of_mem p hq⟩, fun x' y' hshare => ?_⟩
      rcases hshare.cases_cons hhead with ⟨rfl, hy'⟩ | ⟨hlt, -⟩
      · exact .inr ⟨rfl, le_of_find?_eq_some hrest hf hy' (by simp)⟩
      · exact .inl hlt
    | none =>
      simp only [conflictIn, hf] at h
      obtain ⟨hfound, hleast⟩ := ih hrest h
      refine ⟨hfound.cons p, fun x' y' hshare => ?_⟩
      rcases hshare.cases_cons hhead with ⟨-, hy'⟩ | ⟨-, hlater⟩
      · exact absurd (by simp) (List.find?_eq_none.1 hf _ hy')
      · exact hleast x' y' hlater

/-- UNPACK's check finds the least conflict, which is one pair. -/
theorem conflictIn_codeBook_of_least (hxy : ShareCode (codeBook ct) x y)
    (hleast : ∀ x' y', ShareCode (codeBook ct) x' y' →
      x.toNat < x'.toNat ∨ (x = x' ∧ y.toNat ≤ y'.toNat)) :
    conflictIn (codeBook ct) = some (x, y) := by
  cases hc : conflictIn (codeBook ct) with
  | none =>
    obtain ⟨hlt, hx, hy, hcode⟩ := shareCode_codeBook_iff.1 hxy
    rw [(conflictIn_codeBook_none ct).1 hc x y hx hy hcode] at hlt
    exact absurd hlt (Nat.lt_irrefl _)
  | some found =>
    obtain ⟨x', y'⟩ := found
    obtain ⟨hfound, hfirst⟩ := conflictIn_some (codeBook_sorted ct) hc
    rcases hleast x' y' hfound with hlt | ⟨rfl, hle⟩
    · rcases hfirst x y hxy with hlt' | ⟨rfl, -⟩ <;> omega
    · rcases hfirst x y hxy with hlt' | ⟨-, hle'⟩
      · omega
      · rw [BitVec.eq_of_toNat_eq (Nat.le_antisymm hle hle')]

end

/-! ### The kept bits (R190, R197) -/

/-- The bits of `body` without the last `p`: steps (b) and (c) of R190. -/
def keptOf (p : Byte) (body : List Byte) : Bits :=
  (bitsOfBytes body).take (8 * body.length - p.toNat)

/-- The bits of a byte but its last `p` are those of its quotient by 2 ^ p. -/
theorem take_bits8_congr {b b' : Byte} {p : Nat} (h : b.toNat / 2 ^ p = b'.toNat / 2 ^ p) :
    (bits8 b).take (8 - p) = (bits8 b').take (8 - p) := by
  simp only [bits8, ← List.map_take, List.take_range]
  refine List.map_congr_left fun j hj => ?_
  have hjp := List.mem_range.1 hj
  have hj8 : j < 8 := by omega
  have hp : p ≤ 7 - j := by omega
  have hbit := congrArg (Nat.testBit · (7 - j - p)) h
  simp only [Nat.testBit_div_two_pow, Nat.sub_add_cancel hp] at hbit
  simpa [BitVec.getMsbD, BitVec.getLsbD, hj8] using hbit

theorem keptOf_concat {p : Byte} (hp : p.toNat ≤ 7) (body : List Byte) (b : Byte) :
    keptOf p (body ++ [b]) = bitsOfBytes body ++ (bits8 b).take (8 - p.toNat) := by
  have hbits : bitsOfBytes (body ++ [b]) = bitsOfBytes body ++ bits8 b := by simp [bitsOfBytes]
  rw [keptOf, hbits, List.take_append, List.take_of_length_le (by simp; omega)]
  congr 2
  simp; omega

/-! ### The unpacker's answer (R190, R191, R193, R195) -/

/-- The padding byte passes its checks (R191). -/
def PaddingOk (p : Byte) (body : List Byte) : Prop := p.toNat ≤ 7 ∧ p.toNat ≤ 8 * body.length

section
variable {ct : CodeTable} {p : Byte} {body body' out : List Byte} {cap : Word} {left : Bits}

theorem unpackWith_congr (hlen : body.length = body'.length) (hkept : keptOf p body = keptOf p body') :
    unpackWith ct p body cap = unpackWith ct p body' cap := by
  simp only [keptOf, hlen] at hkept
  simp only [unpackWith, hlen, hkept]

theorem paddingOk_iff_not_bad : PaddingOk p body ↔ ¬ (p.toNat > 7 ∨ p.toNat > 8 * body.length) := by
  unfold PaddingOk; omega

theorem unpackWith_of_bad_padding (hp : ¬ PaddingOk p body) :
    unpackWith ct p body cap = .error { code := .badPadding, info := p.setWidth 32 } := by
  rw [paddingOk_iff_not_bad, not_not] at hp
  simp only [unpackWith, hp, if_true]

theorem unpackWith_of_conflict {x y : Symbol} (hp : PaddingOk p body)
    (hc : conflictIn (codeBook ct) = some (x, y)) : unpackWith ct p body cap =
      .error { code := .tableConflict, info := BitVec.ofNat 32 (x.toNat + 256 * y.toNat) } := by
  simp only [unpackWith, paddingOk_iff_not_bad.1 hp, hc, if_false]

theorem unpackWith_of_leftover (hp : PaddingOk p body) (hc : ConflictFree ct)
    (hg : greedy (codeBook ct) [] (keptOf p body) = (out, left)) (hleft : left ≠ []) :
    unpackWith ct p body cap = .error { code := .incompleteCode, info := saturate left.length } := by
  rw [keptOf] at hg
  simp only [unpackWith, paddingOk_iff_not_bad.1 hp, (conflictIn_codeBook_none ct).2 hc, hg, if_false,
    if_pos hleft]

theorem unpackWith_of_overflow (hp : PaddingOk p body) (hc : ConflictFree ct)
    (hg : greedy (codeBook ct) [] (keptOf p body) = (out, [])) (hcap : cap.toNat < out.length) :
    unpackWith ct p body cap = .error { code := .dstOverflow, info := saturate out.length } := by
  rw [keptOf] at hg
  simp [unpackWith, paddingOk_iff_not_bad.1 hp, (conflictIn_codeBook_none ct).2 hc, hg, hcap]

theorem unpackWith_of_fits (hp : PaddingOk p body) (hc : ConflictFree ct)
    (hg : greedy (codeBook ct) [] (keptOf p body) = (out, [])) (hcap : out.length ≤ cap.toNat) :
    unpackWith ct p body cap = .ok (out, p.setWidth 3) := by
  rw [keptOf] at hg
  simp [unpackWith, paddingOk_iff_not_bad.1 hp, (conflictIn_codeBook_none ct).2 hc, hg,
    Nat.not_lt.2 hcap]

end

/-- Settles O52: the answer depends on the last byte only through its bits before the padding. -/
theorem paddingBitsAreIgnored : Obligations.PaddingBitsAreIgnored := by
  intro ct p body b b' cap hp hquot
  refine unpackWith_congr (by simp) ?_
  rw [keptOf_concat hp, keptOf_concat hp, take_bits8_congr hquot]

/-! ### The command by cases (R190) -/

section
variable {s t : State} {p : Byte} {body out : List Byte}

theorem sourceBytes_eq_cons (hne : s.srcLen ≠ 0) :
    s.sourceBytes = s.sourceByte 0 :: s.sourceBytes.drop 1 := by
  have hlen : s.srcLen.toNat = s.srcLen.toNat - 1 + 1 := by bv_omega
  rw [sourceBytes_eq_map, hlen, List.range_succ_eq_map]
  rfl

theorem length_drop_sourceBytes (s : State) :
    (s.sourceBytes.drop 1).length = s.srcLen.toNat - 1 := by simp

theorem keptBits_eq_keptOf (s : State) :
    s.keptBits = keptOf (s.sourceByte 0) (s.sourceBytes.drop 1) := by
  rw [keptOf, length_drop_sourceBytes, State.keptBits]

theorem execUnpack_of_ok {pad : BitVec 3} (hok : s.BuffersOk) (hsrc : s.sourceBytes = p :: body)
    (h : unpackWith s.codes p body s.dstCap = .ok (out, pad)) :
    exec .unpack s = complete (s.deliver out pad) := by
  simp only [exec, execUnpack, bufferError_eq_none_iff.2 hok, hsrc, h]

theorem execUnpack_of_error {e : CmdError} (hok : s.BuffersOk) (hsrc : s.sourceBytes = p :: body)
    (h : unpackWith s.codes p body s.dstCap = .error e) :
    exec .unpack s = .next (failedWith s e.code e.info) := by
  simp only [exec, execUnpack, bufferError_eq_none_iff.2 hok, hsrc, h]
  rfl

end

/-- Settles O50: the unpacker's checks in their order, the least conflict being the one it finds. -/
theorem unpackErrorsAreInOrder : Obligations.UnpackErrorsAreInOrder := by
  intro s hok hne
  have hsrc := sourceBytes_eq_cons hne
  have hlen := length_drop_sourceBytes s
  refine ⟨fun hbad => ?_, fun hp7 hpbody => ?_⟩
  · refine execUnpack_of_error hok hsrc (unpackWith_of_bad_padding ?_)
    rintro ⟨hp7, hpbody⟩
    omega
  have hp : PaddingOk (s.sourceByte 0) (s.sourceBytes.drop 1) := ⟨hp7, hlen ▸ hpbody⟩
  refine ⟨fun x y hlt hx hy hcode hleast => ?_, fun hfree out left hwalk => ?_⟩
  · have hxy := shareCode_codeBook_iff.2 ⟨hlt, hx, hy, hcode⟩
    refine execUnpack_of_error hok hsrc (unpackWith_of_conflict hp
      (conflictIn_codeBook_of_least hxy fun x' y' hshare => ?_))
    obtain ⟨hlt', hx', hy', hcode'⟩ := shareCode_codeBook_iff.1 hshare
    exact hleast x' y' hlt' hx' hy' hcode'
  · rw [keptBits_eq_keptOf] at hwalk
    refine ⟨fun hleft => ?_, fun hleft hcap => ?_⟩
    · exact execUnpack_of_error hok hsrc (unpackWith_of_leftover hp hfree hwalk hleft)
    · subst hleft
      exact execUnpack_of_error hok hsrc (unpackWith_of_overflow hp hfree hwalk hcap)

/-- Settles O49: the walk's bytes are the output delivered, and a command writes only its results. -/
theorem unpackWritesTheDecodedBytes : Obligations.UnpackWritesTheDecodedBytes := by
  intro s out hok hne hwf hp7 hpbody hfree hwalk hcap
  rw [keptBits_eq_keptOf] at hwalk
  have hp : PaddingOk (s.sourceByte 0) (s.sourceBytes.drop 1) :=
    ⟨hp7, length_drop_sourceBytes s ▸ hpbody⟩
  have hexec := execUnpack_of_ok hok (sourceBytes_eq_cons hne) (unpackWith_of_fits hp hfree hwalk hcap)
  have hout : HoldsOutput s ((s.deliver out ((s.sourceByte 0).setWidth 3)).finish .noError 0) out :=
    ⟨hcap, rfl, rfl⟩
  have houtLen := hout.toNat_outLen
  obtain ⟨-, houtside⟩ := hout.footprint
  obtain ⟨hcontrols, hhost, hfreq, htree, hcodes, -⟩ := commandsWriteOnlyTheirResults .unpack s _ hexec
  refine ⟨_, hexec, ⟨rfl, rfl, rfl, rfl⟩, houtLen, ?_, houtLen ▸ hout.readRange hwf,
    houtLen ▸ houtside, hcontrols, hhost, htree (by decide), hfreq (by decide), hcodes (by decide)⟩
  exact (BitVec.toNat_setWidth _ _).trans (Nat.mod_eq_of_lt (by omega))

/-! ### The round trip (R198) -/

/-- What a PACK or COMPRESS of `bytes` delivers, with `ct` the table it leaves: no byte for an empty
source (R181, R211), else the packed form (R180, R210). -/
inductive Packs (ct : CodeTable) : List Byte → List Byte → BitVec 3 → Prop where
  | nothing : Packs ct [] [] 0
  | packed (bytes : List Byte) (hcoded : ∀ x ∈ bytes, HasCode ct x) :
    Packs ct bytes (packedBytes (payload ct bytes)) (padOf (payload ct bytes))

section
variable {s t u : State} {ct : CodeTable} {bytes body out : List Byte} {p : Byte} {bits : Bits}
  {pad : BitVec 3} {cap : Word}

theorem packs_of_packWith (h : packWith ct bytes cap = .ok (out, pad)) : Packs ct bytes out pad := by
  rcases packWith_cases ct bytes cap with ⟨i, -, h'⟩ | ⟨-, -, h'⟩ | ⟨hcoded, -, h'⟩ <;>
    rw [h'] at h <;> cases h
  exact .packed bytes (firstMissing_none.1 hcoded)

theorem packs_of_compressWith {r : Compressed} (h : compressWith bytes cap = .ok r) :
    Packs r.codes bytes r.out r.pad := by
  rcases compressWith_cases bytes cap with ⟨e, -, h'⟩ | ⟨tr, e, -, -, h'⟩ | ⟨tr, out, p, -, hp, h'⟩ <;>
    rw [h'] at h <;> cases h
  exact packs_of_packWith hp

theorem packs_of_empty_source (ct : CodeTable) (h0 : s.srcLen = 0) : Packs ct s.sourceBytes [] 0 := by
  have hnil : s.sourceBytes = [] := by simp [sourceBytes_eq_map, h0]
  rw [hnil]
  exact .nothing

/-- A PACK or COMPRESS without an error delivers what packs its source with the table it leaves. -/
theorem exec_packs {i : Instr} (hi : i ∈ [Instr.pack, .compress]) (h : exec i s = .next t)
    (herr : t.err = .noError) : ∃ out, HoldsOutput s t out ∧ Packs t.codes s.sourceBytes out t.pad := by
  cases i with
  | pack =>
    rcases execPack_cases h with ⟨e, he, rfl⟩ | ⟨-, h0, rfl⟩ | ⟨-, -, e, he, rfl⟩
      | ⟨-, -, out, p, hp, rfl⟩
    · exact absurd herr (bufferError_code_ne he)
    · exact ⟨[], holdsOutput_nil rfl rfl, packs_of_empty_source _ h0⟩
    · exact absurd herr (packWith_code_ne he)
    · exact ⟨out, ⟨length_le_of_packWith hp, rfl, rfl⟩, packs_of_packWith hp⟩
  | compress =>
    rcases execCompress_succeeded h herr with ⟨h0, rfl⟩ | ⟨-, r, hr, rfl⟩
    · exact ⟨[], holdsOutput_nil rfl rfl, packs_of_empty_source _ h0⟩
    · obtain ⟨-, hfits⟩ := compressWith_ok hr
      exact ⟨r.out, ⟨hfits, rfl, rfl⟩, packs_of_compressWith hr⟩
  | nop | clear | analyze | buildTree | genCodes | unpack => simp at hi

/-- The bits kept of a packed form are those that were packed. -/
theorem keptOf_of_packed (h : packedBytes bits = p :: body) : keptOf p body = bits := by
  obtain ⟨rfl, rfl⟩ := List.cons.inj h
  rw [keptOf, bitsOfBytes_packed_body, length_packed_body, toNat_padOf_byte,
    Nat.mul_div_cancel' (padCount_dvd bits.length), Nat.add_sub_cancel, List.take_left]

theorem paddingOk_of_packed (h : packedBytes bits = p :: body) : PaddingOk p body := by
  obtain ⟨rfl, rfl⟩ := List.cons.inj h
  rw [PaddingOk, toNat_padOf_byte, length_packed_body, Nat.mul_div_cancel' (padCount_dvd bits.length)]
  exact ⟨Nat.le_of_lt_succ (padCount_lt _), Nat.le_add_left _ _⟩

theorem setWidth_of_packed (h : packedBytes bits = p :: body) : p.setWidth 3 = padOf bits := by
  obtain ⟨rfl, -⟩ := List.cons.inj h
  rw [BitVec.setWidth_setWidth_of_le _ (by decide), BitVec.setWidth_eq]

/-- The unpacker undoes the packer: it keeps the payload's bits, and the walk reads them code by code. -/
theorem unpackWith_of_packed (hpf : PrefixFree ct) (hcoded : ∀ x ∈ bytes, HasCode ct x)
    (hpacked : packedBytes (payload ct bytes) = p :: body) (hcap : bytes.length ≤ cap.toNat) :
    unpackWith ct p body cap = .ok (bytes, padOf (payload ct bytes)) := by
  have hwalk : greedy (codeBook ct) [] (keptOf p body) = (bytes, []) := by
    rw [keptOf_of_packed hpacked, greedy_payload hpf hcoded]
  rw [unpackWith_of_fits (paddingOk_of_packed hpacked) (conflictFree_of_prefixFree hpf) hwalk hcap,
    setWidth_of_packed hpacked]

theorem execUnpack_of_packs (hok : u.BuffersOk) (hpf : PrefixFree u.codes)
    (hpacks : Packs u.codes bytes u.sourceBytes pad) (hcap : bytes.length ≤ u.dstCap.toNat) :
    exec .unpack u = complete (u.deliver bytes pad) := by
  generalize hsrc : u.sourceBytes = src at hpacks
  cases hpacks with
  | nothing => simp only [exec, execUnpack, bufferError_eq_none_iff.2 hok, hsrc]
  | packed _ hcoded => exact execUnpack_of_ok hok hsrc (unpackWith_of_packed hpf hcoded rfl hcap)

/-- The codes that a COMPRESS leaves are those of a built tree, or none at all (R173, R211). -/
theorem execCompress_prefixFree (h : exec .compress s = .next t) (herr : t.err = .noError) :
    PrefixFree t.codes := by
  rcases execCompress_succeeded h herr with ⟨-, rfl⟩ | ⟨-, r, hr, rfl⟩
  · intro x _ hx
    exact absurd hx (not_hasCode_of_lookup_noCode (lookup_emptyCodes x))
  · obtain ⟨tr, hb, rfl⟩ := compressWith_ok_results hr
    obtain ⟨hshape, -⟩ := buildTree_ok hb
    exact hshape.prefixFree

end

/-- Settles O53: the source of the UNPACK is what packs the source of the PACK or COMPRESS. -/
theorem packThenUnpackRestoresTheSource : Obligations.PackThenUnpackRestoresTheSource := by
  intro i s t u hi h herr _ hpf hwf hwfu hcodes hsrcAddr hsrcLen hbytes hok hcap
  obtain ⟨out, hout, hpacks⟩ := exec_packs hi h herr
  have hsource : u.sourceBytes = out := by
    rw [State.sourceBytes, hsrcAddr, hsrcLen, hbytes, hout.readRange hwf]
  have hfits : s.sourceBytes.length ≤ u.dstCap.toNat := by rwa [length_sourceBytes]
  rw [← hcodes, ← hsource] at hpacks
  have hexec := execUnpack_of_packs hok (hcodes ▸ hpf) hpacks hfits
  have hrestored : HoldsOutput u ((u.deliver s.sourceBytes t.pad).finish .noError 0) s.sourceBytes :=
    ⟨hfits, rfl, rfl⟩
  have houtLen : BitVec.ofNat 32 s.sourceBytes.length = s.srcLen := by simp
  refine ⟨_, hexec, ⟨rfl, rfl, rfl, rfl⟩, houtLen, rfl, ?_⟩
  have hread := hrestored.readRange hwfu
  rwa [hrestored.toNat_outLen, length_sourceBytes] at hread

/-- Settles O57: the round trip of O53, whose premises on the codes hold after a COMPRESS. -/
theorem compressThenUnpackRestoresTheSource : Obligations.CompressThenUnpackRestoresTheSource := by
  intro s t u h herr
  have hpf := execCompress_prefixFree h herr
  exact packThenUnpackRestoresTheSource .compress s t u (by decide) h herr
    (conflictFree_of_prefixFree hpf) hpf

end Sys2Proof.Machine

/-! # COMPRESS: O12 and O54 to O56

The three tables that COMPRESS fills are those that ANALYZE, BUILD_TREE and GEN_CODES leave: `State.tabled`
names that state once, for the composite and for the four commands in sequence. A nonempty source has a
tree, and every byte of it a code of that tree, so the packer's capacity is all that can fail (R212). -/

namespace Sys2Proof.Machine

/-! ### The tree of a source and its codes (R151, R173) -/

section
variable {s t : State} {f : FreqTable} {tr : Tree} {x : Symbol} {cap : Word}

/-- A nonempty source counts some byte, and its counts sum to SRC_LEN, a word: the builder's two checks
pass. -/
theorem exists_buildTree_of_source (hne : s.srcLen ≠ 0) :
    ∃ tr, buildTree (frequencies s.sourceBytes) = .ok tr := by
  have hpos : 0 < s.srcLen.toNat := by bv_omega
  refine exists_buildTree ⟨s.sourceByte 0, fun hzero => ?_⟩ ?_
  · have hcount : s.sourceCount (s.sourceByte 0) ≠ 0 := sourceCount_ne_zero_iff.2 ⟨0, hpos, rfl⟩
    rw [← toNat_lookup_frequencies, hzero] at hcount
    exact hcount rfl
  · simp only [weightSum_eq_sum, toNat_lookup_frequencies, sum_sourceCount]
    exact Nat.le_sub_one_of_lt s.srcLen.isLt

/-- The codes of a table's tree are for exactly the symbols that it counts. -/
theorem hasCode_of_buildTree (h : buildTree f = .ok tr) :
    HasCode (codeTable tr.node tr.root) x ↔ lookup f x ≠ 0 := by
  obtain ⟨hshape, -⟩ := buildTree_ok h
  rw [hshape.hasCode_iff]
  refine ⟨?_, exists_leaf_of_buildTree h⟩
  rintro ⟨k, hk, rfl⟩
  obtain ⟨-, -, -, hweight⟩ := hshape.leaf k hk
  rwa [← weight_leaf_of_buildTree h hk]

theorem hasCode_of_source (h : buildTree (frequencies s.sourceBytes) = .ok tr) :
    HasCode (codeTable tr.node tr.root) x ↔ s.sourceCount x ≠ 0 := by
  rw [hasCode_of_buildTree h, ← toNat_lookup_frequencies]
  exact BitVec.toNat_ne_iff_ne.symm

theorem hasCode_sourceByte (h : buildTree (frequencies s.sourceBytes) = .ok tr) {k : Nat}
    (hk : k < s.srcLen.toNat) : HasCode (codeTable tr.node tr.root) (s.sourceByte k) :=
  (hasCode_of_source h).2 (sourceCount_ne_zero_iff.2 ⟨k, hk, rfl⟩)

/-- A code's length is held in 8 bits (R50). -/
theorem length_payload_le (ct : CodeTable) (bytes : List Byte) :
    (payload ct bytes).length ≤ 255 * bytes.length := by
  induction bytes with
  | nil => exact Nat.le_refl 0
  | cons b bytes ih =>
    have hcode : (codeOf ct b).length = (lookup ct b).len.toNat := length_code _
    have hlen := (lookup ct b).len.isLt
    rw [payload] at ih ⊢
    rw [List.flatMap_cons, List.length_append, List.length_cons]
    omega

/-- The walk of a stored tree is the walk of the tree (R170). -/
theorem codeTable_storeTree (s : State) (h : buildTree f = .ok tr) :
    codeTable (nodeAt (s.storeTree tr).arena) (s.storeTree tr).root.toNat
      = codeTable tr.node tr.root := by
  obtain ⟨hshape, hlen, -, -⟩ := buildTree_ok h
  rw [toNat_root_storeTree s h]
  exact hshape.codeTable_congr fun k hk => nodeAt_storeTree_of_buildTree s h (hlen ▸ hk)

/-! ### What the composition can raise (R212) -/

theorem firstMissing_of_source (hb : buildTree (frequencies s.sourceBytes) = .ok tr) :
    firstMissing (codeTable tr.node tr.root) s.sourceBytes = none := by
  refine firstMissing_none.2 fun x hx => (hasCode_of_source hb).2 ?_
  rw [← count_sourceBytes]
  exact (List.count_pos_iff.2 hx).ne'

theorem packWith_error_code {e : CmdError} (hb : buildTree (frequencies s.sourceBytes) = .ok tr)
    (h : packWith (codeTable tr.node tr.root) s.sourceBytes cap = .error e) :
    e.code = .dstOverflow := by
  rcases packWith_cases (codeTable tr.node tr.root) s.sourceBytes cap with ⟨i, hmissing, -⟩
    | ⟨-, -, hover⟩ | ⟨-, -, hfits⟩
  · cases (firstMissing_of_source hb).symm.trans hmissing
  · cases h.symm.trans hover
    rfl
  · cases h.symm.trans hfits

/-- On a nonempty source neither the builder fails nor a byte lacks a code. -/
theorem compressWith_error_code {e : CmdError} (hne : s.srcLen ≠ 0)
    (h : compressWith s.sourceBytes cap = .error e) : e.code = .dstOverflow := by
  obtain ⟨tr, hb⟩ := exists_buildTree_of_source hne
  rcases compressWith_cases s.sourceBytes cap with ⟨e', hb', -⟩ | ⟨tr', e', hb', hp, h'⟩
    | ⟨tr', out, p, -, -, h'⟩
  · cases hb.symm.trans hb'
  · cases h.symm.trans h'
    exact packWith_error_code hb' hp
  · cases h.symm.trans h'

/-- How a COMPRESS can end (R212, R220). -/
theorem execCompress_err (h : exec .compress s = .next t) :
    t.err ∈ [ErrCode.noError, .addrRange, .overlap, .dstOverflow] := by
  rcases execCompress_cases h with ⟨e, he, rfl⟩ | ⟨-, -, rfl⟩ | ⟨-, hne, e, he, rfl⟩
    | ⟨-, -, r, -, rfl⟩
  · rcases bufferError_cases s with h' | h' | h' | h' <;> cases he.symm.trans h' <;> simp
  · simp
  · simp [compressWith_error_code hne he]
  · simp

/-! ### The command by cases (R210, R211) -/

/-- `s` with the tables of its source: what ANALYZE, BUILD_TREE and GEN_CODES leave when `tr` is the
tree of the counts (R210). -/
def State.tabled (s : State) (tr : Tree) : State :=
  ((s.setFreq (frequencies s.sourceBytes)).storeTree tr).setCodes (codeTable tr.node tr.root)

theorem execCompress_of_empty (hok : s.BuffersOk) (h0 : s.srcLen = 0) :
    exec .compress s = complete (s.clearTables.deliver [] 0) := by
  simp only [exec, execCompress, bufferError_eq_none_iff.2 hok, h0, if_true]

theorem execCompress_of_ok {out : List Byte} {p : BitVec 3} (hok : s.BuffersOk) (hne : s.srcLen ≠ 0)
    (hb : buildTree (frequencies s.sourceBytes) = .ok tr)
    (hp : packWith (codeTable tr.node tr.root) s.sourceBytes s.dstCap = .ok (out, p)) :
    exec .compress s = complete ((s.tabled tr).deliver out p) := by
  simp only [exec, execCompress, bufferError_eq_none_iff.2 hok, if_neg hne, compressWith, hb, hp]
  rfl

theorem execCompress_of_error {e : CmdError} (hok : s.BuffersOk) (hne : s.srcLen ≠ 0)
    (hb : buildTree (frequencies s.sourceBytes) = .ok tr)
    (hp : packWith (codeTable tr.node tr.root) s.sourceBytes s.dstCap = .error e) :
    exec .compress s = .next (failedWith s e.code e.info) := by
  simp only [exec, execCompress, bufferError_eq_none_iff.2 hok, if_neg hne, compressWith, hb, hp]
  rfl

/-! ### The sequence of commands (R210) -/

/-- The first three commands, run one after the other, leave the tables of the source. -/
theorem exec_tabled (hok : s.BuffersOk) (hb : buildTree (frequencies s.sourceBytes) = .ok tr) :
    ∃ s₁ s₂, exec .analyze s = .next s₁ ∧ exec .buildTree s₁ = .next s₂
      ∧ exec .genCodes s₂ = .next ((s.tabled tr).finish .noError 0) := by
  obtain ⟨hsrc, -⟩ := hok
  refine ⟨_, _, execAnalyze_of_rangeOk hsrc, execBuildTree_of_ok hb, ?_⟩
  have hcodes := codeTable_storeTree (s.setFreq (frequencies s.sourceBytes)) hb
  rw [execGenCodes_of_valid rfl, State.tabled, ← hcodes]
  rfl

end

/-- Settles O12: none of the three is among the errors of COMPRESS. -/
theorem compressNeverMissesATableOrCode : Obligations.CompressNeverMissesATableOrCode := by
  intro s t h
  have herr := execCompress_err h
  exact ⟨ne_of_mem_of_not_mem herr (by decide), ne_of_mem_of_not_mem herr (by decide),
    ne_of_mem_of_not_mem herr (by decide)⟩

/-- Settles O54: the PACK and the COMPRESS take what one call of the packer answers. -/
theorem compressIsThePipeline : Obligations.CompressIsThePipeline := by
  intro s s₁ s₂ s₃ t hok hne h₁ h₂ h₃ h₄
  obtain ⟨tr, hb⟩ := exists_buildTree_of_source hne
  obtain ⟨u₁, u₂, hu₁, hu₂, hu₃⟩ := exec_tabled hok hb
  cases h₁.symm.trans hu₁
  cases h₂.symm.trans hu₂
  cases h₃.symm.trans hu₃
  have hok₃ : ((s.tabled tr).finish .noError 0).BuffersOk := hok
  cases hp : packWith (codeTable tr.node tr.root) s.sourceBytes s.dstCap with
  | error e =>
    cases h₄.symm.trans (execPack_of_error hok₃ hne hp)
    exact ⟨fun herr => absurd herr (packWith_code_ne hp), fun _ => execCompress_of_error hok hne hb hp⟩
  | ok r =>
    obtain ⟨out, p⟩ := r
    cases h₄.symm.trans (execPack_of_ok hok₃ hne hp)
    exact ⟨fun _ => execCompress_of_ok hok hne hb hp, fun herr => absurd rfl herr⟩

/-- Settles O55: the four commands in sequence complete, so by O54 COMPRESS does, and ends as O45 says of
the PACK, over the tables that the first three left. -/
theorem compressCompletes : Obligations.CompressCompletes := by
  intro s hok hne hwf hcap
  obtain ⟨tr, hb⟩ := exists_buildTree_of_source hne
  obtain ⟨hshape, -⟩ := buildTree_ok hb
  obtain ⟨s₁, s₂, h₁, h₂, h₃⟩ := exec_tabled hok hb
  obtain ⟨bits, hbits⟩ : ∃ bits, bits = payload (codeTable tr.node tr.root) s.sourceBytes := ⟨_, rfl⟩
  have hbody := add_padCount_div_eight bits.length
  have hfits : 1 + (bits.length + 7) / 8 ≤ s.dstCap.toNat := by
    have hle := length_payload_le (codeTable tr.node tr.root) s.sourceBytes
    rw [← hbits, length_sourceBytes] at hle
    omega
  obtain ⟨t, h₄, hcompleted, houtLen, hpad, hhead, hread, houtside, -, -, htree, hfreq, hcodes⟩ :=
    packWritesThePackedForm ((s.tabled tr).finish .noError 0) bits _ _ hok hne hwf
      (fun _ hk => hasCode_sourceByte hb hk)
      (hbits.trans (payload_sourceBytes ((s.tabled tr).finish .noError 0))) rfl hbody.symm hfits
  have ⟨_, _, herr, _⟩ := hcompleted
  obtain ⟨harena, hroot, hcount, hvalid⟩ := htree
  obtain ⟨hsucceeds, -⟩ := compressIsThePipeline s s₁ s₂ _ t hok hne h₁ h₂ h₃ h₄
  have h := hsucceeds herr
  obtain ⟨hcontrols, hhost⟩ := exec_keepsControls_keepsHost h
  have hct : t.codes = codeTable tr.node tr.root := hcodes
  refine ⟨t, h, hcompleted, hvalid, ?_, toNat_lookup_freq_of_counts (by decide) h herr, ?_⟩
  · rw [State.HoldsTree, State.nsym, harena, hroot, hcount, hfreq]
    exact State.holdsTree_storeTree _ hb
  · rw [hct, ← hbits, houtLen]
    refine ⟨fun x => hasCode_of_source hb, hshape.prefixFree, rfl, hpad, hhead.trans hpad.symm, ?_,
      houtside, hcontrols, hhost⟩
    rw [hpad, Nat.add_sub_cancel_left]
    exact hread

/-- Settles O56: an empty source passes the checks; the tables are cleared and no byte is delivered. -/
theorem compressOfNothingEmptiesTheTables : Obligations.CompressOfNothingEmptiesTheTables := by
  intro s h0 hdst
  have h := execCompress_of_empty (buffersOk_of_empty_source h0 hdst) h0
  obtain ⟨hcontrols, hhost⟩ := exec_keepsControls_keepsHost h
  exact ⟨_, h, ⟨rfl, rfl, rfl, rfl⟩, rfl, rfl, rfl, lookup_emptyCodes, ncode_eq_zero rfl,
    lookup_zeroFreq, rfl, rfl, hcontrols, hhost⟩

end Sys2Proof.Machine

/-! # Command errors, reset and CLEAR: O5, O10, O11, O13 and O33

A command that fails ends in `failedWith`, which names the whole of R221. Which codes it can end with is
said once for each operation that raises (the range checks, the tree builder, the packer, the unpacker),
and the commands put these together. Hardware reset is a launch whose DMEM is the old one, but for bytes of
the destination range of the command that it discards. -/

namespace Sys2Proof.Machine

/-! ### What a failed command leaves (R221) -/

section
variable {s t : State}

theorem EndsFrom.eq_failedWith (h : EndsFrom s t) (herr : t.err ≠ .noError) :
    t = failedWith s t.err t.errInfo := by
  cases h with
  | failed e _ => rfl
  | succeeded u _ => exact absurd rfl herr

/-- The ENGINE's turn while BUSY = 1: an illegal word fails as a command does (R104). -/
theorem engineTurn_eq_failedWith (hb : s.busy = true) (h : engineTurn s = .next t)
    (herr : t.err ≠ .noError) : t = failedWith s t.err t.errInfo := by
  rcases engineTurn_cases h with ⟨hp, -⟩ | ⟨w, v, -, -, rfl⟩ | ⟨w, i, -, -, hx⟩
  · exact absurd hp (State.busy_eq_true_iff.1 hb)
  · rfl
  · exact (exec_endsFrom hx).eq_failedWith herr

end

/-- Settles O10: of the two endings of a command only the failed one has a nonzero ERR. -/
theorem errorChangesOnlyTheStatus : Obligations.ErrorChangesOnlyTheStatus := by
  refine ⟨fun i s t h herr => (exec_endsFrom h).eq_failedWith herr, fun s t hturn hb h herr => ?_⟩
  rw [step_engine hturn] at h
  exact engineTurn_eq_failedWith (s := s.dropTurn) hb h herr

/-! ### The codes that each operation raises (R220) -/

section
variable {s t : State} {e : CmdError}

theorem sourceError_code (h : s.sourceError = some e) : e.code = .addrRange := by
  rcases sourceError_cases s with h' | h' <;> cases h.symm.trans h'
  rfl

theorem bufferError_code (h : s.bufferError = some e) : e.code ∈ [ErrCode.addrRange, .overlap] := by
  rcases bufferError_cases s with h' | h' | h' | h' <;> cases h.symm.trans h' <;> simp

theorem buildTree_error_code {f : FreqTable} (h : buildTree f = .error e) :
    e.code ∈ [ErrCode.emptyTable, .weightOvf] := by
  rcases buildTree_cases f with ⟨-, h'⟩ | ⟨-, -, h'⟩ | ⟨-, -, h'⟩ <;> cases h.symm.trans h' <;> simp

theorem packWith_error_code_mem {ct : CodeTable} {bytes : List Byte} {cap : Word}
    (h : packWith ct bytes cap = .error e) : e.code ∈ [ErrCode.missingCode, .dstOverflow] := by
  rcases packWith_cases ct bytes cap with ⟨i, -, h'⟩ | ⟨-, -, h'⟩ | ⟨-, -, h'⟩ <;>
    cases h.symm.trans h' <;> simp

/-- The four checks of the unpacker in their order: the padding, the table, the rest, the capacity. -/
theorem unpackWith_error_code {ct : CodeTable} {p : Byte} {body : List Byte} {cap : Word}
    (h : unpackWith ct p body cap = .error e) :
    e.code ∈ [ErrCode.badPadding, .tableConflict, .incompleteCode, .dstOverflow] := by
  by_cases hp : PaddingOk p body
  case neg => cases h.symm.trans (unpackWith_of_bad_padding hp); simp
  cases hc : conflictIn (codeBook ct) with
  | some xy => cases h.symm.trans (unpackWith_of_conflict hp hc); simp
  | none =>
    have hfree := (conflictIn_codeBook_none ct).1 hc
    obtain ⟨out, left, hg⟩ : ∃ out left, greedy (codeBook ct) [] (keptOf p body) = (out, left) :=
      ⟨_, _, rfl⟩
    by_cases hleft : left = []
    case neg => cases h.symm.trans (unpackWith_of_leftover hp hfree hg hleft); simp
    subst hleft
    rcases Nat.lt_or_ge cap.toNat out.length with hover | hfits
    · cases h.symm.trans (unpackWith_of_overflow hp hfree hg hover); simp
    · cases h.symm.trans (unpackWith_of_fits hp hfree hg hfits)

/-! ### The errors of each command (R220) -/

theorem execAnalyze_err (h : exec .analyze s = .next t) : t.err ∈ [ErrCode.noError, .addrRange] := by
  rcases execAnalyze_cases h with ⟨e, he, rfl⟩ | ⟨-, rfl⟩
  · simp [sourceError_code he]
  · simp

theorem execBuildTree_err (h : exec .buildTree s = .next t) :
    t.err ∈ [ErrCode.noError, .emptyTable, .weightOvf] := by
  rcases execBuildTree_cases h with ⟨e, he, rfl⟩ | ⟨tr, -, rfl⟩
  · exact List.mem_cons_of_mem _ (buildTree_error_code he)
  · simp

theorem execGenCodes_err (h : exec .genCodes s = .next t) : t.err ∈ [ErrCode.noError, .noTree] := by
  rcases execGenCodes_cases h with ⟨-, rfl⟩ | ⟨-, rfl⟩ <;> simp

theorem execPack_err (h : exec .pack s = .next t) :
    t.err ∈ [ErrCode.noError, .addrRange, .overlap, .missingCode, .dstOverflow] := by
  rcases execPack_cases h with ⟨e, he, rfl⟩ | ⟨-, -, rfl⟩ | ⟨-, -, e, he, rfl⟩ | ⟨-, -, out, p, -, rfl⟩
  · exact List.mem_cons_of_mem _ (List.mem_append_left _ (bufferError_code he))
  · simp
  · exact List.mem_append_right [ErrCode.noError, .addrRange, .overlap] (packWith_error_code_mem he)
  · simp

theorem execUnpack_err (h : exec .unpack s = .next t) :
    t.err ∈ [ErrCode.noError, .addrRange, .overlap, .badPadding, .tableConflict, .incompleteCode,
      .dstOverflow] := by
  rcases execUnpack_cases h with ⟨e, he, rfl⟩ | ⟨-, -, rfl⟩ | ⟨-, b, body, e, -, he, rfl⟩
    | ⟨-, b, body, out, p, -, -, rfl⟩
  · exact List.mem_cons_of_mem _ (List.mem_append_left _ (bufferError_code he))
  · simp
  · exact List.mem_append_right [ErrCode.noError, .addrRange, .overlap] (unpackWith_error_code he)
  · simp

end

/-- Settles O11: the numbers by evaluation; NOP and CLEAR have one ending each, a success. -/
theorem commandsRaiseOnlyTheirErrors : Obligations.CommandsRaiseOnlyTheirErrors := by
  refine ⟨rfl, fun s t => ⟨fun h => ?_, fun h => ?_, execAnalyze_err, execBuildTree_err,
    execGenCodes_err, execPack_err, execUnpack_err, execCompress_err⟩⟩
  · cases (execNop_eq s).symm.trans h
    rfl
  · cases (execClear_eq s).symm.trans h
    rfl

/-! ### The range checks in their order (R222) -/

section
variable {s : State} {i : Instr}

theorem bufferError_of_bad_source (hsrc : ¬ RangeOk s.dmemSize s.srcAddr s.srcLen) :
    s.bufferError = some { code := .addrRange, info := 0 } := by
  rw [State.bufferError, if_neg (mt rangeValid_iff.1 hsrc)]

theorem bufferError_of_bad_destination (hsrc : RangeOk s.dmemSize s.srcAddr s.srcLen)
    (hdst : ¬ RangeOk s.dmemSize s.dstAddr s.dstCap) :
    s.bufferError = some { code := .addrRange, info := 1 } := by
  rw [State.bufferError, if_pos (rangeValid_iff.2 hsrc), if_neg (mt rangeValid_iff.1 hdst)]

theorem bufferError_of_meet (hsrc : RangeOk s.dmemSize s.srcAddr s.srcLen)
    (hdst : RangeOk s.dmemSize s.dstAddr s.dstCap)
    (hmeet : RangesMeet s.srcAddr s.srcLen s.dstAddr s.dstCap) :
    s.bufferError = some { code := .overlap, info := 0 } := by
  rw [State.bufferError, if_pos (rangeValid_iff.2 hsrc), if_pos (rangeValid_iff.2 hdst),
    if_pos (rangesOverlap_iff_meet.2 hmeet)]

/-- The buffer checks stand before everything else that PACK, UNPACK and COMPRESS do. -/
theorem exec_of_bufferError {e : CmdError} (h : s.bufferError = some e)
    (hi : i ∈ [Instr.pack, .unpack, .compress]) :
    exec i s = .next (failedWith s e.code e.info) := by
  cases i with
  | pack => rw [exec, execPack, h]; rfl
  | unpack => rw [exec, execUnpack, h]; rfl
  | compress => rw [exec, execCompress, h]; rfl
  | nop | clear | analyze | buildTree | genCodes => simp at hi

end

/-- Settles O13: which check fails decides the error; ANALYZE has the first check alone. -/
theorem rangeChecksComeFirst : Obligations.RangeChecksComeFirst := by
  refine fun s => ⟨fun hsrc i hi => ?_,
    fun hsrc hdst _ => exec_of_bufferError (bufferError_of_bad_destination hsrc hdst),
    fun hsrc hdst hmeet _ => exec_of_bufferError (bufferError_of_meet hsrc hdst hmeet)⟩
  rcases List.mem_cons.1 hi with rfl | hi
  · exact execAnalyze_of_not_rangeOk hsrc
  · exact exec_of_bufferError (bufferError_of_bad_source hsrc) hi

/-! ### Hardware reset (R250, R251) -/

section
variable {s : State} {a : Nat}

/-- Reset leaves the block as a launch does: nothing that R250 fixes reads NODE, DMEM or the HOST. -/
theorem State.atReset_hardReset (s : State) : s.hardReset.AtReset :=
  State.atReset_launch s.dmemSize s.hardReset.dmem

/-- The bytes that a reset makes free lie in the active destination range. -/
theorem State.inActiveDestination_of_lt_activeDestinationBytes (hge : s.dstAddr.toNat ≤ a)
    (hlt : a < s.dstAddr.toNat + s.activeDestinationBytes) : s.inActiveDestination a = true := by
  unfold State.activeDestinationBytes at hlt
  split at hlt
  · rename_i hrunning
    rw [State.inActiveDestination, hrunning, Bool.true_and, inRange_iff]
    omega
  · omega

theorem State.read_hardReset (h : s.inActiveDestination a = false) :
    Memory.read s.hardReset.dmem a = Memory.read s.dmem a := by
  refine Memory.read_writeRange_of_outside ?_
  rw [List.length_map, List.length_range]
  by_contra hin
  have hactive := State.inActiveDestination_of_lt_activeDestinationBytes (s := s) (a := a) (by omega)
    (by omega)
  exact absurd (hactive.symm.trans h) (by decide)

theorem State.inActiveDestination_of_idle (hp : s.pending = none) (a : Nat) :
    s.inActiveDestination a = false := by
  simp [State.inActiveDestination, State.running, hp]

end

/-- Settles O5: using up the turn moves no active range, and while idle there is none. -/
theorem resetSetsEveryRegister : Obligations.ResetSetsEveryRegister := fun s hturn =>
  ⟨s.dropTurn.hardReset, step_reset hturn, State.atReset_hardReset _, rfl,
    fun hp a => State.read_hardReset (s := s.dropTurn) (State.inActiveDestination_of_idle hp a),
    fun _ ha => State.read_hardReset (s := s.dropTurn) ha⟩

/-! ### CLEAR (R131, R253) -/

/-- Settles O33: the tables are cleared and no byte is delivered; what CLEAR keeps, every command keeps. -/
theorem clearEmptiesTheTables : Obligations.ClearEmptiesTheTables := by
  intro s
  have h := execClear_eq s
  obtain ⟨hcontrols, hhost⟩ := exec_keepsControls_keepsHost (i := .clear) h
  exact ⟨_, h, ⟨rfl, rfl, rfl, rfl⟩, lookup_zeroFreq, lookup_emptyCodes, rfl, rfl, rfl, rfl, rfl,
    hcontrols, hhost, fun _ => rfl⟩

end Sys2Proof.Machine
